-- ==== Sys2Proof/Word.lean ====
section
/-!
DEFINITION. The word types of the block (spec/00_scope.md R3, section 5.1): 32-bit register words, 7-bit register
addresses, 8-bit field ids and status bytes, the 40-bit datagram, the 48-bit command word and the 41-bit result word.
-/
namespace Sys2Proof

/-- A register word (R3: register width 32 bits). -/
abbrev Word := BitVec 32

/-- A register address (R3, R30: 7 bits, 0x00 to 0x7F). -/
abbrev Addr := BitVec 7

/-- A field id, the index into the field table (R57). -/
abbrev FieldId := BitVec 8

/-- A byte: the address byte or the status byte of a datagram (R50, R53). -/
abbrev Byte := BitVec 8

/-- The 40 bits of a datagram, in either direction (R50, R53). -/
abbrev Datagram := BitVec 40

/-- A command word of the host port (R56). -/
abbrev CommandWord := BitVec 48

/-- A result word of the host port (R58). -/
abbrev ResultWord := BitVec 41

end Sys2Proof
end

