-- ==== Sys2Proof/Syntax.lean ====
section
/-!
DEFINITION. The instructions: one constructor for each row of spec/opcode_table.json, the four host commands of
spec/30_encoding.md R56 and the two wire datagrams of R51. The ignored argument of RDREG and GETF (R57, D5) is kept, so that
a command word and its instruction determine each other.
-/
namespace Sys2Proof

/-- The instructions of the opcode table. -/
inductive Instr where
  /-- RDREG (R83, R84): register address `a`; `arg` is ignored. -/
  | rdreg (a : Addr) (arg : Word)
  /-- WRREG (R82): register address `a`, packed word `v`. -/
  | wrreg (a : Addr) (v : Word)
  /-- GETF (R111): field id `f`; `arg` is ignored. -/
  | getf (f : FieldId) (arg : Word)
  /-- SETF (R110): field id `f`, semantic value `z` in two's complement. -/
  | setf (f : FieldId) (z : Word)
  /-- DGRAM.RD (R51, R75): the read datagram of register `a` with data bits `d`. -/
  | dgramRd (a : Addr) (d : Word)
  /-- DGRAM.WR (R51, R75): the write datagram of word `d` to register `a`. -/
  | dgramWr (a : Addr) (d : Word)
  deriving DecidableEq, Repr

end Sys2Proof
end

