-- ==== Sys2Proof/Decode.lean ====
section
/-!
DEFINITION. The decoders of the command word (spec/30_encoding.md R56, R57, R59) and of the datagram (R50, R51, R54), the
encoder, the byte order of both (R33), and `decodeTableWord`.
-/
namespace Sys2Proof

/-- An encoded instruction: a word of the command port or a datagram of the link (R64: 48 and 40 bits, nothing else). -/
inductive Packet where
  | command (w : CommandWord)
  | datagram (d : Datagram)
  deriving DecidableEq, Repr

/-- The command words that the decoder rejects (R59): (a) a reserved `op`, (b) `sel[7] = 1` in RDREG or WRREG. -/
inductive DecodeError where
  | reservedOp (op : Byte)
  | selTopBit (sel : Byte)
  deriving DecidableEq, Repr

/-- `op = cmd[47:40]` (R56). -/
def cmdOp (w : CommandWord) : Byte := w.extractLsb' 40 8

/-- `sel = cmd[39:32]` (R56). -/
def cmdSel (w : CommandWord) : Byte := w.extractLsb' 32 8

/-- `arg = cmd[31:0]` (R56). -/
def cmdArg (w : CommandWord) : Word := w.extractLsb' 0 32

/-- The register address `sel[6:0]` (R57). -/
def selAddr (sel : Byte) : Addr := sel.extractLsb' 0 7

/-- The decoder of command words, checks (1) and (2) of R142: the operation, then `sel[7]` for RDREG and WRREG. -/
def decodeCommand (w : CommandWord) : Except DecodeError Instr :=
  let sel := cmdSel w
  if cmdOp w = 0x01 then
    if sel.getLsbD 7 then .error (.selTopBit sel) else .ok (.rdreg (selAddr sel) (cmdArg w))
  else if cmdOp w = 0x02 then
    if sel.getLsbD 7 then .error (.selTopBit sel) else .ok (.wrreg (selAddr sel) (cmdArg w))
  else if cmdOp w = 0x03 then .ok (.getf sel (cmdArg w))
  else if cmdOp w = 0x04 then .ok (.setf sel (cmdArg w))
  else .error (.reservedOp (cmdOp w))

/-- The decoder of datagrams, total (R54): bit 39 selects write or read, bits 38:32 are the address (R50, R51). -/
def decodeDatagram (d : Datagram) : Instr :=
  let a : Addr := d.extractLsb' 32 7
  let dw : Word := d.extractLsb' 0 32
  if d.getLsbD 39 then .dgramWr a dw else .dgramRd a dw

/-- The decoder of an encoded instruction of either format. -/
def decode : Packet → Except DecodeError Instr
  | .command w => decodeCommand w
  | .datagram d => .ok (decodeDatagram d)

/-- `{op, sel, arg}` (R56). -/
def packCommand (op sel : Byte) (arg : Word) : CommandWord := op ++ sel ++ arg

/-- The `sel` of a register command, `{0b0, a}` (R57). -/
def regSel (a : Addr) : Byte := 0#1 ++ a

/-- The address byte of a read datagram, `{0b0, a}` (R51). -/
def readByte (a : Addr) : Byte := 0#1 ++ a

/-- The address byte of a write datagram, `{0b1, a}` (R51). -/
def writeByte (a : Addr) : Byte := 1#1 ++ a

/-- The 40 bits `{ab, dw}` of a datagram (R33, R50). -/
def packDatagram (ab : Byte) (dw : Word) : Datagram := ab ++ dw

/-- The encoder, from the same tables (R50, R51, R56, R57). -/
def encode : Instr → Packet
  | .rdreg a arg => .command (packCommand 0x01 (regSel a) arg)
  | .wrreg a v => .command (packCommand 0x02 (regSel a) v)
  | .getf f arg => .command (packCommand 0x03 f arg)
  | .setf f z => .command (packCommand 0x04 f z)
  | .dgramRd a d => .datagram (packDatagram (readByte a) d)
  | .dgramWr a d => .datagram (packDatagram (writeByte a) d)

/-- The five bytes of a datagram in the order they are sent: the address byte, then the data, most significant byte
first (R33, R70, R71). -/
def wireBytes (d : Datagram) : List Byte :=
  [d.extractLsb' 32 8, d.extractLsb' 24 8, d.extractLsb' 16 8, d.extractLsb' 8 8, d.extractLsb' 0 8]

/-- Five bytes in the order they are received, put together again (R33, R73); any other number of bytes is no frame. -/
def ofWireBytes : List Byte → Option Datagram
  | [b0, b1, b2, b3, b4] => some (b0 ++ b1 ++ b2 ++ b3 ++ b4)
  | _ => none

/-- The instruction that the decoder reads from a row's bits, numbered as spec/opcode_table.json numbers them: 40 bits are a
datagram, 48 bits a command word; no row has another length (R64). -/
def decodeTableWord (nbits w : Nat) : Option Instr :=
  if nbits = 40 then some (decodeDatagram (BitVec.ofNat 40 w))
  else if nbits = 48 then (decodeCommand (BitVec.ofNat 48 w)).toOption
  else none

end Sys2Proof
end

