-- ==== Sys2Proof/Config.lean ====
section
/-!
DEFINITION. The configuration record of spec/00_scope.md R4 (register table, field table, clock and chip-select times, the
side effect of a read on the chip) with the parameters of spec/93 U8 and U10 and of R44, all of it plain data; and the
free values: constants without a body, for every value that the spec leaves open.
-/
namespace Sys2Proof

/-- The access kind of a register (R23, R120 part 1): read-only, write-only, read/write. -/
inductive Access where
  | ro
  | wo
  | rw
  deriving DecidableEq, Repr

/-- One entry of `RegTable` (R4): a register's address, its name and its access kind. -/
structure RegEntry where
  addr : Addr
  name : String
  acc : Access
  deriving DecidableEq, Repr

/-- The rounding direction of a quantized field (R93, R94, R95). -/
inductive Dir where
  | down
  | up
  deriving DecidableEq, Repr

/-- The semantic domain of a field and its encoding rule (R60, R61). -/
inductive Policy where
  | clamp (min max : Int)
  | bias (min max offset : Int)
  | quant (members : List Int) (dir : Dir)
  deriving DecidableEq, Repr

/-- The mode gate `(gbit, gval)` of a field (R60). -/
structure Gate where
  gbit : Nat
  gval : Bool
  deriving DecidableEq, Repr

/-- A field descriptor, a row of `FieldTable` (R60), with its field id. -/
structure Field where
  id : FieldId
  name : String
  reg : Addr
  off : Nat
  width : Nat
  policy : Policy
  gate : Option Gate
  deriving DecidableEq, Repr

/-- A word computed from the chip's registers, as data: with these operations every function of the register words can be
written. -/
inductive ChipExpr where
  /-- The constant `w`. -/
  | const (w : Word)
  /-- The word of register `a`. -/
  | reg (a : Addr)
  | inv (e : ChipExpr)
  | and (e f : ChipExpr)
  | or (e f : ChipExpr)
  | xor (e f : ChipExpr)
  | add (e f : ChipExpr)
  | shl (e : ChipExpr) (n : Nat)
  | shr (e : ChipExpr) (n : Nat)
  /-- `e` where `c` is not zero, else `f`. -/
  | select (c e f : ChipExpr)
  deriving DecidableEq, Repr

/-- One register changed: register `dst` becomes `value`. -/
structure RegChange where
  dst : Addr
  value : ChipExpr
  deriving DecidableEq, Repr

/-- One entry of the parameter `ChipReadEffect` (R4): the state change of the chip when register `src` is read. Every `value`
is computed from the registers as they stood before the entry. -/
structure ReadEffect where
  src : Addr
  changes : List RegChange
  deriving DecidableEq, Repr

/-- The configuration record (R4): constant for one machine, never written by a step. -/
structure Config where
  /-- `RegTable` (R4, D28). -/
  regTable : List RegEntry
  /-- `FieldTable` (R4, D29). -/
  fieldTable : List Field
  /-- `CLKDIV`, block clock periods for each serial clock period, at least 2 (R4, R77). -/
  clkDiv : Nat
  /-- `T_CSS`, chip-select set-up before the first clock edge (R4). -/
  tCss : Nat
  /-- `T_CSH`, chip-select hold after the last clock edge (R4). -/
  tCsh : Nat
  /-- `T_CSW`, least time chip-select is high between exchanges (R4). -/
  tCsw : Nat
  /-- `ChipReadEffect` (R4, R44, D26). -/
  readEffects : List ReadEffect
  /-- `SV_RAW` of spec/93 U8: the cached value is the caller's argument and not the canonical value. -/
  svRaw : Bool
  /-- The chip's register words at its own power-on, by address, unlisted ones zero (R27, U10); empty is the
  premise `CHIP_POR_ZERO`. -/
  chipPor : List (Nat × Word)
  /-- The registers that the chip changes on its own, between and during exchanges (R44): a read of one returns a draw. -/
  chipChanges : List Addr
  deriving DecidableEq, Repr

/-- FREE VALUE (R43, U1): the status byte of exchange number `n`. -/
opaque Config.freeStatus : Nat → Byte

/-- FREE VALUE (R42, U2; R44): the returned word of exchange number `n` where the previous exchange read no readable register,
or read one that the chip changes on its own. -/
opaque Config.freeReply : Nat → Word

/-- The instants of R41 at which a register that the chip does not change on its own can have held different words: before
the side effect of exchange `n - 1`, between the exchanges, at the end of exchange `n`. -/
inductive Instant where
  | start
  | between
  | finish
  deriving DecidableEq, Repr, Inhabited

/-- FREE VALUE (R41, D24): the instant whose word exchange number `n` returns. -/
opaque Config.freeInstant : Nat → Instant

/-- FREE VALUE (R44, U9, U13): the word the chip has in register `a` at moment number `n`, where it changes the register on its
own, the frame was cut short, or the datagram is one whose effect the spec does not give. -/
opaque Config.freeChipWord : Nat → Addr → Word

/-- FREE VALUE (R15, U3): the cached value of a field after the reset with draw number `n`, until its first effective SETF. -/
opaque Config.freeCached : Nat → FieldId → Word

/-- FREE VALUE (R99, U4): the decoded value of an index without a member, in exchange number `n`. -/
opaque Config.freeDecode : Nat → Word

/-- FREE VALUE (section 5.1 of spec/00_scope.md): `trunc_32` of an integer outside the 32-bit range. -/
opaque Config.freeTrunc : Int → Word

/-- FREE VALUE (R18, U6): the level of `mosi` outside a chip-select frame, after draw number `n`. -/
opaque Config.freeMosi : Nat → Bool

/-- FREE VALUE (R55, R21, R177): what `res[40:0]` shows at moment number `n`, where `res_valid` is 0: the block keeps no result. -/
opaque Config.freeResult : Nat → ResultWord

/-- FREE VALUE (R19, R21): what the shifter `sh_in` holds between exchanges, where it is dead, after draw number `n`. -/
opaque Config.freeShifter : Nat → Datagram

/-- FREE VALUE (log 4): the level of `miso` outside a chip-select frame, of which the spec says nothing, after draw number
`n`. -/
opaque Config.freeMiso : Nat → Bool

end Sys2Proof
end

