-- ==== Sys2Proof/Machine/Tables.lean ====
section
/-!
DEFINITION. The look-ups in the two tables (spec/00_scope.md section 5.2), and the default tables of spec/44_tables.md:
T-REG (R123), T-CORE (R121, R122) and T-EXT (R124), with the defaults of the other parameters of R4.
-/
namespace Sys2Proof.Machine

/-- `acc(a)`: the access kind of address `a`, or `none` when `a` is not in `RegTable`. -/
def accOf (c : Config) (a : Addr) : Option Access :=
  (c.regTable.find? (fun r => r.addr == a)).map (fun r => r.acc)

/-- `writable(a)`: `acc(a)` is write-only or read/write (R10). -/
def writable (c : Config) (a : Addr) : Bool :=
  accOf c a == some .wo || accOf c a == some .rw

/-- `readable(a)`: `acc(a)` is read-only or read/write. -/
def readable (c : Config) (a : Addr) : Bool :=
  accOf c a == some .ro || accOf c a == some .rw

/-- `FD(f)`: the descriptor of field `f`, or `none`. -/
def fieldOf (c : Config) (f : FieldId) : Option Field :=
  c.fieldTable.find? (fun d => d.id == f)

/-- Table T-REG (R123). PRESUMED: names, addresses and access kinds are from general knowledge, as the spec marks them. -/
def regTableDefault : List RegEntry :=
  [ ⟨0x00, "GCONF", .rw⟩,
    ⟨0x01, "GSTAT", .ro⟩,
    ⟨0x04, "IOIN", .ro⟩,
    ⟨0x10, "IHOLD_IRUN", .wo⟩,
    ⟨0x11, "TPOWERDOWN", .wo⟩,
    ⟨0x12, "TSTEP", .ro⟩,
    ⟨0x13, "TPWMTHRS", .wo⟩,
    ⟨0x14, "TCOOLTHRS", .wo⟩,
    ⟨0x15, "THIGH", .wo⟩,
    ⟨0x2D, "XDIRECT", .rw⟩,
    ⟨0x33, "VDCMIN", .wo⟩,
    ⟨0x6A, "MSCNT", .ro⟩,
    ⟨0x6B, "MSCURACT", .ro⟩,
    ⟨0x6C, "CHOPCONF", .rw⟩,
    ⟨0x6D, "COOLCONF", .wo⟩,
    ⟨0x6F, "DRV_STATUS", .ro⟩,
    ⟨0x70, "PWMCONF", .wo⟩,
    ⟨0x71, "PWM_SCALE", .ro⟩ ]

/-- The fields of GCONF, address 0x00 (R124). -/
def fieldsGconf : List Field :=
  [ ⟨0x00, "I_SCALE_ANALOG", 0x00, 0, 1, .clamp 0 1, none⟩,
    ⟨0x01, "INTERNAL_RSENSE", 0x00, 1, 1, .clamp 0 1, none⟩,
    ⟨0x02, "EN_PWM_MODE", 0x00, 2, 1, .clamp 0 1, none⟩,
    ⟨0x03, "ENC_COMMUTATION", 0x00, 3, 1, .clamp 0 1, none⟩,
    ⟨0x04, "SHAFT", 0x00, 4, 1, .clamp 0 1, none⟩,
    ⟨0x05, "DIAG0_ERROR", 0x00, 5, 1, .clamp 0 1, none⟩,
    ⟨0x06, "DIAG0_OTPW", 0x00, 6, 1, .clamp 0 1, none⟩,
    ⟨0x07, "DIAG0_STALL", 0x00, 7, 1, .clamp 0 1, none⟩,
    ⟨0x08, "DIAG1_STALL", 0x00, 8, 1, .clamp 0 1, none⟩,
    ⟨0x09, "DIAG1_INDEX", 0x00, 9, 1, .clamp 0 1, none⟩,
    ⟨0x0A, "DIAG1_ONSTATE", 0x00, 10, 1, .clamp 0 1, none⟩,
    ⟨0x0B, "DIAG1_STEPS_SKIPPED", 0x00, 11, 1, .clamp 0 1, none⟩,
    ⟨0x0C, "DIAG0_INT_PUSHPULL", 0x00, 12, 1, .clamp 0 1, none⟩,
    ⟨0x0D, "DIAG1_PUSHPULL", 0x00, 13, 1, .clamp 0 1, none⟩,
    ⟨0x0E, "SMALL_HYSTERESIS", 0x00, 14, 1, .clamp 0 1, none⟩,
    ⟨0x0F, "STOP_ENABLE", 0x00, 15, 1, .clamp 0 1, none⟩,
    ⟨0x10, "DIRECT_MODE", 0x00, 16, 1, .clamp 0 1, none⟩,
    ⟨0x11, "TEST_MODE", 0x00, 17, 1, .clamp 0 1, none⟩ ]

/-- The fields of GSTAT, address 0x01 (R124). -/
def fieldsGstat : List Field :=
  [ ⟨0x12, "GSTAT_RESET", 0x01, 0, 1, .clamp 0 1, none⟩,
    ⟨0x13, "GSTAT_DRV_ERR", 0x01, 1, 1, .clamp 0 1, none⟩,
    ⟨0x14, "GSTAT_UV_CP", 0x01, 2, 1, .clamp 0 1, none⟩ ]

/-- The fields of IOIN, address 0x04 (R124). -/
def fieldsIoin : List Field :=
  [ ⟨0x15, "IOIN_STEP", 0x04, 0, 1, .clamp 0 1, none⟩,
    ⟨0x16, "IOIN_DIR", 0x04, 1, 1, .clamp 0 1, none⟩,
    ⟨0x17, "IOIN_DCEN_CFG4", 0x04, 2, 1, .clamp 0 1, none⟩,
    ⟨0x18, "IOIN_DCIN_CFG5", 0x04, 3, 1, .clamp 0 1, none⟩,
    ⟨0x19, "IOIN_DRV_ENN_CFG6", 0x04, 4, 1, .clamp 0 1, none⟩,
    ⟨0x1A, "IOIN_DCO", 0x04, 5, 1, .clamp 0 1, none⟩,
    ⟨0x1B, "IOIN_VERSION", 0x04, 24, 8, .clamp 0 255, none⟩ ]

/-- The fields of IHOLD_IRUN, address 0x10 (R124, R121). -/
def fieldsIholdIrun : List Field :=
  [ ⟨0x1C, "IHOLD", 0x10, 0, 5, .clamp 0 31, none⟩,
    ⟨0x1D, "IRUN", 0x10, 8, 5, .clamp 0 31, none⟩,
    ⟨0x1E, "IHOLDDELAY", 0x10, 16, 4, .clamp 0 15, none⟩ ]

/-- The fields of TPOWERDOWN, address 0x11 (R124). -/
def fieldsTpowerdown : List Field :=
  [ ⟨0x1F, "TPOWERDOWN", 0x11, 0, 8, .clamp 0 255, none⟩ ]

/-- The fields of TSTEP, address 0x12 (R124). -/
def fieldsTstep : List Field :=
  [ ⟨0x20, "TSTEP", 0x12, 0, 20, .clamp 0 1048575, none⟩ ]

/-- The fields of TPWMTHRS, address 0x13 (R124). -/
def fieldsTpwmthrs : List Field :=
  [ ⟨0x21, "TPWMTHRS", 0x13, 0, 20, .clamp 0 1048575, none⟩ ]

/-- The fields of TCOOLTHRS, address 0x14 (R124). -/
def fieldsTcoolthrs : List Field :=
  [ ⟨0x22, "TCOOLTHRS", 0x14, 0, 20, .clamp 0 1048575, none⟩ ]

/-- The fields of THIGH, address 0x15 (R124). -/
def fieldsThigh : List Field :=
  [ ⟨0x23, "THIGH", 0x15, 0, 20, .clamp 0 1048575, none⟩ ]

/-- The fields of VDCMIN, address 0x33 (R124). -/
def fieldsVdcmin : List Field :=
  [ ⟨0x24, "VDCMIN", 0x33, 0, 23, .clamp 0 8388607, none⟩ ]

/-- The fields of MSCNT, address 0x6A (R124). -/
def fieldsMscnt : List Field :=
  [ ⟨0x25, "MSCNT", 0x6A, 0, 10, .clamp 0 1023, none⟩ ]

/-- The fields of CHOPCONF, address 0x6C (R124, R121). -/
def fieldsChopconf : List Field :=
  [ ⟨0x26, "TOFF", 0x6C, 0, 4, .clamp 0 15, none⟩,
    ⟨0x27, "HSTRT", 0x6C, 4, 3, .bias 1 8 (-1), some ⟨14, false⟩⟩,
    ⟨0x28, "HEND", 0x6C, 7, 4, .bias (-3) 12 3, some ⟨14, false⟩⟩,
    ⟨0x29, "SINE_OFFSET", 0x6C, 7, 4, .bias (-3) 12 3, some ⟨14, true⟩⟩,
    ⟨0x2A, "DISFDCC", 0x6C, 12, 1, .clamp 0 1, none⟩,
    ⟨0x2B, "RNDTF", 0x6C, 13, 1, .clamp 0 1, none⟩,
    ⟨0x2C, "CHM", 0x6C, 14, 1, .clamp 0 1, none⟩,
    ⟨0x2D, "VSENSE", 0x6C, 17, 1, .clamp 0 1, none⟩,
    ⟨0x2E, "VHIGHFS", 0x6C, 18, 1, .clamp 0 1, none⟩,
    ⟨0x2F, "VHIGHCHM", 0x6C, 19, 1, .clamp 0 1, none⟩,
    ⟨0x30, "SYNC", 0x6C, 20, 4, .clamp 0 15, none⟩,
    ⟨0x31, "MRES", 0x6C, 24, 4, .quant [256, 128, 64, 32, 16, 8, 4, 2, 0] .down, none⟩,
    ⟨0x32, "INTPOL", 0x6C, 28, 1, .clamp 0 1, none⟩,
    ⟨0x33, "DEDGE", 0x6C, 29, 1, .clamp 0 1, none⟩,
    ⟨0x34, "DISS2G", 0x6C, 30, 1, .clamp 0 1, none⟩ ]

/-- The fields of COOLCONF, address 0x6D (R124). -/
def fieldsCoolconf : List Field :=
  [ ⟨0x35, "SEMIN", 0x6D, 0, 4, .clamp 0 15, none⟩,
    ⟨0x36, "SEUP", 0x6D, 5, 2, .clamp 0 3, none⟩,
    ⟨0x37, "SEMAX", 0x6D, 8, 4, .clamp 0 15, none⟩,
    ⟨0x38, "SEDN", 0x6D, 13, 2, .clamp 0 3, none⟩,
    ⟨0x39, "SEIMIN", 0x6D, 15, 1, .clamp 0 1, none⟩,
    ⟨0x3A, "SFILT", 0x6D, 24, 1, .clamp 0 1, none⟩ ]

/-- The fields of PWMCONF, address 0x70 (R124). -/
def fieldsPwmconf : List Field :=
  [ ⟨0x3B, "PWM_AMPL", 0x70, 0, 8, .clamp 0 255, none⟩,
    ⟨0x3C, "PWM_GRAD", 0x70, 8, 8, .clamp 0 255, none⟩,
    ⟨0x3D, "PWM_FREQ", 0x70, 16, 2, .clamp 0 3, none⟩,
    ⟨0x3E, "PWM_AUTOSCALE", 0x70, 18, 1, .clamp 0 1, none⟩,
    ⟨0x3F, "PWM_SYMMETRIC", 0x70, 19, 1, .clamp 0 1, none⟩,
    ⟨0x40, "FREEWHEEL", 0x70, 20, 2, .clamp 0 3, none⟩ ]

/-- The fields of DRV_STATUS, address 0x6F (R124). -/
def fieldsDrvStatus : List Field :=
  [ ⟨0x41, "SG_RESULT", 0x6F, 0, 10, .clamp 0 1023, none⟩,
    ⟨0x42, "FSACTIVE", 0x6F, 15, 1, .clamp 0 1, none⟩,
    ⟨0x43, "CS_ACTUAL", 0x6F, 16, 5, .clamp 0 31, none⟩,
    ⟨0x44, "STALLGUARD", 0x6F, 24, 1, .clamp 0 1, none⟩,
    ⟨0x45, "OT", 0x6F, 25, 1, .clamp 0 1, none⟩,
    ⟨0x46, "OTPW", 0x6F, 26, 1, .clamp 0 1, none⟩,
    ⟨0x47, "S2GA", 0x6F, 27, 1, .clamp 0 1, none⟩,
    ⟨0x48, "S2GB", 0x6F, 28, 1, .clamp 0 1, none⟩,
    ⟨0x49, "OLA", 0x6F, 29, 1, .clamp 0 1, none⟩,
    ⟨0x4A, "OLB", 0x6F, 30, 1, .clamp 0 1, none⟩,
    ⟨0x4B, "STST", 0x6F, 31, 1, .clamp 0 1, none⟩ ]

/-- The fields of PWM_SCALE, address 0x71 (R124). -/
def fieldsPwmScale : List Field :=
  [ ⟨0x4C, "PWM_SCALE", 0x71, 0, 8, .clamp 0 255, none⟩ ]

/-- The default `FieldTable`: T-CORE and T-EXT, 77 rows (R121, R124). PRESUMED but for the three rows of T-CORE. -/
def fieldTableDefault : List Field :=
  fieldsGconf ++ fieldsGstat ++ fieldsIoin ++ fieldsIholdIrun ++ fieldsTpowerdown ++ fieldsTstep ++ fieldsTpwmthrs ++ fieldsTcoolthrs ++ fieldsThigh ++ fieldsVdcmin ++
    fieldsMscnt ++ fieldsChopconf ++ fieldsCoolconf ++ fieldsPwmconf ++ fieldsDrvStatus ++ fieldsPwmScale

/-- The default configuration: the tables above, `ChipReadEffect` none (D26), `SV_RAW` false (U8), the chip's power-on
words zero (R27), the read-only registers changed by the chip on its own (R44). DESIGN CHOICE: the open times. -/
def configDefault : Config where
  regTable := regTableDefault
  fieldTable := fieldTableDefault
  clkDiv := 2
  tCss := 0
  tCsh := 0
  tCsw := 0
  readEffects := []
  svRaw := false
  chipPor := []
  chipChanges := [0x01, 0x04, 0x12, 0x6A, 0x6B, 0x6F, 0x71]

end Sys2Proof.Machine
end

