-- ==== Sys2Proof/Machine/State.lean ====
section
/-!
DEFINITION. The state of the block, of the host that feeds it and of the chip behind it (spec/10_state.md), as plain data; the
faults (none: R140), the refusals (R59, R146); and the state after reset (R28).
-/
namespace Sys2Proof.Machine

/-- A finite map from numbers to values: pairs of key and value, keys rising. -/
abbrev Tab (α : Type) := List (Nat × α)

/-- A file of 32-bit words by register address (the smallest addressable unit, R30, R34), keys rising and no word
equal to 0, which is what an unlisted address reads as (R11 for the shadow file, R27 for the chip). -/
abbrev Memory := Tab Word

/-- One exchange as the observer sees it (R6): address byte and data word sent, status byte and word received. -/
structure Frame where
  ab : Byte
  dw : Word
  st : Byte
  rw : Word
  deriving DecidableEq, Repr

/-- The four wires and the shifter of the link (R18, R19, R79). -/
structure Link where
  csn : Bool
  sck : Bool
  mosi : Bool
  /-- The wire that the chip drives (R76, R79). -/
  miso : Bool
  /-- The datagram of the exchange in progress (R70, R76). -/
  out40 : Datagram
  /-- `sh_out`, the bits still to send. -/
  shOut : Datagram
  /-- `sh_in`, the bits received; between exchanges it is dead (R19) and keeps no copy of them (R21, log 5). -/
  shIn : Datagram
  /-- `bitcnt`, bits done, 0 to 40. -/
  bitcnt : Nat
  deriving DecidableEq, Repr

/-- The chip's reply word `RPL` (R26): either the data of the readable register `a` that the previous exchange read (R36), the
word `first` before the side effect of that read and the word `last` at the end of that exchange (R41); or no word that the spec
gives (R42): the next exchange then returns a free value. -/
inductive Reply where
  | unspecified
  | dataOf (a : Addr) (first last : Word)
  deriving DecidableEq, Repr

/-- What the chip takes of the 40 bits that the block sends (R143): all of them as sent, nothing, or other bits. -/
inductive Delivery where
  | intact
  | lost
  | altered (d : Datagram)
  deriving DecidableEq, Repr

/-- A failure of the link or of the chip in one exchange, which nothing detects (R143, R147, R175): what reaches the chip, and the
40 bits that the block samples on `miso` (none: those that the chip drives). -/
structure Disturbance where
  delivery : Delivery
  sampled : Option Datagram
  deriving DecidableEq, Repr

/-- What the outside world does to the system between two commands: reset of the block (R160), reset of the chip (R161,
R170), an exchange that stalls for ever after `bits` bit periods (R78, R176, U7), or a failure of the link in the exchange in
progress, else in the next one (R143, R147). -/
inductive Event where
  | blockReset
  | chipReset
  | stall (bits : Nat)
  | disturb (d : Disturbance)
  deriving DecidableEq, Repr

/-- The state. -/
structure State where
  /-- The configuration record (R4), which no step changes. -/
  cfg : Config
  /-- `SH`, the shadow file (R10). -/
  sh : Memory
  /-- `SV`, the cached semantic values of the fields that were set since reset (R14). -/
  sv : Tab Int
  /-- MODEL: the draw number of the reset that the other cached values were drawn at (R15, U3). -/
  svDraw : Nat
  /-- `busy` (R17). -/
  busy : Bool
  /-- The pins and the shifter (R18, R19). -/
  link : Link
  /-- `res_valid` (R55). -/
  resValid : Bool
  /-- `res[40:0]` (R55, R58): the result word while `res_valid` is 1; after it a free value, since the block forgets it (R21,
  R177, log 18). -/
  res : ResultWord
  /-- MODEL: a datagram handed to Transport directly and not yet exchanged (the DGRAM rows of the opcode table). -/
  xfer : Option Datagram
  /-- The host's command list (R20, R55). -/
  commands : List CommandWord
  /-- `ci`, the host's index into it (R20). -/
  ci : Nat
  /-- The result trace (R6). -/
  results : List ResultWord
  /-- The wire trace (R6, R70). -/
  wire : List Frame
  /-- `CHIP`, the chip's registers (R23, R30). -/
  chip : Memory
  /-- The chip's status flags as the last exchange found them (R25). -/
  status : Byte
  /-- `RPL`, the chip's reply word (R26). -/
  rpl : Reply
  /-- MODEL: the outside events still to come, the next one first. -/
  events : List Event
  /-- MODEL: the failure of the exchange in progress, else of the next one, if it fails (R143, log 19). -/
  disturb : Option Disturbance
  /-- MODEL: how many moments have passed at which the chip may have changed its registers (R44), and the index of the free
  words that it, and the idle result port, then had. -/
  moments : Nat
  /-- MODEL: how many draws were made: the number of the next exchange (R36) or reset, and the index of its free values. -/
  draws : Nat
  deriving DecidableEq, Repr

/-- The faults: none. The block raises no exception and has no fault, no trap and no error return (R5, R140). -/
inductive Fault where
  deriving DecidableEq, Repr

/-- The refusals. All are safe: the model gives the command no meaning, where a real block would do something (R146). -/
inductive Refusal where
  /-- An instruction without a meaning yet, raised by `exec`'s arms only. Safe. -/
  | notModelled (mnemonic : String)
  /-- R59 (a): `op` is 0x00 or 0x05 to 0xFF; raised by `step` when the decoder rejects the command word. Safe. -/
  | reservedOp (op : Byte)
  /-- R59 (b): RDREG or WRREG with `sel[7] = 1`; raised by `step` when the decoder rejects the command word. Safe. -/
  | selTopBit (sel : Byte)
  /-- R59 (c): the register is not in `RegTable`; raised by RDREG and WRREG, and by GETF and SETF where an ill-formed
  table gives a field a register that is not there. Safe. -/
  | unknownRegister (a : Addr)
  /-- R59 (d): WRREG to a read-only register. Safe. -/
  | readOnlyRegister (a : Addr)
  /-- R59 (e): GETF or SETF of a field id that is not in `FieldTable`. Safe. -/
  | unknownField (f : FieldId)
  /-- R59 (f): SETF of a field of a read-only register. Safe. -/
  | readOnlyField (f : FieldId)
  deriving DecidableEq, Repr

/-- The pins and the shifter after a reset (R18, R28); the levels of `mosi` and `miso` are given. -/
def linkReset (idleMosi idleMiso : Bool) : Link where
  csn := true
  sck := true
  mosi := idleMosi
  miso := idleMiso
  out40 := 0
  shOut := 0
  shIn := 0
  bitcnt := 0

/-- The state right after reset of the whole system (R28), with the default configuration, no command presented, and
the chip at its power-on words. -/
def State.reset : State where
  cfg := configDefault
  sh := []
  sv := []
  svDraw := 0
  busy := false
  link := linkReset (Config.freeMosi 0) (Config.freeMiso 0)
  resValid := false
  res := 0
  xfer := none
  commands := []
  ci := 0
  results := []
  wire := []
  chip := configDefault.chipPor
  status := 0
  rpl := .unspecified
  events := []
  disturb := none
  moments := 0
  draws := 0

end Sys2Proof.Machine
end

