-- ==== Sys2Proof/Machine/Ops.lean ====
section
/-!
DEFINITION. The named operations over the files of the state: finite maps in canonical form, the shadow file (R10 to R13), the
semantic cache (R14 to R16), the result port (R17, R55, R58), and the chip's address space. There is no exception to take and
none to return from (R140, R144, R145).
-/
namespace Sys2Proof.Machine

/-- The value at key `k`. -/
def tabFind {α : Type} : Tab α → Nat → Option α
  | [], _ => none
  | (j, v) :: t, k => if k = j then some v else tabFind t k

/-- The map without key `k`. -/
def tabErase {α : Type} : Tab α → Nat → Tab α
  | [], _ => []
  | (j, v) :: t, k => if k = j then tabErase t k else (j, v) :: tabErase t k

/-- The map with `(k, v)` before the first greater key. -/
def tabInsert {α : Type} : Tab α → Nat → α → Tab α
  | [], k, v => [(k, v)]
  | (j, w) :: t, k, v => if k < j then (k, v) :: (j, w) :: t else (j, w) :: tabInsert t k v

/-- The map with the value of `k` set to `v`. -/
def tabPut {α : Type} (t : Tab α) (k : Nat) (v : α) : Tab α := tabInsert (tabErase t k) k v

/-- The keys rise strictly. -/
def tabSorted {α : Type} (t : Tab α) : Bool := decide (t.Pairwise (fun x y => x.1 < y.1))

/-- The word at address `a`; an address that is not listed reads as 0. -/
def Memory.read (m : Memory) (a : Addr) : Word := (tabFind m a.toNat).getD 0

/-- The file with the word `v` at address `a`, in canonical form: a word 0 is not listed. -/
def Memory.write (m : Memory) (a : Addr) (v : Word) : Memory :=
  if v = 0 then tabErase m a.toNat else tabPut m a.toNat v

/-- The canonical form: keys rising, each an address, no word 0. -/
def Memory.wf (m : Memory) : Bool := tabSorted m && m.all (fun c => decide (c.1 < 128) && c.2 != 0)

/-- `SH[a]`: the shadow word of the register at address `a` (R10). -/
def readSh (s : State) (a : Addr) : Word := s.sh.read a

/-- `SH[a] <- v` (R12). -/
def writeSh (s : State) (a : Addr) (v : Word) : State := { s with sh := s.sh.write a v }

/-- `SV[f]`: the cached value of field `f`. FREE VALUE where no SETF of `f` took effect since reset (R15, U3). -/
def readSv (s : State) (f : FieldId) : Int :=
  match tabFind s.sv f.toNat with
  | some z => z
  | none => (Config.freeCached s.svDraw f).toInt

/-- `SV[f] <- z` (R16). -/
def writeSv (s : State) (f : FieldId) (z : Int) : State := { s with sv := tabPut s.sv f.toNat z }

/-- `CHIP[a]`: the chip's register at address `a` (R23). -/
def readChip (s : State) (a : Addr) : Word := s.chip.read a

/-- The words `freeChipWord n` in the registers `l`. -/
def moveWords : List Addr → Nat → Memory → Memory
  | [], _, m => m
  | a :: l, n, m => moveWords l n (m.write a (Config.freeChipWord n a))

/-- The chip's registers at moment `n`: those that the chip changes on its own hold free values (R44). -/
def chipMoved (c : Config) (m : Memory) (n : Nat) : Memory := moveWords c.chipChanges n m

/-- Time passes with no exchange: the chip may change the registers that it changes on its own (R44). -/
def chipMoves (s : State) : State := { s with chip := chipMoved s.cfg s.chip s.moments, moments := s.moments + 1 }

/-- `res_valid` is 0 and the block has forgotten the last result word, with its status byte (R21, R177): what `res` then shows, of
which R55 says nothing, is a free value (log 18). -/
def forgetResult (s : State) : State := { s with resValid := false, res := Config.freeResult s.moments }

/-- A command is accepted: `busy` is 1 and the result port holds nothing (R17, R55). -/
def accept (s : State) : State := { forgetResult (chipMoves s) with busy := true }

/-- The result word `{txn, st, val}` (R58). -/
def resultWord (txn : Bool) (st : Byte) (val : Word) : ResultWord := BitVec.ofBool txn ++ st ++ val

/-- `result(txn, st, val)`: the command is done, its result word is presented, `busy` returns to 0 (R55, R58), and the
host's index advances by one (R20). -/
def finish (s : State) (txn : Bool) (st : Byte) (val : Word) : State :=
  { s with
    busy := false
    resValid := true
    res := resultWord txn st val
    results := s.results ++ [resultWord txn st val]
    ci := s.ci + 1 }

/-- `cmd_ready` (R55): 1 exactly when `busy` is 0. -/
def cmdReady (s : State) : Bool := !s.busy

/-- `cmd` and `cmd_valid` (R20, R55): the command the host presents, if it has one left. -/
def cmdPort (s : State) : Option CommandWord := s.commands[s.ci]?

/-- The run has ended (R20): `ci` equals the length of the list and `busy` is 0. -/
def runEnded (s : State) : Bool := s.ci == s.commands.length && !s.busy

end Sys2Proof.Machine
end

