-- ==== Sys2Proof/Machine/Chip.lean ====
section
/-!
DEFINITION. The chip as the environment of the block (spec/20_memory.md R40 to R44, spec/10_state.md R23 to R27): what one
datagram does to its registers, what it sends in the same frame, what it will send in the next, and a frame that fails (R143).
-/
namespace Sys2Proof.Machine

/-- The address in an address byte (R51). -/
def byteAddr (ab : Byte) : Addr := ab.extractLsb' 0 7

/-- The write flag of an address byte (R51). -/
def byteWrite (ab : Byte) : Bool := ab.getLsbD 7

/-- The word that an expression gives, over the registers `m`. -/
def chipEval (m : Memory) : ChipExpr → Word
  | .const w => w
  | .reg a => m.read a
  | .inv e => ~~~chipEval m e
  | .and e f => chipEval m e &&& chipEval m f
  | .or e f => chipEval m e ||| chipEval m f
  | .xor e f => chipEval m e ^^^ chipEval m f
  | .add e f => chipEval m e + chipEval m f
  | .shl e n => chipEval m e <<< n
  | .shr e n => chipEval m e >>> n
  | .select c e f => if chipEval m c = 0 then chipEval m f else chipEval m e

/-- The changes of one entry made in the registers `m`, their words computed from the registers `old`. -/
def applyChanges (old : Memory) : List RegChange → Memory → Memory
  | [], m => m
  | ch :: l, m => applyChanges old l (m.write ch.dst (chipEval old ch.value))

/-- `ChipReadEffect` (R4, R44): the state change of a read of register `a`, its entries applied in the order of the list. -/
def applyReadEffects : List ReadEffect → Addr → Memory → Memory
  | [], _, m => m
  | e :: es, a, m => applyReadEffects es a (if e.src = a then applyChanges m e.changes m else m)

/-- The chip's registers after the datagram `{ab, dw}`, from moment `n` to moment `n + 1`: a write to a write-capable register
latches the whole word when the frame ends (R40); a write that the block cannot send leaves a free value in the addressed
register (U13, N24); a read has its side effect (R44). What the chip changes on its own moves before and after it (R44). -/
def chipAfter (c : Config) (m : Memory) (n : Nat) (ab : Byte) (dw : Word) : Memory :=
  if byteWrite ab then
    if writable c (byteAddr ab) then (chipMoved c m n).write (byteAddr ab) dw
    else (chipMoved c m n).write (byteAddr ab) (Config.freeChipWord (n + 1) (byteAddr ab))
  else chipMoved c (applyReadEffects c.readEffects (byteAddr ab) (chipMoved c m n)) (n + 1)

/-- The reply word after that datagram (R26): the data of the register read, if it is readable (R36, R41); else no word the
spec gives (R42). -/
def replyAfter (c : Config) (m : Memory) (n : Nat) (ab : Byte) (dw : Word) : Reply :=
  if byteWrite ab then .unspecified
  else if readable c (byteAddr ab) then
    .dataOf (byteAddr ab) ((chipMoved c m n).read (byteAddr ab)) ((chipAfter c m n ab dw).read (byteAddr ab))
  else .unspecified

/-- The word the chip returns in exchange `n` (R36, R41, R42, R44), where `after` are its registers at the end of that exchange:
a register that it does not change on its own as it stood at one of the instants of R41, a free value in every other case. -/
def returnedWord (c : Config) (r : Reply) (after : Memory) (n : Nat) : Word :=
  match r with
  | .unspecified => Config.freeReply n
  | .dataOf a first last =>
    if a ∈ c.chipChanges then Config.freeReply n
    else
      match Config.freeInstant n with
      | .start => first
      | .between => last
      | .finish => after.read a

/-- What reaches the chip of the datagram `out` (R143): all of it, unless the exchange fails. -/
def arrives (s : State) (out : Datagram) : Option Datagram :=
  match s.disturb with
  | none => some out
  | some d =>
    match d.delivery with
    | .intact => some out
    | .lost => none
    | .altered r => some r

/-- The chip's registers after a frame of which `o` reached it. -/
def chipTakes (c : Config) (m : Memory) (n : Nat) (o : Option Datagram) : Memory :=
  match o with
  | none => chipMoved c m n
  | some d => chipAfter c m n (d.extractLsb' 32 8) (d.extractLsb' 0 32)

/-- The reply word after such a frame; after one that did not reach the chip, no word the spec gives (log 19). -/
def replyTakes (c : Config) (m : Memory) (n : Nat) (o : Option Datagram) : Reply :=
  match o with
  | none => .unspecified
  | some d => replyAfter c m n (d.extractLsb' 32 8) (d.extractLsb' 0 32)

/-- The chip's registers after the exchange of `out`. -/
def chipNext (s : State) (out : Datagram) : Memory := chipTakes s.cfg s.chip s.moments (arrives s out)

/-- The 40 bits the chip drives in the exchange of `out` (R53): the status byte, current at this exchange and a free value
(R43), then the returned word. -/
def driven (s : State) (out : Datagram) : Datagram :=
  packDatagram (Config.freeStatus s.draws) (returnedWord s.cfg s.rpl (chipNext s out) s.draws)

/-- The 40 bits the block samples in the exchange `{ab, dw}`: what the chip drives, or whatever `miso` gave where the exchange
fails (R143). -/
def inbound (s : State) (ab : Byte) (dw : Word) : Datagram :=
  match s.disturb with
  | none => driven s (packDatagram ab dw)
  | some d => d.sampled.getD (driven s (packDatagram ab dw))

end Sys2Proof.Machine
end

