-- ==== Sys2Proof/Machine/Pins.lean ====
section
/-!
DEFINITION. The exchange at the pins (spec/40_transport.md R71, R76, R79): chip-select, serial clock and data, and the shifter;
and its length in block clock periods (R180). Bits go most significant first (R33).
-/
namespace Sys2Proof.Machine

/-- Chip-select is asserted and the shifter loaded (R76); `sh_in` is not cleared. -/
def selectLink (l : Link) (out40 : Datagram) : Link :=
  { l with csn := false, out40 := out40, shOut := out40, bitcnt := 0 }

/-- The leading (falling) edge of a bit period: the block puts the next outbound bit on `mosi` and the chip the next inbound
bit, `bit`, on `miso` (R76, R79). -/
def leadingEdge (l : Link) (bit : Bool) : Link :=
  { l with sck := false, mosi := l.shOut.getLsbD 39, miso := bit }

/-- The trailing (rising) edge of a bit period: `miso` is sampled and the shifter moves by one (R76). -/
def trailingEdge (l : Link) : Link :=
  { l with
    sck := true
    shIn := l.shIn.extractLsb' 0 39 ++ BitVec.ofBool l.miso
    shOut := l.shOut.extractLsb' 0 39 ++ 0#1
    bitcnt := l.bitcnt + 1 }

/-- One bit period. -/
def bitPeriod (l : Link) (bit : Bool) : Link := trailingEdge (leadingEdge l bit)

/-- Bit periods one after the other, with what the chip drives on `miso` in each. -/
def shiftBits : Link → List Bool → Link
  | l, [] => l
  | l, b :: bs => shiftBits (bitPeriod l b) bs

/-- The 40 bits of a datagram in the order of the bit periods: bit `i` goes in period `39 - i` (R76). -/
def bitsMsbFirst (d : Datagram) : List Bool := (List.range 40).map (fun i => d.getLsbD (39 - i))

/-- Chip-select is deasserted (R71); `mosi` and `miso` then have the levels given, which the spec leaves open (R18, log 4). -/
def deselectLink (l : Link) (idleMosi idleMiso : Bool) : Link := { l with csn := true, mosi := idleMosi, miso := idleMiso }

/-- One whole chip-select frame (R70, R76): select, 40 bit periods, deselect. -/
def frameLink (l : Link) (out40 in40 : Datagram) (idleMosi idleMiso : Bool) : Link :=
  deselectLink (shiftBits (selectLink l out40) (bitsMsbFirst in40)) idleMosi idleMiso

/-- The bits received have been handed over: `sh_in` is dead (R19) and keeps no copy of them (R21, R177); `dead` is what it holds. -/
def forgetBits (l : Link) (dead : Datagram) : Link := { l with shIn := dead }

/-- A frame that stopped after `bits` bit periods and never ended (R78, U7). -/
def stalledLink (l : Link) (out40 in40 : Datagram) (bits : Nat) : Link :=
  shiftBits (selectLink l out40) ((bitsMsbFirst in40).take bits)

/-- A stretch of time in which the four wires keep their levels (R79), in block clock periods. -/
structure Segment where
  csn : Bool
  sck : Bool
  mosi : Bool
  miso : Bool
  len : Nat
  deriving DecidableEq, Repr

/-- The pins as they stand, for `n` block clock periods. -/
def holdPins (l : Link) (n : Nat) : Segment := ⟨l.csn, l.sck, l.mosi, l.miso, n⟩

/-- The waveform of bit periods: `CLKDIV/2` low, then the rest of `CLKDIV` high (R76). -/
def bitsWave (c : Config) : Link → List Bool → List Segment
  | _, [] => []
  | l, b :: bs =>
    holdPins (leadingEdge l b) (c.clkDiv / 2) :: holdPins (bitPeriod l b) (c.clkDiv - c.clkDiv / 2) ::
      bitsWave c (bitPeriod l b) bs

/-- The waveform of one frame: `T_CSS`, 40 bit periods, `T_CSH` (R76, R180). -/
def frameWave (c : Config) (l : Link) (out40 in40 : Datagram) : List Segment :=
  holdPins (selectLink l out40) c.tCss ::
    (bitsWave c (selectLink l out40) (bitsMsbFirst in40) ++
      [holdPins (shiftBits (selectLink l out40) (bitsMsbFirst in40)) c.tCsh])

/-- The waveform of an exchange with the least time that chip-select was high before it, `T_CSW` (R76). -/
def exchangeWave (c : Config) (l : Link) (out40 in40 : Datagram) : List Segment :=
  holdPins l c.tCsw :: frameWave c l out40 in40

/-- The length of a waveform in block clock periods. -/
def waveLength (w : List Segment) : Nat := (w.map (fun x => x.len)).sum

/-- The segments of a waveform that a rising edge of `sck` begins: the sampling instants (R76). -/
def risingEdges : List Segment → List Segment
  | x :: y :: w => if !x.sck && y.sck then y :: risingEdges (y :: w) else risingEdges (y :: w)
  | _ => []

/-- The levels of `mosi` at the rising edges of `sck` inside a waveform: what the chip samples (R76). -/
def sampledMosi (w : List Segment) : List Bool := (risingEdges w).map (fun x => x.mosi)

/-- The levels of `miso` at the rising edges of `sck` inside a waveform: what the block samples (R76). -/
def sampledMiso (w : List Segment) : List Bool := (risingEdges w).map (fun x => x.miso)

end Sys2Proof.Machine
end

