-- ==== Sys2Proof/Machine/Transport.lean ====
section
/-!
DEFINITION. Transport and the merge of the Register Shadow Cache: Exchange (R70), its two uses MemRead and MemWrite (R75),
and MergeAndWrite (R80).
-/
namespace Sys2Proof.Machine

/-- What an operation that performs one exchange returns: the state after it, the status byte, the returned word. -/
structure Exchanged where
  state : State
  st : Byte
  rw : Word
  deriving DecidableEq, Repr

/-- `Exchange(ab, dw)` (R70, R76): one chip-select frame. The status byte and the returned word are read from what the
shifter received (R72, R73), after which it is dead and keeps no copy (R19, R21); the tuple goes to the wire trace (R6); the chip reacts to what reaches it (R40 to R44, R143). No
check is made of the address, the write flag or the data, and no retry (R70, R74): an exchange that fails completes as any. -/
def exchange (s : State) (ab : Byte) (dw : Word) : Exchanged :=
  let link := frameLink s.link (packDatagram ab dw) (inbound s ab dw)
    (Config.freeMosi (s.draws + 1)) (Config.freeMiso (s.draws + 1))
  let st : Byte := link.shIn.extractLsb' 32 8
  let rw : Word := link.shIn.extractLsb' 0 32
  { state :=
      { s with
        link := forgetBits link (Config.freeShifter (s.draws + 1))
        wire := s.wire ++ [⟨ab, dw, st, rw⟩]
        chip := chipNext s (packDatagram ab dw)
        status := Config.freeStatus s.draws
        rpl := replyTakes s.cfg s.chip s.moments (arrives s (packDatagram ab dw))
        disturb := none
        moments := s.moments + 2
        draws := s.draws + 1 }
    st := st
    rw := rw }

/-- `MemRead(a, 4)` (R75): a read datagram with data zero (R52). -/
def memRead (s : State) (a : Addr) : Exchanged := exchange s (readByte a) 0

/-- `MemWrite(a, 4, v)` (R75): a write datagram of `v`; the caller keeps the status byte only. -/
def memWrite (s : State) (a : Addr) (v : Word) : Exchanged := exchange s (writeByte a) v

/-- The merge of R80: `(old AND NOT m) OR (nb AND m)`. -/
def mergeWord (old nb m : Word) : Word := (old &&& ~~~m) ||| (nb &&& m)

/-- `MergeAndWrite(a, nb, m)` (R80): compute, send the whole word, store it whatever the status is. -/
def mergeAndWrite (s : State) (a : Addr) (nb m : Word) : Exchanged :=
  let new := mergeWord (readSh s a) nb m
  let e := memWrite s a new
  { e with state := writeSh e.state a new }

end Sys2Proof.Machine
end

