-- ==== Sys2Proof/Machine/DatagramAccess.lean ====
section
/-!
DEFINITION. The two wire datagrams of the opcode table (R51, R75): one exchange of Transport, outside any host command, so
with no result word and no change of the host's index. The data bits and the address are sent as they stand (R70).
-/
namespace Sys2Proof.Machine

/-- Transport has exchanged the datagram that was handed to it; the result port shows nothing. -/
def datagramDone (s : State) : State := { forgetResult s with xfer := none }

/-- DGRAM.RD (R75, R70): the exchange with the write flag 0. -/
def execDgramRd (a : Addr) (d : Word) (s : State) : Host.Outcome State Fault Refusal :=
  .next (datagramDone (exchange s (readByte a) d).state)

/-- DGRAM.WR (R75, R70): the exchange with the write flag 1; the shadow file is not involved (D3). -/
def execDgramWr (a : Addr) (d : Word) (s : State) : Host.Outcome State Fault Refusal :=
  .next (datagramDone (exchange s (writeByte a) d).state)

end Sys2Proof.Machine
end

