-- ==== Sys2Proof/Machine/Operands.lean ====
section
/-!
DEFINITION. The operand forms (spec/30_encoding.md R57, spec/00_scope.md section 5.1): sign extension and truncation of a
semantic value, the clamp, and the mask of a field.
-/
namespace Sys2Proof.Machine

/-- `sext_32(p)`: the integer that a 32-bit pattern spells in two's complement. -/
def sext32 (p : Word) : Int := p.toInt

/-- `trunc_32(z)`: the two's-complement pattern of `z`. FREE VALUE where `z` is outside -2^31 .. 2^31-1, for which the
spec does not define it. -/
def trunc32 (z : Int) : Word :=
  if -2147483648 ≤ z ∧ z < 2147483648 then BitVec.ofInt 32 z else Config.freeTrunc z

/-- `clamp(v, lo, hi)`. -/
def clampInt (v lo hi : Int) : Int := if v < lo then lo else if hi < v then hi else v

/-- `ones(w)` as a word. -/
def onesWord (w : Nat) : Word := BitVec.ofNat 32 (2 ^ w - 1)

/-- `fmask(off, w)`: `ones(w) << off`. -/
def fieldMask (off w : Nat) : Word := onesWord w <<< off

end Sys2Proof.Machine
end

