-- ==== Sys2Proof/Machine/Codec.lean ====
section
/-!
DEFINITION. The Field Codec (spec/42_field_codec.md): Encode (R90 to R96) and Decode (R97 to R99). Pure functions of a
descriptor and a value; all arithmetic is exact in the integers (R102).
-/
namespace Sys2Proof.Machine

/-- The least index whose member satisfies `p`, counted from `i`. -/
def leastIdx (p : Int → Bool) : List Int → Nat → Option Nat
  | [], _ => none
  | x :: xs, i => if p x then some i else leastIdx p xs (i + 1)

/-- The greatest index whose member satisfies `p`, counted from `i`. -/
def greatestIdx (p : Int → Bool) : List Int → Nat → Option Nat
  | [], _ => none
  | x :: xs, i =>
    match greatestIdx p xs (i + 1) with
    | some j => some j
    | none => if p x then some i else none

/-- The index that a quantized field selects for `z`: rounding down (R93) or up (R94), the end member beyond the ends. -/
def quantIdx (members : List Int) (dir : Dir) (z : Int) : Nat :=
  match dir with
  | .down => (leastIdx (fun x => decide (x ≤ z)) members 0).getD (members.length - 1)
  | .up => (greatestIdx (fun x => decide (z ≤ x)) members 0).getD 0

/-- The canonical value of `z` under a policy (R91 to R94). -/
def policyCanon (p : Policy) (z : Int) : Int :=
  match p with
  | .clamp min max => clampInt z min max
  | .bias min max _ => clampInt z min max
  | .quant members dir => members.getD (quantIdx members dir z) 0

/-- The code of `z` under a policy (R91 to R94). -/
def policyCode (p : Policy) (z : Int) : Nat :=
  match p with
  | .clamp min max => (clampInt z min max).toNat
  | .bias min max offset => (clampInt z min max + offset).toNat
  | .quant members dir => quantIdx members dir z

/-- What `Encode` returns (R90): the bits in position, the field's mask, the canonical value. -/
structure Encoded where
  bits : Word
  mask : Word
  canon : Int
  deriving DecidableEq, Repr

/-- `Encode(d, z)` (R90): the same shift and mask for every policy. -/
def encodeField (d : Field) (z : Int) : Encoded where
  bits := BitVec.ofNat 32 (policyCode d.policy z) <<< d.off
  mask := fieldMask d.off d.width
  canon := policyCanon d.policy z

/-- The code that stands in the field's bits of a word (R97). -/
def fieldCode (d : Field) (w : Word) : Nat := ((w >>> d.off) &&& onesWord d.width).toNat

/-- `Decode(d, w)` (R97 to R99), with `free` the value of an index that has no member (R99). -/
def decodeField (d : Field) (w : Word) (free : Int) : Int :=
  match d.policy with
  | .clamp _ _ => fieldCode d w
  | .bias _ _ offset => fieldCode d w - offset
  | .quant members _ =>
    match members[fieldCode d w]? with
    | some x => x
    | none => free

end Sys2Proof.Machine
end

