-- ==== Sys2Proof/Machine/Flags.lean ====
section
/-!
DEFINITION. The flags. The block keeps none of its own (R21); the one condition that steers a command is the mode gate of a
field (R22, R100). The chip's four status flags (R25) are read by the host from a status byte, never by the block.
-/
namespace Sys2Proof.Machine

/-- `GateOpen(d, w)` (R100): no gate, or the gate bit of `w` has the required value. -/
def gateOpen (d : Field) (w : Word) : Bool :=
  match d.gate with
  | none => true
  | some g => w.getLsbD g.gbit == g.gval

/-- Bit 0 of a status byte (R25). -/
def resetOccurred (st : Byte) : Bool := st.getLsbD 0

/-- Bit 1 of a status byte (R25). -/
def driverError (st : Byte) : Bool := st.getLsbD 1

/-- Bit 2 of a status byte (R25, C3). -/
def stallDetected (st : Byte) : Bool := st.getLsbD 2

/-- Bit 3 of a status byte (R25). -/
def standstill (st : Byte) : Bool := st.getLsbD 3

end Sys2Proof.Machine
end

