-- ==== Sys2Proof/Machine/FieldAccess.lean ====
section
/-!
DEFINITION. The field commands (spec/43_field_access.md): GETF (R111) and SETF (R110), over the descriptor of the field.
-/
namespace Sys2Proof.Machine

/-- GETF of a field whose register is readable (R111): one read exchange, and the returned word decoded; the index without
a member decodes to the free value of that exchange (R99). -/
def getReadable (d : Field) (s : State) : State :=
  let e := memRead (accept s) d.reg
  finish e.state true e.st (trunc32 (decodeField d e.rw (Config.freeDecode s.draws).toInt))

/-- GETF (R111): the cached value of a field of a write-only register, with no exchange; else the chip is read. Not gated
(D19); `arg` is ignored (R57). -/
def execGetf (f : FieldId) (_arg : Word) (s : State) : Host.Outcome State Fault Refusal :=
  match fieldOf s.cfg f with
  | none => .refused (.unknownField f)
  | some d =>
    match accOf s.cfg d.reg with
    | none => .refused (.unknownRegister d.reg)
    | some .wo => .next (finish (accept s) false 0 (trunc32 (readSv s f)))
    | some .ro => .next (getReadable d s)
    | some .rw => .next (getReadable d s)

/-- What an effective SETF stores in the cache (R16, D13): the canonical value, or the caller's argument where the
parameter `SV_RAW` of U8 says so. -/
def cachedValue (c : Config) (d : Field) (z : Int) : Int :=
  if c.svRaw then z else (encodeField d z).canon

/-- SETF of a field of a write-capable register (R110): the gate is tested on the shadow word; closed, the command is
dropped; open, the field is encoded, merged and sent, and `SV[f]` is stored where the register is write-only. -/
def setField (f : FieldId) (d : Field) (z : Int) (writeOnly : Bool) (s : State) : State :=
  if gateOpen d (readSh s d.reg) then
    let e := mergeAndWrite (accept s) d.reg (encodeField d z).bits (encodeField d z).mask
    let t := if writeOnly then writeSv e.state f (cachedValue s.cfg d z) else e.state
    finish t true e.st 0
  else finish (accept s) false 0 0

/-- SETF (R110), with the checks in the order of R142. -/
def execSetf (f : FieldId) (z : Word) (s : State) : Host.Outcome State Fault Refusal :=
  match fieldOf s.cfg f with
  | none => .refused (.unknownField f)
  | some d =>
    match accOf s.cfg d.reg with
    | none => .refused (.unknownRegister d.reg)
    | some .ro => .refused (.readOnlyField f)
    | some .wo => .next (setField f d (sext32 z) true s)
    | some .rw => .next (setField f d (sext32 z) false s)

end Sys2Proof.Machine
end

