-- ==== Sys2Proof/Machine/RegisterAccess.lean ====
section
/-!
DEFINITION. The whole-register commands (spec/41_register_access.md): RDREG (R83, R84) and WRREG (R82).
-/
namespace Sys2Proof.Machine

/-- RDREG: a readable register is read by one exchange, whose returned word is the result as it stands (R83, R36); a
write-only register is answered from the shadow file, with no exchange (R84); `arg` is ignored (R57). -/
def execRdreg (a : Addr) (_arg : Word) (s : State) : Host.Outcome State Fault Refusal :=
  match accOf s.cfg a with
  | none => .refused (.unknownRegister a)
  | some .wo => .next (finish (accept s) false 0 (readSh s a))
  | some .ro => let e := memRead (accept s) a; .next (finish e.state true e.st e.rw)
  | some .rw => let e := memRead (accept s) a; .next (finish e.state true e.st e.rw)

/-- WRREG (R82): the whole shadow word is overwritten and sent; no cached value is written. -/
def execWrreg (a : Addr) (v : Word) (s : State) : Host.Outcome State Fault Refusal :=
  match accOf s.cfg a with
  | none => .refused (.unknownRegister a)
  | some .ro => .refused (.readOnlyRegister a)
  | some .wo => let e := mergeAndWrite (accept s) a v (BitVec.allOnes 32); .next (finish e.state true e.st 0)
  | some .rw => let e := mergeAndWrite (accept s) a v (BitVec.allOnes 32); .next (finish e.state true e.st 0)

end Sys2Proof.Machine
end

