-- ==== Sys2Proof/Machine/Dispatch.lean ====
section
/-!
DEFINITION. The meaning of each instruction: one arm for each constructor.
-/
namespace Sys2Proof.Machine

def exec (i : Instr) (s : State) : Host.Outcome State Fault Refusal :=
  match i with
  | .rdreg a arg => Sys2Proof.Machine.execRdreg a arg s
  | .wrreg a v => Sys2Proof.Machine.execWrreg a v s
  | .getf f arg => Sys2Proof.Machine.execGetf f arg s
  | .setf f z => Sys2Proof.Machine.execSetf f z s
  | .dgramRd a d => Sys2Proof.Machine.execDgramRd a d s
  | .dgramWr a d => Sys2Proof.Machine.execDgramWr a d s

end Sys2Proof.Machine
end

