-- ==== Sys2Proof/Machine/Port.lean ====
section
/-!
DEFINITION. What a step does around an instruction: what is presented and whether the decoder accepts it (R55, R59), the idle
and the busy port (R17), reset of the block (R28, R160, R161), reset of the chip (R161, R170), an exchange that never ends
(R78, R176, U7), a frame that a reset cuts short (R160, U9), and a failure of the link (R143, R147).
-/
namespace Sys2Proof.Machine

/-- What is presented to the block, after the decoder. -/
inductive Fetched where
  | nothing
  | rejected (r : Refusal)
  | instr (i : Instr)
  deriving DecidableEq, Repr

/-- The refusal of a word that the decoder rejects (R59 (a), (b)). -/
def refusalOf : DecodeError → Refusal
  | .reservedOp op => .reservedOp op
  | .selTopBit sel => .selTopBit sel

/-- The packet presented: the datagram handed to Transport, if there is one, else the command on the port (R55). -/
def presented (s : State) : Option Packet :=
  match s.xfer with
  | some d => some (.datagram d)
  | none => (cmdPort s).map .command

/-- The packet presented, decoded. -/
def fetch (s : State) : Fetched :=
  match presented s with
  | none => .nothing
  | some p =>
    match decode p with
    | .error e => .rejected (refusalOf e)
    | .ok i => .instr i

/-- The state with the events `es` still to come: the first one was taken. -/
def afterEvent (s : State) (es : List Event) : State := { s with events := es }

/-- A step in which the port accepts nothing: `res_valid` was 1 for one cycle only (R55) and the result is forgotten (R21, R177);
nothing else of the block changes, and the chip changes what it changes on its own (R44). -/
def waiting (s : State) : State := forgetResult (chipMoves s)

/-- The exchange that took place between two states, if any. -/
def newFrame (s t : State) : Option Frame :=
  if s.wire.length < t.wire.length then t.wire.getLast? else none

/-- The block in the middle of an exchange that never ends (R78, U7): busy, the frame after `bits` bit periods; nothing else
has happened, since the merge is stored and the result presented only after the exchange (R80, R55). -/
def stalled (s : State) (bits : Nat) (f : Frame) : State :=
  { accept s with
    link := stalledLink s.link (packDatagram f.ab f.dw) (packDatagram f.st f.rw) bits }

/-- A command whose exchange, if it performs one, stalls after `bits` bit periods; `o` is what it would answer. -/
def stallOutcome (bits : Nat) (s : State) (o : Host.Outcome State Fault Refusal) : Host.Outcome State Fault Refusal :=
  match o with
  | .next t =>
    match newFrame s t with
    | none => .next t
    | some f => .next (stalled s bits f)
  | .fault r => .fault r
  | .refused r => .refused r

/-- An exchange is in progress: busy with chip-select asserted. -/
def midFrame (s : State) : Bool := s.busy && !s.link.csn

/-- What has reached the chip of the datagram in progress, once cut: the datagram sent, unless the exchange fails (R143). -/
def midDatagram (s : State) : Option Datagram := arrives s s.link.out40

/-- The chip's registers when a reset of the block cuts a frame short: a free value in the register that the datagram which
reached the chip addresses (U9). -/
def cutWords (s : State) : Memory :=
  match midDatagram s with
  | none => s.chip
  | some d => s.chip.write (d.extractLsb' 32 7) (Config.freeChipWord s.moments (d.extractLsb' 32 7))

/-- The chip when a reset of the block cuts a frame short: free values for the addressed register and for the next
returned word (U9); the failure of that exchange is over. With no frame in progress the chip is not touched (R161). -/
def chipCut (s : State) : State :=
  if midFrame s then { s with chip := cutWords s, rpl := .unspecified, disturb := none } else s

/-- Reset of the block (R28, R160, R161): shadow words zero, no cached value set, idle, chip-select deasserted, clock high, the
host's index 0. Nothing is sent. The host's list and the tables stay; a new run, so new traces, begins. -/
def blockReset (s : State) : State :=
  { chipMoves (chipCut s) with
    sh := []
    sv := []
    svDraw := s.draws + 1
    busy := false
    link := linkReset (Config.freeMosi (s.draws + 1)) (Config.freeMiso (s.draws + 1))
    resValid := false
    res := 0
    xfer := none
    ci := 0
    results := []
    wire := []
    draws := s.draws + 1 }

/-- Reset of the chip (R161, R170): its registers return to their power-on words; the block is not told. DESIGN CHOICE (log 8):
the step that takes this event is no cycle of the block, so `res_valid` stays as it was. -/
def chipReset (s : State) : State := { s with chip := s.cfg.chipPor, rpl := .unspecified }

/-- The link fails in the exchange in progress, else in the next one (R143, R147, log 19); the block is not told. As with a reset
of the chip, the step that takes this event is no cycle of the block (DESIGN CHOICE, log 8). -/
def linkDisturbed (s : State) (d : Disturbance) : State := { s with disturb := some d }

/-- The host's list with the command word `w` at index `i`. -/
def placeAt : List CommandWord → Nat → CommandWord → List CommandWord
  | [], 0, w => [w]
  | [], i + 1, w => 0 :: placeAt [] i w
  | _ :: l, 0, w => w :: l
  | x :: l, i + 1, w => x :: placeAt l i w

end Sys2Proof.Machine
end

