-- ==== Sys2Proof/Machine/Step.lean ====
section
/-!
DEFINITION. One step: the next outside event, if there is one; else the instruction presented, if the port is free.
-/
namespace Sys2Proof.Machine

/-- The port takes what is presented (R55): nothing, a word the decoder rejects, or an instruction, which is run whole. -/
def runPort (s : State) : Host.Outcome State Fault Refusal :=
  match fetch s with
  | .nothing => .next (waiting s)
  | .rejected r => .refused r
  | .instr i => exec i s

/-- One step of the system. While `busy` is 1 the port accepts nothing (R17). -/
def step (s : State) : Host.Outcome State Fault Refusal :=
  match s.events with
  | [] => if s.busy then .next (waiting s) else runPort s
  | .blockReset :: es => .next (blockReset (afterEvent s es))
  | .chipReset :: es => .next (chipReset (afterEvent s es))
  | .disturb d :: es => .next (linkDisturbed (afterEvent s es) d)
  | .stall bits :: es =>
    if s.busy then .next (waiting (afterEvent s es))
    else stallOutcome bits (afterEvent s es) (runPort (afterEvent s es))

/-- The state with the instruction presented where the next step takes it: a datagram at Transport, a command word at the
host's index, no event before it and the port free. -/
def State.withFetchWord (s : State) (nbits w : Nat) : State :=
  if nbits = 40 then { s with events := [], busy := false, xfer := some (BitVec.ofNat 40 w) }
  else { s with events := [], busy := false, xfer := none, commands := placeAt s.commands s.ci (BitVec.ofNat 48 w) }

end Sys2Proof.Machine
end

