-- ==== Sys2Proof/WellFormed.lean ====
section
/-!
DEFINITION. Well-formedness: of the pair of tables (spec/44_tables.md R120, with R4 for `CLKDIV`), as a decidable check, one
definition for each condition; and of an instruction against the tables (spec/30_encoding.md R59 (c) to (f)).
-/
namespace Sys2Proof

/-- The largest code of `w` bits, `2^w - 1` (spec/00_scope.md section 5.1, `ones`). -/
def onesInt (w : Nat) : Int := 2 ^ w - 1

/-- `z` lies in -2^31 .. 2^31-1. -/
def fits32 (z : Int) : Bool := decide (-2147483648 ≤ z ∧ z < 2147483648)

/-- R120 part 1: each address has at most one entry. -/
def RegTable.wf (t : List RegEntry) : Bool := decide (t.Pairwise (fun r q => r.addr ≠ q.addr))

/-- R120 part 2: each field id has at most one descriptor. -/
def FieldTable.idsWf (t : List Field) : Bool := decide (t.Pairwise (fun d e => d.id ≠ e.id))

/-- R120 parts 4, 5 and 6: the policy's constants fit a field of `w` bits. -/
def Policy.wf (w : Nat) : Policy → Bool
  | .clamp min max => decide (0 ≤ min ∧ min ≤ max ∧ max ≤ onesInt w)
  | .bias min max offset =>
    decide (min ≤ max ∧ 0 ≤ min + offset ∧ max + offset ≤ onesInt w) && fits32 min && fits32 max && fits32 offset
  | .quant members _ =>
    decide (members.Pairwise (fun x y => x > y)) && members.all (fun x => decide (0 ≤ x) && fits32 x) &&
      decide (1 ≤ members.length ∧ members.length ≤ 2 ^ w)

/-- R120 part 7: the gate bit is a bit of the register outside the field. -/
def Gate.wf (off width : Nat) (g : Gate) : Bool :=
  decide (g.gbit ≤ 31 ∧ (g.gbit < off ∨ off + width ≤ g.gbit))

/-- R120 parts 3 to 7, for one descriptor. -/
def Field.wf (c : Config) (d : Field) : Bool :=
  (Machine.accOf c d.reg).isSome && decide (1 ≤ d.width ∧ d.off + d.width ≤ 32) && d.policy.wf d.width &&
    (match d.gate with
    | none => true
    | some g => g.wf d.off d.width)

/-- Two fields occupy no common bit: their masks are disjoint. -/
def Field.disjoint (d e : Field) : Bool :=
  decide (d.off + d.width ≤ e.off ∨ e.off + e.width ≤ d.off)

/-- R61, R101: a mode-gated pair: the same bits, gated on the same bit with opposite values. -/
def Field.gatedPair (d e : Field) : Bool :=
  match d.gate, e.gate with
  | some g, some h => d.off == e.off && d.width == e.width && g.gbit == h.gbit && g.gval != h.gval
  | _, _ => false

/-- R120 part 8: two fields of one register are disjoint or a mode-gated pair. -/
def FieldTable.overlapsWf (t : List Field) : Bool :=
  decide (t.Pairwise (fun d e => (d.reg != e.reg || d.disjoint e || d.gatedPair e) = true))

/-- R120 whole, with `CLKDIV >= 2` (R4): the well-formed configurations. -/
def Config.wf (c : Config) : Bool :=
  RegTable.wf c.regTable && FieldTable.idsWf c.fieldTable && c.fieldTable.all (Field.wf c) &&
    FieldTable.overlapsWf c.fieldTable && decide (2 ≤ c.clkDiv)

/-- R59 (c) to (f): the instruction names a register or field that the tables hold and that it may access. Every
datagram is well-formed (R54). -/
def Instr.wf (c : Config) : Instr → Bool
  | .rdreg a _ => (Machine.accOf c a).isSome
  | .wrreg a _ => Machine.writable c a
  | .getf f _ => match Machine.fieldOf c f with
    | none => false
    | some d => (Machine.accOf c d.reg).isSome
  | .setf f _ => match Machine.fieldOf c f with
    | none => false
    | some d => Machine.writable c d.reg
  | .dgramRd _ _ => true
  | .dgramWr _ _ => true

/-- R54: the datagrams that the block itself can produce: a read of a readable register with data zero, a write to a
write-capable register. -/
def Instr.producible (c : Config) : Instr → Bool
  | .dgramRd a d => Machine.readable c a && d == 0
  | .dgramWr a _ => Machine.writable c a
  | _ => false

end Sys2Proof
end

