-- ==== Sys2Proof/Safety.lean ====
section
/-!
DEFINITION. What counts as a safe run (spec/60_exceptions.md R146: no command is refused), and the predicates that claims about
the machine use: the canonical files, who owns an entry, the idle link, the traces, and the coherency of R38.
-/
namespace Sys2Proof.Machine

/-- A run of `n` steps in which no command is refused (R146, R163 (5)). -/
def NoRefusal (n : Nat) (s : State) : Prop := ∃ t, Host.Core.run Sys2Proof.core n s = .next t

/-- The files of the state are in canonical form. -/
def CanonicalFiles (s : State) : Prop :=
  s.sh.wf = true ∧ s.chip.wf = true ∧ Memory.wf s.cfg.chipPor = true ∧ tabSorted s.sv = true

/-- R10: only write-capable registers have a shadow word that is not zero. -/
def ShadowOwned (s : State) : Prop := ∀ a, writable s.cfg a = false → readSh s a = 0

/-- R14: only fields of write-only registers have a cached value. -/
def CachedOwned (s : State) : Prop :=
  ∀ f : FieldId, (tabFind s.sv f.toNat).isSome = true →
    ∃ d, fieldOf s.cfg f = some d ∧ accOf s.cfg d.reg = some .wo

/-- R18: with no exchange in progress, chip-select is deasserted and the serial clock is high. -/
def LinkIdle (s : State) : Prop := s.busy = false → s.link.csn = true ∧ s.link.sck = true

/-- No read of a register changes register `a` of the chip (`ChipReadEffect`, R44). -/
def noReadEffectOn (c : Config) (a : Addr) : Prop := ∀ e ∈ c.readEffects, ∀ ch ∈ e.changes, ch.dst ≠ a

/-- R41: the reply word is the data of a readable register; where the chip does not change that register on its own, the word
at the end of the exchange that read it is the register's, and the word before it too, if no read changes the register. -/
def ReplyFresh (s : State) : Prop :=
  ∀ a first last, s.rpl = .dataOf a first last →
    readable s.cfg a = true ∧
      (a ∉ s.cfg.chipChanges → last = readChip s a ∧ (noReadEffectOn s.cfg a → first = last))

/-- The word of the last write datagram sent to register `a`, if any. -/
def lastWrite : List Frame → Addr → Option Word
  | [], _ => none
  | f :: fs, a =>
    match lastWrite fs a with
    | some w => some w
    | none => if f.ab = writeByte a then some f.dw else none

/-- R38 (1), (3): every shadow word is the word of the last write datagram to its register, zero where there was none. -/
def ShadowIsLastWrite (s : State) : Prop := ∀ a, readSh s a = (lastWrite s.wire a).getD 0

/-- A datagram the block may send (R31, R54): a write to a write-capable register, or a read of a readable one with data 0. -/
def Frame.producible (c : Config) (f : Frame) : Prop :=
  (∃ a, f.ab = writeByte a ∧ writable c a = true) ∨ (∃ a, f.ab = readByte a ∧ readable c a = true ∧ f.dw = 0)

/-- R31: every datagram of the wire trace is one the block may send. -/
def WireProducible (s : State) : Prop := ∀ f ∈ s.wire, f.producible s.cfg

/-- R38 (4): the chip's word of every write-capable register is the shadow word. -/
def Coherent (s : State) : Prop := ∀ a, writable s.cfg a = true → readChip s a = readSh s a

/-- R38, the premises of (4): nothing resets the chip or the block, every datagram reaches the chip intact (R143), nothing but
the block's commands writes the chip, and the chip changes no write-capable register, on its own or because of a read. -/
def CoherencyPremises (s : State) : Prop :=
  s.events = [] ∧ s.disturb = none ∧ s.xfer = none ∧
    ∀ a, writable s.cfg a = true → a ∉ s.cfg.chipChanges ∧ noReadEffectOn s.cfg a

/-- The host's commands, as against the datagrams of the wire (D3). -/
def isCommand : Instr → Bool
  | .rdreg _ _ => true
  | .wrreg _ _ => true
  | .getf _ _ => true
  | .setf _ _ => true
  | .dgramRd _ _ => false
  | .dgramWr _ _ => false

/-- The `txn` bit of a result word (R58). -/
def resTxn (r : ResultWord) : Bool := r.getLsbD 40

/-- The `st` byte of a result word (R58). -/
def resSt (r : ResultWord) : Byte := r.extractLsb' 32 8

/-- The `val` word of a result word (R58). -/
def resVal (r : ResultWord) : Word := r.extractLsb' 0 32

/-- The effective SETF commands of a list, as merges of one register's word: the fold of R112. -/
def mergeAll (w : Word) (l : List Encoded) : Word := l.foldl (fun v e => mergeWord v e.bits e.mask) w

/-- The bit that a list of merges leaves at position `p` (R112): that of the last one whose mask has it, else `start`. -/
def lastMerged (start : Bool) (p : Nat) : List Encoded → Bool
  | [] => start
  | e :: es => lastMerged (if e.mask.getLsbD p then e.bits.getLsbD p else start) p es

/-- A list of instructions run one after the other by `exec`. -/
def execAll : List Instr → State → Host.Outcome State Fault Refusal
  | [], s => .next s
  | i :: is, s =>
    match exec i s with
    | .next t => execAll is t
    | .fault r => .fault r
    | .refused r => .refused r

/-- A command has completed with the result word `{txn, st, val}` (R55, R58, R20): the result is presented and added to the
result trace, the host's index has advanced by one, and what no command writes is as it was. -/
def Completed (s t : State) (txn : Bool) (st : Byte) (val : Word) : Prop :=
  t.busy = false ∧ t.resValid = true ∧ t.res = resultWord txn st val ∧ t.results = s.results ++ [resultWord txn st val] ∧
    t.ci = s.ci + 1 ∧ t.cfg = s.cfg ∧ t.commands = s.commands ∧ t.events = s.events ∧ t.svDraw = s.svDraw ∧ t.xfer = s.xfer

/-- The result port shows nothing: `res_valid` is 0 and the block keeps no copy of the last result word or of its status byte
(R21, R177); what `res` shows is a free value of the moment alone. -/
def ResultForgotten (t : State) : Prop := t.resValid = false ∧ t.res = Config.freeResult t.moments

/-- A datagram of the wire has been exchanged outside any command: no result, the host's side is as it was. -/
def DatagramCompleted (s t : State) : Prop :=
  t.xfer = none ∧ ResultForgotten t ∧ t.busy = s.busy ∧ t.results = s.results ∧ t.ci = s.ci ∧
    t.cfg = s.cfg ∧ t.commands = s.commands ∧ t.events = s.events ∧ t.svDraw = s.svDraw

/-- Every register of the chip is as it was, but for those that the chip changes on its own (R44). -/
def ChipKept (s t : State) : Prop := ∀ a, a ∉ s.cfg.chipChanges → readChip t a = readChip s a

/-- No bit moved on the link: wire trace, pins and shifter are as they were, and the chip but for what it changes on its own. -/
def NoExchange (s t : State) : Prop :=
  t.wire = s.wire ∧ t.link = s.link ∧ ChipKept s t ∧ t.rpl = s.rpl ∧ t.status = s.status ∧ t.disturb = s.disturb ∧
    t.draws = s.draws

/-- Exactly one exchange took place, the tuple `(ab, dw, st, rw)` (R6, R70): all 40 periods are done, the shifter keeps no copy of
the bits received (R19, R21: a free value), chip-select is deasserted and the clock high; where the exchange does not fail (R143) the status byte is the
chip's. -/
def OneExchange (s t : State) (ab : Byte) (dw : Word) (st : Byte) (rw : Word) : Prop :=
  t.wire = s.wire ++ [⟨ab, dw, st, rw⟩] ∧ t.link.csn = true ∧ t.link.sck = true ∧ t.link.out40 = packDatagram ab dw ∧
    t.link.shIn = Config.freeShifter t.draws ∧ t.link.bitcnt = 40 ∧ (s.disturb = none → t.status = st) ∧ t.disturb = none ∧
    t.draws = s.draws + 1

/-- No shadow word and no cached value changed. -/
def FilesSame (s t : State) : Prop :=
  (∀ a, readSh t a = readSh s a) ∧ ∀ f, readSv t f = readSv s f

/-- A read of register `a` that does not fail (R143) leaves every register of the chip as it was, but for those that the chip
changes on its own (R44), and those that the side effect of that read changes (`ChipReadEffect`). -/
def ChipAfterRead (s t : State) (a : Addr) : Prop :=
  s.disturb = none → ∀ b, b ∉ s.cfg.chipChanges →
    (∀ e ∈ s.cfg.readEffects, e.src = a → ∀ ch ∈ e.changes, ch.dst ≠ b) → readChip t b = readChip s b

/-- A write of `w` to register `a` that does not fail (R143), latched by the chip (R40), leaves every other register as it was,
but for those that the chip changes on its own (R44). -/
def ChipAfterWrite (s t : State) (a : Addr) (w : Word) : Prop :=
  s.disturb = none → readChip t a = w ∧ ∀ b, b ≠ a → b ∉ s.cfg.chipChanges → readChip t b = readChip s b

/-- The shadow word of `a` is `w`, and every other shadow word is as it was. -/
def ShadowSet (s t : State) (a : Addr) (w : Word) : Prop :=
  readSh t a = w ∧ ∀ b, b ≠ a → readSh t b = readSh s b

/-- The encode result that an instruction merges into the shadow word of `a` as a field write: one for a SETF of a field of
`a` whose gate is open, none for anything else. -/
def mergeOf (a : Addr) (i : Instr) (s : State) : List Encoded :=
  match i with
  | .setf f z =>
    match fieldOf s.cfg f with
    | none => []
    | some d => if d.reg = a ∧ gateOpen d (readSh s a) = true then [encodeField d (sext32 z)] else []
  | .rdreg _ _ => []
  | .wrreg _ _ => []
  | .getf _ _ => []
  | .dgramRd _ _ => []
  | .dgramWr _ _ => []

/-- The encode results of the effective SETF commands to register `a` in a run of the list (R112). -/
def fieldMerges (a : Addr) : List Instr → State → List Encoded
  | [], _ => []
  | i :: is, s =>
    mergeOf a i s ++
      match exec i s with
      | .next t => fieldMerges a is t
      | .fault _ => []
      | .refused _ => []

/-- What the wire shows of a run that the block itself decides: the address byte and the data word of each exchange. -/
def sentFrames (w : List Frame) : List (Byte × Word) := w.map (fun f => (f.ab, f.dw))

end Sys2Proof.Machine
end

