-- ==== Sys2Proof/Certificates/Slice0/Obligations.lean ====
section
/-!
DEFINITION. The statements about the machine, from the numbered rules of spec/. Each docstring names the rules it rests on, and
the log entry where a clause is the model's own choice. A free value in a conclusion stands for every value.
-/
open Sys2Proof Sys2Proof.Machine

/-! ### Encoding -/

/-- R50, R51, R56, R57: for every instruction, with every operand value its encoding admits, the decoder reads back what the
encoder wrote. -/
def Obligations.DecodeEncodeAgree : Prop :=
  ∀ i : Instr, decode (encode i) = .ok i

/-- R50, R51, R56, R57, R64: each word has one meaning: what the decoder accepts is what the encoder writes for it. -/
def Obligations.EncodeDecodeAgree : Prop :=
  ∀ (p : Packet) (i : Instr), decode p = .ok i → encode i = p

/-- R59 (a), (b), R142 (1), (2), R54: a command word is rejected exactly when its `op` is none of the four, or it is RDREG or
WRREG with `sel[7] = 1`, by name and in that order; no datagram is rejected. -/
def Obligations.DecoderRejectsReserved : Prop :=
  (∀ (w : CommandWord) (e : DecodeError), decodeCommand w = .error e ↔
    ((cmdOp w ∉ [0x01, 0x02, 0x03, 0x04] ∧ e = .reservedOp (cmdOp w)) ∨
      (cmdOp w ∈ [0x01, 0x02] ∧ (cmdSel w).getLsbD 7 = true ∧ e = .selTopBit (cmdSel w)))) ∧
  ∀ d : Datagram, ∃ i, decode (.datagram d) = .ok i

/-- R56, R51: words written out from the tables of the spec decode to the instructions they stand for. -/
def Obligations.SampleWordsDecode : Prop :=
  decodeTableWord 48 0x016F00000000 = some (.rdreg 0x6F 0) ∧
  decodeTableWord 48 0x026C000100C3 = some (.wrreg 0x6C 0x000100C3) ∧
  decodeTableWord 48 0x034100000000 = some (.getf 0x41 0) ∧
  decodeTableWord 48 0x041D0000001F = some (.setf 0x1D 31) ∧
  decodeTableWord 40 0x6F00000000 = some (.dgramRd 0x6F 0) ∧
  decodeTableWord 40 0xEC040100C3 = some (.dgramWr 0x6C 0x040100C3)

/-- R33, R50: the five bytes of a datagram are the address byte, then the data word most significant byte first, and five
bytes received put together in that order are the datagram. -/
def Obligations.WireByteOrder : Prop :=
  ∀ (ab : Byte) (dw : Word),
    wireBytes (packDatagram ab dw) =
      [ab, dw.extractLsb' 24 8, dw.extractLsb' 16 8, dw.extractLsb' 8 8, dw.extractLsb' 0 8] ∧
    ofWireBytes (wireBytes (packDatagram ab dw)) = some (packDatagram ab dw)

/-! ### The step and the port -/

/-- R55, R20: with no outside event pending and the port free, a step is `exec` of the instruction that the presented packet
decodes to, and nothing around it. That packet is the host's command at `ci`; that a datagram standing at Transport is run
too, and before any command, is the model's choice (log 2). -/
def Obligations.StepRunsDecodedInstruction : Prop :=
  ∀ (s : State) (p : Packet) (i : Instr), s.events = [] → s.busy = false →
    ((∃ d, s.xfer = some d ∧ p = .datagram d) ∨
      (s.xfer = none ∧ ∃ w, s.commands[s.ci]? = some w ∧ p = .command w)) →
    decode p = .ok i → step s = exec i s

/-- R59 (a), (b), R146: a presented command word that the decoder rejects is refused by name; nothing else happens. -/
def Obligations.StepRefusesReservedWord : Prop :=
  ∀ (s : State) (w : CommandWord), s.events = [] → s.busy = false → s.xfer = none → s.commands[s.ci]? = some w →
    (∀ op, decodeCommand w = .error (.reservedOp op) → step s = .refused (.reservedOp op)) ∧
    (∀ sel, decodeCommand w = .error (.selTopBit sel) → step s = .refused (.selTopBit sel))

/-- R17, R78, U7, R20, R55, R21, R177: while `busy` is 1 a step accepts nothing, and `busy` stays 1; when the port is free, the
list is exhausted and nothing is at Transport, the block waits. In both cases no state of the block changes but the result port, which
has forgotten the last result word and its status byte (`res_valid` is 0, `res` a free value, log 18), and none of the chip but
what it changes on its own (R44). -/
def Obligations.PortWaits : Prop :=
  (∀ s : State, s.events = [] → s.busy = true →
    ∃ t, step s = .next t ∧ t = { s with resValid := false, res := t.res, chip := t.chip, moments := t.moments } ∧
      ResultForgotten t ∧ ChipKept s t ∧ t.busy = true ∧ cmdReady t = false) ∧
  ∀ s : State, s.events = [] → s.xfer = none → s.commands.length ≤ s.ci →
    ∃ t, step s = .next t ∧ t = { s with resValid := false, res := t.res, chip := t.chip, moments := t.moments } ∧
      ResultForgotten t ∧ ChipKept s t

/-- R4, R77: no step changes the configuration. 10_state.md section 1 and R20 (the command list is a parameter of a run): no
step changes the host's command list; that a reset of the block keeps it too is the model's choice (log 1). -/
def Obligations.ConfigurationIsConstant : Prop :=
  ∀ s t : State, step s = .next t → t.cfg = s.cfg ∧ t.commands = s.commands

/-! ### Reset and outside events -/

/-- R28, R11, R162: what reset leaves, as far as the spec gives values; the host's list is empty (log 1). -/
def Obligations.ResetState : Prop :=
  (∀ a, readSh State.reset a = 0) ∧ State.reset.busy = false ∧ cmdReady State.reset = true ∧
    State.reset.link.csn = true ∧ State.reset.link.sck = true ∧ State.reset.resValid = false ∧ State.reset.ci = 0 ∧
    (∀ a, readChip State.reset a = 0) ∧ State.reset.wire = [] ∧ State.reset.results = []

/-- R28, R160, R161, R162: a reset of the block puts every piece of block state at its reset value, in every state; it sends
nothing, and with no exchange in progress it does not touch the chip, whose registers are as they were but for those that it
changes on its own (R44). That the traces begin anew is log 6, that the host's list stays is log 1. -/
def Obligations.BlockResetRestoresResetValues : Prop :=
  ∀ (s : State) (es : List Event), s.events = .blockReset :: es →
    ∃ t, step s = .next t ∧ (∀ a, readSh t a = 0) ∧ (∀ f, readSv t f = (Config.freeCached (s.draws + 1) f).toInt) ∧
      t.busy = false ∧ cmdReady t = true ∧ t.link.csn = true ∧ t.link.sck = true ∧ t.resValid = false ∧ t.ci = 0 ∧
      t.wire = [] ∧ t.results = [] ∧ t.commands = s.commands ∧ t.cfg = s.cfg ∧ t.events = es ∧
      (s.busy = false ∨ s.link.csn = true →
        ChipKept s t ∧ t.rpl = s.rpl ∧ t.status = s.status ∧ t.disturb = s.disturb)

/-- R160, U9 (log 8): a reset of the block in the middle of an exchange deasserts chip-select; of the chip's registers it
leaves all as they were but the one addressed by the datagram that reached the chip (the datagram in progress, unless the
exchange fails, log 19) and those that the chip changes on its own (R44). -/
def Obligations.BlockResetCutsFrameShort : Prop :=
  ∀ (s : State) (es : List Event), s.events = .blockReset :: es → s.busy = true → s.link.csn = false →
    (s.disturb = none → midDatagram s = some s.link.out40) ∧
    ∃ t, step s = .next t ∧ t.busy = false ∧ t.link.csn = true ∧ t.rpl = .unspecified ∧ t.disturb = none ∧
      ∀ b, b ∉ s.cfg.chipChanges → (∀ d, midDatagram s = some d → b ≠ d.extractLsb' 32 7) → readChip t b = readChip s b

/-- R161, R170: a reset of the chip returns its registers to their power-on words; the block is not told, so every shadow word
and cached value, the traces and the pins are as they were. That the reply word is then open, and that the step is no cycle of
the block, which leaves `res_valid` as it was, is log 8. -/
def Obligations.ChipResetLeavesTheBlock : Prop :=
  ∀ (s : State) (es : List Event), s.events = .chipReset :: es →
    ∃ t, step s = .next t ∧ (∀ a, readChip t a = Memory.read s.cfg.chipPor a) ∧ t.rpl = .unspecified ∧ FilesSame s t ∧
      t.wire = s.wire ∧ t.results = s.results ∧ t.ci = s.ci ∧ t.link = s.link ∧ t.busy = s.busy ∧ t.resValid = s.resValid ∧
      t.events = es

/-- R78, R176, U7 (log 8): a command whose exchange never ends leaves the block busy with chip-select asserted, and nothing
else has happened: no result, no shadow word, no cached value, no entry of the wire trace, no effect on the chip, which changes
only what it changes on its own (R44). -/
def Obligations.StalledExchangeHangs : Prop :=
  ∀ (s : State) (bits : Nat) (es : List Event) (i : Instr) (u : State),
    s.events = .stall bits :: es → s.busy = false → fetch s = .instr i →
    exec i (afterEvent s es) = .next u → u.wire ≠ s.wire →
    ∃ t, step s = .next t ∧ t.busy = true ∧ t.link.csn = false ∧ ResultForgotten t ∧ FilesSame s t ∧ t.wire = s.wire ∧
      t.results = s.results ∧ t.ci = s.ci ∧ ChipKept s t ∧ t.rpl = s.rpl ∧ t.disturb = s.disturb ∧ t.events = es

/-! ### The exchange, at the pins and on the wire -/

/-- R76, R71, R79: the pin process of one frame on its four wires, for every datagram out, every 40 bits in and whatever the
shifter held: what stands on `mosi` at the rising edges of `sck` is the outgoing datagram, and what stands on `miso` there are
the 40 bits the chip drives, both most significant bit first, in the same bit periods; the shifter ends with those 40 bits; all
40 periods are done; chip-select is low in every segment of the frame and high after it; the clock ends high. Bit order and
polarity are the spec's D21 and D22 (log 12). -/
def Obligations.PinProcessMovesFortyBits : Prop :=
  ∀ (c : Config) (l : Link) (out40 in40 : Datagram) (mosi miso : Bool),
    sampledMosi (frameWave c l out40 in40) = bitsMsbFirst out40 ∧
    sampledMiso (frameWave c l out40 in40) = bitsMsbFirst in40 ∧
    (frameLink l out40 in40 mosi miso).shIn = in40 ∧ (frameLink l out40 in40 mosi miso).bitcnt = 40 ∧
    (∀ x ∈ frameWave c l out40 in40, x.csn = false) ∧
    (frameLink l out40 in40 mosi miso).csn = true ∧ (frameLink l out40 in40 mosi miso).sck = true

/-- R180: an exchange lasts `T_CSS + 40 * CLKDIV + T_CSH` block clock periods. -/
def Obligations.ExchangeLength : Prop :=
  ∀ (c : Config) (l : Link) (out40 in40 : Datagram),
    waveLength (frameWave c l out40 in40) = c.tCss + 40 * c.clkDiv + c.tCsh

/-- R70, R71, R76: `Exchange(ab, dw)` for every address byte and data word, none of them checked: the address byte, then the
four data bytes, most significant first, go out in one chip-select frame, `csn` low from its first segment to its last; the
status byte and the returned word are the first 8 and the last 32 of the 40 bits that stand on `miso`, which are those that the
chip drives where the exchange does not fail (log 19); the shifter ends the frame with them, and keeps no copy after
it (R19, R21); the tuple is appended to the wire trace; nothing else of the block changes.
The order of the bits and the levels of `csn` and `sck` are D21 and D22 (log 12). -/
def Obligations.ExchangeIsOneFrame : Prop :=
  ∀ (s : State) (ab : Byte) (dw : Word),
    let e := exchange s ab dw
    wireBytes (packDatagram ab dw) =
      [ab, dw.extractLsb' 24 8, dw.extractLsb' 16 8, dw.extractLsb' 8 8, dw.extractLsb' 0 8] ∧
    sampledMosi (frameWave s.cfg s.link (packDatagram ab dw) (inbound s ab dw)) = bitsMsbFirst (packDatagram ab dw) ∧
    (∀ x ∈ frameWave s.cfg s.link (packDatagram ab dw) (inbound s ab dw), x.csn = false) ∧
    (s.disturb = none → inbound s ab dw = driven s (packDatagram ab dw)) ∧
    e.st = (inbound s ab dw).extractLsb' 32 8 ∧ e.rw = (inbound s ab dw).extractLsb' 0 32 ∧
    (∀ mosi miso, (frameLink s.link (packDatagram ab dw) (inbound s ab dw) mosi miso).shIn = packDatagram e.st e.rw) ∧
    OneExchange s e.state ab dw e.st e.rw ∧ e.state.sh = s.sh ∧ e.state.sv = s.sv ∧ e.state.svDraw = s.svDraw ∧
    e.state.cfg = s.cfg ∧ e.state.busy = s.busy ∧ e.state.resValid = s.resValid ∧ e.state.res = s.res ∧
    e.state.xfer = s.xfer ∧ e.state.commands = s.commands ∧ e.state.ci = s.ci ∧ e.state.results = s.results ∧
    e.state.events = s.events

/-! ### The merge -/

/-- R80: MergeAndWrite computes the merged word, sends it whole in one write datagram, stores it whatever the status byte is,
and returns the status byte; no other shadow word and no cached value changes; a full mask makes the word `nb`, a zero mask
the old shadow. -/
def Obligations.MergeAndWriteSendsAndStores : Prop :=
  ∀ (s : State) (a : Addr) (nb m : Word),
    let new := (readSh s a &&& ~~~m) ||| (nb &&& m)
    let e := mergeAndWrite s a nb m
    OneExchange s e.state (writeByte a) new e.st e.rw ∧ ShadowSet s e.state a new ∧
    (∀ f, readSv e.state f = readSv s f) ∧ (m = BitVec.allOnes 32 → new = nb) ∧ (m = 0 → new = readSh s a) ∧
    e.state.busy = s.busy ∧ e.state.ci = s.ci ∧ e.state.results = s.results ∧ e.state.res = s.res

/-! ### The chip -/

/-- R36, R41: if an exchange read the readable register `a`, the next exchange, whatever it addresses, returns the data of `a`,
for a register that the chip does not change on its own and an exchange that does not fail: a word that `a` held before the read's
side effect, at the end of that exchange, or at the end of the next one; so `a`'s one word where no read changes it and the next
exchange does not write it. -/
def Obligations.ReadDataComesOneExchangeLate : Prop :=
  ∀ (s : State) (a : Addr) (d dw : Word) (ab : Byte), s.disturb = none → readable s.cfg a = true → a ∉ s.cfg.chipChanges →
    let t := (exchange s (readByte a) d).state
    let e := exchange t ab dw
    e.rw ∈ [readChip s a, readChip t a, readChip e.state a] ∧
    (noReadEffectOn s.cfg a → ab ≠ writeByte a → e.rw = readChip s a)

/-- R42, R44: where the previous exchange was a write or read no readable register, and in the first exchange after reset, the
returned word is a free value; and so is that of a read of a register that the chip changes on its own (R44; which registers
those are is log 11). Both exchanges reach the chip and the block intact. -/
def Obligations.OtherReturnedWordsAreFree : Prop :=
  (∀ (s : State) (a b : Addr) (d dw : Word) (ab : Byte), s.disturb = none →
    (exchange (exchange s (writeByte a) d).state ab dw).rw = Config.freeReply (s.draws + 1) ∧
    (readable s.cfg b = false →
      (exchange (exchange s (readByte b) d).state ab dw).rw = Config.freeReply (s.draws + 1))) ∧
  (∀ (ab : Byte) (dw : Word), (exchange State.reset ab dw).rw = Config.freeReply 0) ∧
  ∀ (s : State) (a : Addr) (d dw : Word) (ab : Byte), s.disturb = none → readable s.cfg a = true → a ∈ s.cfg.chipChanges →
    (exchange (exchange s (readByte a) d).state ab dw).rw = Config.freeReply (s.draws + 1)

/-! ### The codec -/

/-- R91, R90: CLAMP. The canonical value is the value saturated to `[min, max]`, the code is the canonical value, the bits are
the code shifted into place and the mask is that of the field. -/
def Obligations.EncodeClamp : Prop :=
  ∀ (d : Field) (z min max : Int), d.policy = .clamp min max → d.policy.wf d.width = true →
    (encodeField d z).canon = clampInt z min max ∧ (policyCode d.policy z : Int) = clampInt z min max ∧
    (encodeField d z).bits = BitVec.ofInt 32 (clampInt z min max) <<< d.off ∧
    (encodeField d z).mask = BitVec.ofNat 32 (2 ^ d.width - 1) <<< d.off ∧
    (z < min → (encodeField d z).canon = min) ∧ (max < z → (encodeField d z).canon = max) ∧
    (z < 0 → (encodeField d z).canon = min) ∧ (min ≤ z → z ≤ max → (encodeField d z).canon = z)

/-- R92, R90: BIAS. The value is clamped first, then the bias is added; the bits are that code shifted into place; decode
subtracts the bias. With a bias of zero it is CLAMP. That decode does so for every word, with no clamp, also for a code outside
the legal range, is R98 with the spec's decision D36 (log 17). -/
def Obligations.EncodeBias : Prop :=
  ∀ (d : Field) (z min max offset : Int), d.policy = .bias min max offset → d.policy.wf d.width = true →
    (encodeField d z).canon = clampInt z min max ∧ (policyCode d.policy z : Int) = clampInt z min max + offset ∧
    (encodeField d z).bits = BitVec.ofInt 32 (clampInt z min max + offset) <<< d.off ∧
    (encodeField d z).mask = BitVec.ofNat 32 (2 ^ d.width - 1) <<< d.off ∧
    (z < min → (encodeField d z).canon = min) ∧ (max < z → (encodeField d z).canon = max) ∧
    (min ≤ z → z ≤ max → (encodeField d z).canon = z) ∧
    (∀ (w : Word) (free : Int), decodeField d w free = fieldCode d w - offset) ∧
    (offset = 0 → encodeField { d with policy := .clamp min max } z = encodeField d z)

/-- R93, R94, R90: QUANT. The index, and not the value, is packed: rounding down, the least index whose member is not above
`z`, else the last; rounding up, the greatest index whose member is not below `z`, else the first; the canonical value is the
member at that index. That values beyond the ends take the end member is the spec's decision D17. -/
def Obligations.QuantizedCodeIsTheIndex : Prop :=
  ∀ (d : Field) (z : Int) (l : List Int) (dir : Dir), d.policy = .quant l dir → d.policy.wf d.width = true →
    ∃ i, i < l.length ∧ policyCode d.policy z = i ∧ (encodeField d z).canon = l.getD i 0 ∧
      (encodeField d z).bits = BitVec.ofNat 32 i <<< d.off ∧
      (dir = .down →
        ((∃ x ∈ l, x ≤ z) → l.getD i 0 ≤ z ∧ ∀ j, j < i → z < l.getD j 0) ∧
        ((∀ x ∈ l, z < x) → i = l.length - 1)) ∧
      (dir = .up →
        ((∃ x ∈ l, z ≤ x) → z ≤ l.getD i 0 ∧ ∀ j, i < j → j < l.length → l.getD j 0 < z) ∧
        ((∀ x ∈ l, x < z) → i = 0))

/-- R96: for a well-formed descriptor and every integer, `Encode` returns a code that fits the field, so the bits are inside the
mask and a merge changes no bit outside the field. -/
def Obligations.EncodeFitsTheField : Prop :=
  ∀ (c : Config) (d : Field) (z : Int), d.wf c = true →
    policyCode d.policy z < 2 ^ d.width ∧ (encodeField d z).bits &&& ~~~(encodeField d z).mask = 0 ∧
    ∀ (w : Word) (i : Nat), i < d.off ∨ d.off + d.width ≤ i →
      (mergeWord w (encodeField d z).bits (encodeField d z).mask).getLsbD i = w.getLsbD i

/-- R103: decode of encode is the clamp, for every value; for BIAS the value itself, in the legal range. -/
def Obligations.ClampLaw : Prop :=
  ∀ (c : Config) (d : Field) (z free min max : Int), d.wf c = true →
    (d.policy = .clamp min max ∨ ∃ offset, d.policy = .bias min max offset) →
    decodeField d (encodeField d z).bits free = clampInt z min max ∧
    (encodeField d z).canon = clampInt z min max ∧
    (min ≤ z → z ≤ max → decodeField d (encodeField d z).bits free = z)

/-- R104: decode of encode is the canonical value; it is a member, the value itself where that is a member, and else the
neighbour in the field's direction or the end member. -/
def Obligations.QuantizationLaw : Prop :=
  ∀ (c : Config) (d : Field) (z free : Int) (l : List Int) (dir : Dir), d.wf c = true → d.policy = .quant l dir →
    let x := (encodeField d z).canon
    decodeField d (encodeField d z).bits free = x ∧ x ∈ l ∧ (z ∈ l → x = z) ∧
    (dir = .down → (∃ y ∈ l, y ≤ z) → x ≤ z ∧ ∀ y ∈ l, y ≤ z → y ≤ x) ∧
    (dir = .down → (∀ y ∈ l, z < y) → ∀ y ∈ l, x ≤ y) ∧
    (dir = .up → (∃ y ∈ l, z ≤ y) → z ≤ x ∧ ∀ y ∈ l, z ≤ y → x ≤ y) ∧
    (dir = .up → (∀ y ∈ l, y < z) → ∀ y ∈ l, y ≤ x)

/-- R105: encoding the canonical value again gives the same; the bits stay inside the mask; decode depends on the field's bits
only; and a merge of one field leaves the decode of a disjoint field of the word unchanged. -/
def Obligations.CodecIdempotentAndLocal : Prop :=
  ∀ (c : Config) (d e : Field) (z free : Int) (w v : Word), d.wf c = true → e.wf c = true →
    encodeField d (encodeField d z).canon = encodeField d z ∧
    (encodeField d z).bits &&& ~~~(encodeField d z).mask = 0 ∧
    (w &&& fieldMask d.off d.width = v &&& fieldMask d.off d.width → decodeField d w free = decodeField d v free) ∧
    (d.disjoint e = true →
      decodeField e (mergeWord w (encodeField d z).bits (encodeField d z).mask) free = decodeField e w free)

/-- R97, R98, R99: decode takes the code from the field's bits and nothing else; CLAMP returns it, BIAS subtracts the bias
with no clamp, QUANT returns the member, and a free value where there is none. -/
def Obligations.DecodeByPolicy : Prop :=
  ∀ (d : Field) (w : Word) (free : Int), 1 ≤ d.width → d.off + d.width ≤ 32 →
    (∀ i, (fieldCode d w).testBit i = (decide (i < d.width) && w.getLsbD (d.off + i))) ∧
    (∀ min max, d.policy = .clamp min max → decodeField d w free = fieldCode d w) ∧
    (∀ min max offset, d.policy = .bias min max offset → decodeField d w free = fieldCode d w - offset) ∧
    (∀ l dir, d.policy = .quant l dir →
      (fieldCode d w < l.length → decodeField d w free = l.getD (fieldCode d w) 0) ∧
      (l.length ≤ fieldCode d w → decodeField d w free = free))

/-! ### The commands -/

/-- R83 (with R57, R75): RDREG of a readable register is one read datagram with data zero, and the result is the status byte
and the returned word of that exchange; no shadow word, no cached value changes. -/
def Obligations.RdregReadable : Prop :=
  ∀ (s : State) (a : Addr) (x : Word), readable s.cfg a = true →
    ∃ t st rw, exec (.rdreg a x) s = .next t ∧ OneExchange s t (readByte a) 0 st rw ∧ Completed s t true st rw ∧
      FilesSame s t ∧ ChipAfterRead s t a

/-- R84: RDREG of a write-only register returns its shadow word, with no exchange; no state of the block changes, and of the chip
only what it changes on its own (R44). -/
def Obligations.RdregWriteOnly : Prop :=
  ∀ (s : State) (a : Addr) (x : Word), accOf s.cfg a = some .wo →
    ∃ t, exec (.rdreg a x) s = .next t ∧ NoExchange s t ∧ Completed s t false 0 (readSh s a) ∧ FilesSame s t

/-- R82: WRREG to a write-capable register sends `v` as it stands in one write datagram, stores it as the shadow word, and
returns the status byte; no cached value and no other shadow word changes. -/
def Obligations.WrregWritesWholeWord : Prop :=
  ∀ (s : State) (a : Addr) (v : Word), writable s.cfg a = true →
    ∃ t st rw, exec (.wrreg a v) s = .next t ∧ OneExchange s t (writeByte a) v st rw ∧ Completed s t true st 0 ∧
      ShadowSet s t a v ∧ (∀ f, readSv t f = readSv s f) ∧ ChipAfterWrite s t a v

/-- R111, R97: GETF of a field of a readable register is one read datagram; the result is the decoded returned word of that
same exchange (an index without a member is a free value, R99). -/
def Obligations.GetfReadable : Prop :=
  ∀ (s : State) (f : FieldId) (x : Word) (d : Field), fieldOf s.cfg f = some d → readable s.cfg d.reg = true →
    ∃ t st rw, exec (.getf f x) s = .next t ∧ OneExchange s t (readByte d.reg) 0 st rw ∧
      Completed s t true st (trunc32 (decodeField d rw (Config.freeDecode s.draws).toInt)) ∧
      FilesSame s t ∧ ChipAfterRead s t d.reg

/-- R111, R15: GETF of a field of a write-only register returns the cached value (a free value before the first effective
SETF), with no exchange; no state of the block changes, and of the chip only what it changes on its own (R44). -/
def Obligations.GetfWriteOnly : Prop :=
  ∀ (s : State) (f : FieldId) (x : Word) (d : Field), fieldOf s.cfg f = some d → accOf s.cfg d.reg = some .wo →
    ∃ t, exec (.getf f x) s = .next t ∧ NoExchange s t ∧ Completed s t false 0 (trunc32 (readSv s f)) ∧ FilesSame s t

/-- R110, R80, R16: SETF with the gate open merges the encoded field into the shadow word, sends the whole merged word in one
write datagram, stores it, and returns the status byte; the cached value becomes the canonical one where the register is
write-only (the caller's, where the parameter of U8 says so) and no other cached value changes. -/
def Obligations.SetfEffective : Prop :=
  ∀ (s : State) (f : FieldId) (z : Word) (d : Field), fieldOf s.cfg f = some d → writable s.cfg d.reg = true →
    gateOpen d (readSh s d.reg) = true →
    ∃ t st rw w, exec (.setf f z) s = .next t ∧
      w = (readSh s d.reg &&& ~~~(encodeField d z.toInt).mask) |||
        ((encodeField d z.toInt).bits &&& (encodeField d z.toInt).mask) ∧
      OneExchange s t (writeByte d.reg) w st rw ∧ Completed s t true st 0 ∧ ShadowSet s t d.reg w ∧
      ChipAfterWrite s t d.reg w ∧ (∀ g, g ≠ f → readSv t g = readSv s g) ∧
      (accOf s.cfg d.reg = some .wo → readSv t f = if s.cfg.svRaw then z.toInt else (encodeField d z.toInt).canon) ∧
      (accOf s.cfg d.reg = some .rw → readSv t f = readSv s f)

/-- R110, R101: SETF with the gate closed completes without an exchange and changes nothing, whatever the value; of the chip only
what it changes on its own changes (R44). -/
def Obligations.SetfDroppedByClosedGate : Prop :=
  ∀ (s : State) (f : FieldId) (z : Word) (d : Field), fieldOf s.cfg f = some d → writable s.cfg d.reg = true →
    gateOpen d (readSh s d.reg) = false →
    ∃ t, exec (.setf f z) s = .next t ∧ NoExchange s t ∧ Completed s t false 0 0 ∧ FilesSame s t

/-- R100: a field without a gate is always set; a gated one is set exactly while the gate bit of the shadow word of its own
register, as it stands before the command, has the required value. -/
def Obligations.GateFollowsShadowBit : Prop :=
  ∀ (s t : State) (f : FieldId) (z : Word) (d : Field), fieldOf s.cfg f = some d → exec (.setf f z) s = .next t →
    (d.gate = none → gateOpen d (readSh s d.reg) = true ∧ t.wire ≠ s.wire) ∧
    (∀ g, d.gate = some g →
      (gateOpen d (readSh s d.reg) = true ↔ (readSh s d.reg).getLsbD g.gbit = g.gval) ∧
      (t.wire ≠ s.wire ↔ (readSh s d.reg).getLsbD g.gbit = g.gval))

/-- R75, R70, R52: the read datagram of the wire is one exchange with the write flag 0, for every address and data. The port it
is presented on is log 2; the result port shows nothing (log 18); that data which are not zero and an address which is
not readable change nothing of what the chip does to its registers is log 14. -/
def Obligations.DgramRdExchanges : Prop :=
  ∀ (s : State) (a : Addr) (d : Word),
    ∃ t st rw, exec (.dgramRd a d) s = .next t ∧ OneExchange s t (readByte a) d st rw ∧ DatagramCompleted s t ∧
      FilesSame s t ∧ ChipAfterRead s t a

/-- R75, R70, R40: the write datagram of the wire is one exchange with the write flag 1, for every address and data; where it
does not fail the chip latches the word in a write-capable register, and no other register changes but those that the chip
changes on its own (R44); no shadow word changes. The port it is presented on is log 2; the result port shows nothing (log 18);
that a write to a read-only or unmapped address leaves every other register alone is log 14. -/
def Obligations.DgramWrExchanges : Prop :=
  ∀ (s : State) (a : Addr) (d : Word),
    ∃ t st rw, exec (.dgramWr a d) s = .next t ∧ OneExchange s t (writeByte a) d st rw ∧ DatagramCompleted s t ∧
      FilesSame s t ∧
      (s.disturb = none → (writable s.cfg a = true → readChip t a = d) ∧
        ∀ b, b ≠ a → b ∉ s.cfg.chipChanges → readChip t b = readChip s b)

/-- R59 (c) to (f), R142 (3), (4), R146: an instruction is refused exactly when the tables do not hold what it names or its
access kind forbids it, each by its own name. -/
def Obligations.RefusesExactlyTheIllFormed : Prop :=
  ∀ s : State,
    (∀ i : Instr, (∃ t, exec i s = .next t) ↔ i.wf s.cfg = true) ∧
    (∀ a x, accOf s.cfg a = none →
      exec (.rdreg a x) s = .refused (.unknownRegister a) ∧ exec (.wrreg a x) s = .refused (.unknownRegister a)) ∧
    (∀ a x, accOf s.cfg a = some .ro → exec (.wrreg a x) s = .refused (.readOnlyRegister a)) ∧
    (∀ f x, fieldOf s.cfg f = none →
      exec (.getf f x) s = .refused (.unknownField f) ∧ exec (.setf f x) s = .refused (.unknownField f)) ∧
    (∀ f x d, fieldOf s.cfg f = some d → accOf s.cfg d.reg = some .ro →
      exec (.setf f x) s = .refused (.readOnlyField f))

/-- R5, R58, R37: a command that is not refused has either one exchange, `txn = 1` and its status byte, or none, `txn = 0`
and the filler 0; none exactly for a getter of a write-only field, RDREG of a write-only register and a setter whose gate
is closed. -/
def Obligations.AtMostOneExchange : Prop :=
  ∀ (s t : State) (i : Instr), isCommand i = true → exec i s = .next t →
    ((∃ f, t.wire = s.wire ++ [f] ∧ resTxn t.res = true ∧ resSt t.res = f.st) ∨
      (t.wire = s.wire ∧ resTxn t.res = false ∧ resSt t.res = 0)) ∧
    (t.wire = s.wire ↔
      (∃ a x, i = .rdreg a x ∧ accOf s.cfg a = some .wo) ∨
      (∃ f x d, i = .getf f x ∧ fieldOf s.cfg f = some d ∧ accOf s.cfg d.reg = some .wo) ∨
      (∃ f z d, i = .setf f z ∧ fieldOf s.cfg f = some d ∧ gateOpen d (readSh s d.reg) = false))

/-- R20, R58: each completed command advances `ci` by one and adds the presented result word to the result trace; a datagram
of the wire does neither. -/
def Obligations.CommandIndexAdvances : Prop :=
  ∀ (s t : State) (i : Instr), exec i s = .next t →
    (isCommand i = true → t.ci = s.ci + 1 ∧ t.results = s.results ++ [t.res] ∧ t.resValid = true ∧ t.busy = false) ∧
    (isCommand i = false → t.ci = s.ci ∧ t.results = s.results ∧ t.resValid = false)

/-! ### Frames and the hazards -/

/-- R12: a shadow word changes only by a WRREG to its register, or by a SETF of a field of its register whose gate is open. -/
def Obligations.OnlyMergesWriteShadow : Prop :=
  ∀ (s t : State) (i : Instr) (a : Addr), exec i s = .next t → readSh t a ≠ readSh s a →
    (∃ v, i = .wrreg a v) ∨
      ∃ f z d, i = .setf f z ∧ fieldOf s.cfg f = some d ∧ d.reg = a ∧ gateOpen d (readSh s a) = true

/-- R16: a cached value changes only by a SETF of its field that takes effect, and of a write-only register. -/
def Obligations.OnlyEffectiveSetfWritesCache : Prop :=
  ∀ (s t : State) (i : Instr) (f : FieldId), exec i s = .next t → readSv t f ≠ readSv s f →
    ∃ z d, i = .setf f z ∧ fieldOf s.cfg f = some d ∧ accOf s.cfg d.reg = some .wo ∧
      gateOpen d (readSh s d.reg) = true

/-- R166, R36, R63, R167: after RDREG of the readable register `a`, a second RDREG of `a` returns the register's data, and a GETF
of any field of a readable register decodes the data of `a` with that field's descriptor; for a register that the chip does
not change and exchanges that do not fail. -/
def Obligations.PrimedReadReturnsData : Prop :=
  ∀ (s : State) (a : Addr) (x y : Word), s.disturb = none → readable s.cfg a = true → a ∉ s.cfg.chipChanges →
    noReadEffectOn s.cfg a →
    (∃ t u, exec (.rdreg a x) s = .next t ∧ exec (.rdreg a y) t = .next u ∧ resTxn u.res = true ∧
      resVal u.res = readChip s a) ∧
    ∀ (f : FieldId) (d : Field), fieldOf s.cfg f = some d → readable s.cfg d.reg = true →
      ∃ t u, exec (.rdreg a x) s = .next t ∧ exec (.getf f y) t = .next u ∧ resTxn u.res = true ∧
        resVal u.res = trunc32 (decodeField d (readChip s a) (Config.freeDecode (s.draws + 1)).toInt)

/-- R167, R42: a write between the two reads breaks the pair: the next read returns a free value. -/
def Obligations.WriteBreaksThePair : Prop :=
  ∀ (s : State) (a b : Addr) (x y v : Word), readable s.cfg a = true → writable s.cfg b = true →
    ∃ t u r, exec (.rdreg a x) s = .next t ∧ exec (.wrreg b v) t = .next u ∧ exec (.rdreg a y) u = .next r ∧
      resVal r.res = Config.freeReply (s.draws + 2)

/-- R101: of a mode-gated pair exactly one gate is open in any word, so one of the two setters is dropped. -/
def Obligations.GatedPairHasOneOpenGate : Prop :=
  ∀ (d e : Field) (w : Word), d.gatedPair e = true → gateOpen d w = !gateOpen e w

/-- R74, R148, R175: what the block stores and sends does not depend on the chip: two states that agree on the configuration
and the block's files, whatever the chip, the link's failures, the pins, the draws and the traces are, store the
same files and send the same address byte and word. -/
def Obligations.BlockIgnoresTheChip : Prop :=
  ∀ (s s' t : State) (i : Instr), s'.cfg = s.cfg → s'.sh = s.sh → s'.sv = s.sv → exec i s = .next t →
    ∃ t', exec i s' = .next t' ∧ t'.sh = t.sh ∧ t'.sv = t.sv ∧
      ∃ l, sentFrames t.wire = sentFrames s.wire ++ l ∧ sentFrames t'.wire = sentFrames s'.wire ++ l

/-! ### Invariants that every step keeps -/

/-- The files of the state are canonical after every step (the model's form of R10, R14, R30; log 7). -/
def Obligations.StepKeepsCanonicalFiles : Prop :=
  ∀ s t : State, CanonicalFiles s → step s = .next t → CanonicalFiles t

/-- R10, R14: only write-capable registers have a shadow word, only fields of write-only registers a cached value. -/
def Obligations.StepKeepsOwnership : Prop :=
  ∀ s t : State, ShadowOwned s → CachedOwned s → step s = .next t → ShadowOwned t ∧ CachedOwned t

/-- R18, R71: with no exchange in progress chip-select is deasserted and the serial clock is high. -/
def Obligations.StepKeepsLinkIdle : Prop :=
  ∀ s t : State, LinkIdle s → step s = .next t → LinkIdle t

/-- R41, R26: the reply word is the data of a readable register; where the chip does not change that register on its own, the
word at the end of the exchange that read it is what the chip holds, and the word before it too where no read changes it. -/
def Obligations.StepKeepsReplyFresh : Prop :=
  ∀ s t : State, ReplyFresh s → step s = .next t → ReplyFresh t

/-- R31, R54: the block sends no datagram but a write to a write-capable register and a read, with data zero, of a readable
one, as long as no raw datagram is handed to Transport (log 2). -/
def Obligations.StepKeepsWireProducible : Prop :=
  ∀ s t : State, s.xfer = none → WireProducible s → step s = .next t → t.xfer = none ∧ WireProducible t

/-- R38 (1) to (3): every shadow word is the word of the last write datagram sent to its register, zero before the first, as long
as no raw datagram is handed to Transport (log 2). That a reset of the block keeps it rests on the wire trace that it empties
(log 6). -/
def Obligations.StepKeepsShadowLastWrite : Prop :=
  ∀ s t : State, s.xfer = none → ShadowIsLastWrite s → step s = .next t → t.xfer = none ∧ ShadowIsLastWrite t

/-- R38 (4): under its premises (an intact link among them, R143) the chip's word of every write-capable register is the
shadow word, after every step. -/
def Obligations.StepKeepsCoherency : Prop :=
  ∀ s t : State, CoherencyPremises s → Coherent s → step s = .next t → CoherencyPremises t ∧ Coherent t

/-- All the invariants above hold in the state after reset. -/
def Obligations.InvariantsHoldAtReset : Prop :=
  CanonicalFiles State.reset ∧ ShadowOwned State.reset ∧ CachedOwned State.reset ∧ LinkIdle State.reset ∧
    ReplyFresh State.reset ∧ State.reset.xfer = none ∧ WireProducible State.reset ∧
    ShadowIsLastWrite State.reset ∧ CoherencyPremises State.reset ∧ Coherent State.reset

/-! ### Sequences -/

/-- R112: after any sequence of commands with no WRREG to `a`, the shadow word of `a` is its start word with every effective
field write merged in order, and each bit is that of the last field write whose mask has it. -/
def Obligations.ShadowHoldsLastFieldWrites : Prop :=
  ∀ (l : List Instr) (s t : State) (a : Addr), (∀ i ∈ l, ∀ v, i ≠ .wrreg a v) →
    execAll l s = .next t →
    readSh t a = mergeAll (readSh s a) (fieldMerges a l s) ∧
    ∀ p, p < 32 → (readSh t a).getLsbD p = lastMerged ((readSh s a).getLsbD p) p (fieldMerges a l s)

/-- R164: writing every write-capable register once with WRREG, in any order, makes the chip and the shadow agree, whatever
the chip held before; under the premises of R38 (4) that the exchanges reach the chip intact (log 19) and that the chip changes
no write-capable register on its own (log 11). -/
def Obligations.WritingAllRegistersMakesCoherent : Prop :=
  ∀ (l : List Instr) (s : State), s.disturb = none → (∀ a, writable s.cfg a = true → a ∉ s.cfg.chipChanges) →
    (∀ i ∈ l, ∃ a v, i = .wrreg a v ∧ writable s.cfg a = true) →
    (∀ a, writable s.cfg a = true → ∃ v, Instr.wrreg a v ∈ l) →
    ∃ t, execAll l s = .next t ∧ Coherent t

/-! ### The default tables and the worked examples -/

/-- R120, R121, R123, R124: the default tables are well-formed; 18 registers, 8 write-only, 3 read/write, 7 read-only; 77
fields; the three rows of T-CORE are in them (the placement of hold and run current is R122's choice, log 10). -/
def Obligations.DefaultTablesWellFormed : Prop :=
  configDefault.wf = true ∧ regTableDefault.length = 18 ∧
    (regTableDefault.filter (fun r => r.acc == .wo)).length = 8 ∧
    (regTableDefault.filter (fun r => r.acc == .rw)).length = 3 ∧
    (regTableDefault.filter (fun r => r.acc == .ro)).length = 7 ∧ fieldTableDefault.length = 77 ∧
    fieldOf configDefault 0x1C = some ⟨0x1C, "IHOLD", 0x10, 0, 5, .clamp 0 31, none⟩ ∧
    fieldOf configDefault 0x1D = some ⟨0x1D, "IRUN", 0x10, 8, 5, .clamp 0 31, none⟩ ∧
    fieldOf configDefault 0x31 =
      some ⟨0x31, "MRES", 0x6C, 24, 4, .quant [256, 128, 64, 32, 16, 8, 4, 2, 0] .down, none⟩

/-- R113: (a) setting microstep resolution to 16 puts 0b0100 into bits 27:24 of the chopper shadow word and leaves its other
bits; (b) setting run and hold current to 31 on a fresh block leaves 0x00001F1F. With the default tables (log 10). -/
def Obligations.WorkedExamples : Prop :=
  (∀ s : State, s.cfg = configDefault →
    ∃ t, exec (.setf 0x31 16) s = .next t ∧ readSh t 0x6C = (readSh s 0x6C &&& 0xF0FFFFFF) ||| 0x04000000) ∧
  ∀ s : State, s.cfg = configDefault → readSh s 0x10 = 0 →
    ∃ t u, exec (.setf 0x1D 31) s = .next t ∧ exec (.setf 0x1C 31) t = .next u ∧ readSh u 0x10 = 0x00001F1F

/-! ### Failures of the link -/

/-- R143, R147, R175 (the form of a failure is log 19): nothing detects an exchange that fails. A WRREG whose exchange fails
completes as any, with whatever status byte was sampled, and its word becomes the shadow word; where its datagram was lost the
chip is as it was, so the shadow is ahead of it, until the next write to that register, which repairs it. A read whose exchange
fails returns whatever bits were sampled. -/
def Obligations.LinkFailureGoesUnnoticed : Prop :=
  ∀ (s : State) (g : Disturbance), s.disturb = some g →
    (∀ (a : Addr) (v w : Word), writable s.cfg a = true →
      ∃ t u st rw, exec (.wrreg a v) s = .next t ∧ OneExchange s t (writeByte a) v st rw ∧ Completed s t true st 0 ∧
        (∀ d, g.sampled = some d → st = d.extractLsb' 32 8) ∧ ShadowSet s t a v ∧
        (g.delivery = .lost → ChipKept s t) ∧
        exec (.wrreg a w) t = .next u ∧ readSh u a = w ∧ readChip u a = w) ∧
    ∀ (a : Addr) (x : Word) (d : Datagram), readable s.cfg a = true → g.sampled = some d →
      ∃ t, exec (.rdreg a x) s = .next t ∧ Completed s t true (d.extractLsb' 32 8) (d.extractLsb' 0 32) ∧ FilesSame s t
end

