-- ==== Sys2Proof/Laws/Codec.lean ====
section
/-!
SUPPORT. Base laws of the codec: the bits of a mask, the code that an encoded word holds, the index searches.
-/
namespace Sys2Proof.Machine

theorem getLsbD_onesWord (w i : Nat) (hi : i < 32) : (onesWord w).getLsbD i = decide (i < w) := by
  rw [onesWord, BitVec.getLsbD_ofNat, Nat.testBit_two_pow_sub_one]
  simp [hi]

/-- The bits of a field's mask. -/
theorem getLsbD_fieldMask (off w i : Nat) (hi : i < 32) :
    (fieldMask off w).getLsbD i = decide (off ≤ i ∧ i < off + w) := by
  unfold fieldMask
  rw [BitVec.getLsbD_shiftLeft]
  by_cases h : i < off
  · have h' : ¬ off ≤ i := by omega
    simp [h, h']
  · have h1 : off ≤ i := by omega
    rw [getLsbD_onesWord _ _ (by omega)]
    simp only [hi, h, h1, decide_true, decide_false, Bool.not_false, Bool.true_and, true_and]
    congr 1
    apply propext
    omega

/-- The code that stands in a field, bit by bit. -/
theorem testBit_fieldCode (d : Field) (w : Word) (i : Nat) (h : d.off + d.width ≤ 32) :
    (fieldCode d w).testBit i = (decide (i < d.width) && w.getLsbD (d.off + i)) := by
  unfold fieldCode
  rw [BitVec.testBit_toNat, BitVec.getLsbD_and, BitVec.getLsbD_ushiftRight]
  by_cases hi : i < 32
  · rw [getLsbD_onesWord _ _ hi, Bool.and_comm]
  · have h1 : ¬ i < d.width := by omega
    have h2 : 32 ≤ d.off + i := by omega
    simp [h1, BitVec.getLsbD_of_ge w _ h2]

/-- A word that holds the shifted code `n` in the field's bits has the code `n`. -/
theorem fieldCode_eq (d : Field) (w : Word) (n : Nat) (h : d.off + d.width ≤ 32) (hn : n < 2 ^ d.width)
    (hw : ∀ i, i < d.width → w.getLsbD (d.off + i) = n.testBit i) : fieldCode d w = n := by
  apply Nat.eq_of_testBit_eq
  intro i
  rw [testBit_fieldCode _ _ _ h]
  by_cases hi : i < d.width
  · simp [hi, hw i hi]
  · have : n.testBit i = false :=
      Nat.testBit_lt_two_pow (lt_of_lt_of_le hn (Nat.pow_le_pow_right (by decide) (by omega)))
    simp [hi, this]

/-- The code of a field depends on the field's own bits only. -/
theorem fieldCode_congr (d : Field) (w v : Word) (h : d.off + d.width ≤ 32)
    (hw : ∀ i, d.off ≤ i → i < d.off + d.width → w.getLsbD i = v.getLsbD i) : fieldCode d w = fieldCode d v := by
  apply Nat.eq_of_testBit_eq
  intro i
  rw [testBit_fieldCode _ _ _ h, testBit_fieldCode _ _ _ h]
  by_cases hi : i < d.width
  · rw [hw _ (by omega) (by omega)]
  · simp [hi]

/-- The bits that `Encode` returns, one by one. -/
theorem getLsbD_encode_bits (d : Field) (z : Int) (i : Nat) (hi : i < 32) :
    (encodeField d z).bits.getLsbD i = (decide (d.off ≤ i) && (policyCode d.policy z).testBit (i - d.off)) := by
  show (BitVec.ofNat 32 (policyCode d.policy z) <<< d.off).getLsbD i = _
  rw [BitVec.getLsbD_shiftLeft, BitVec.getLsbD_ofNat]
  have : i - d.off < 32 := by omega
  by_cases h : i < d.off
  · have : ¬ d.off ≤ i := by omega
    simp [h, this]
  · have h1 : d.off ≤ i := by omega
    simp [h, h1, hi, this]

@[simp] theorem encode_mask (d : Field) (z : Int) : (encodeField d z).mask = fieldMask d.off d.width := rfl

@[simp] theorem encode_canon (d : Field) (z : Int) : (encodeField d z).canon = policyCanon d.policy z := rfl

theorem leastIdx_some (p : Int → Bool) (l : List Int) (i j : Nat) (h : leastIdx p l i = some j) :
    i ≤ j ∧ j < i + l.length ∧ p (l.getD (j - i) 0) = true ∧ ∀ k, k < j - i → p (l.getD k 0) = false := by
  induction l generalizing i with
  | nil => simp [leastIdx] at h
  | cons x xs ih =>
    unfold leastIdx at h
    split at h
    · rename_i hx
      simp only [Option.some.injEq] at h
      subst h
      simp [hx]
    · rename_i hx
      obtain ⟨h1, h2, h3, h4⟩ := ih _ h
      have e : j - i = (j - (i + 1)) + 1 := by omega
      refine ⟨by omega, by simp only [List.length_cons]; omega, by rw [e]; simpa using h3, fun k hk => ?_⟩
      cases k with
      | zero => simpa using hx
      | succ k => simpa using h4 k (by omega)

theorem leastIdx_none (p : Int → Bool) (l : List Int) (i : Nat) : leastIdx p l i = none ↔ ∀ x ∈ l, p x = false := by
  induction l generalizing i with
  | nil => simp [leastIdx]
  | cons x xs ih =>
    unfold leastIdx
    cases h : p x <;> simp [h, ih]

theorem greatestIdx_some (p : Int → Bool) (l : List Int) (i j : Nat) (h : greatestIdx p l i = some j) :
    i ≤ j ∧ j < i + l.length ∧ p (l.getD (j - i) 0) = true ∧
      ∀ k, j - i < k → k < l.length → p (l.getD k 0) = false := by
  induction l generalizing i with
  | nil => simp [greatestIdx] at h
  | cons x xs ih =>
    unfold greatestIdx at h
    cases hg : greatestIdx p xs (i + 1) with
    | some m =>
      rw [hg] at h
      simp only [Option.some.injEq] at h
      subst h
      obtain ⟨h1, h2, h3, h4⟩ := ih _ hg
      have e : m - i = (m - (i + 1)) + 1 := by omega
      refine ⟨by omega, by simp only [List.length_cons]; omega, by rw [e]; simpa using h3, fun k hk hl => ?_⟩
      cases k with
      | zero => omega
      | succ k => simpa using h4 k (by omega) (by simpa using hl)
    | none =>
      rw [hg] at h
      have hnone : ∀ y ∈ xs, p y = false := by
        clear ih h
        generalize i + 1 = n at hg
        induction xs generalizing n with
        | nil => simp
        | cons y ys ihy =>
          unfold greatestIdx at hg
          cases hy : greatestIdx p ys (n + 1) with
          | some m => simp [hy] at hg
          | none =>
            simp only [hy] at hg
            split at hg
            · simp at hg
            · rename_i hpy
              intro w hw
              rcases List.mem_cons.mp hw with rfl | hw
              · simpa using hpy
              · exact ihy _ hy w hw
      simp only at h
      split at h
      · rename_i hx
        simp only [Option.some.injEq] at h
        subst h
        refine ⟨le_refl _, by simp, by simpa using hx, fun k hk hl => ?_⟩
        obtain ⟨k, rfl⟩ : ∃ m, k = m + 1 := ⟨k - 1, by omega⟩
        have hl' : k < xs.length := by simpa using hl
        simpa [hl'] using hnone _ (List.getElem_mem hl')
      · simp at h

/-- The selected index is one of the set's (R93, R94, D17). -/
theorem quantIdx_lt (l : List Int) (dir : Dir) (z : Int) (h : 1 ≤ l.length) : quantIdx l dir z < l.length := by
  unfold quantIdx
  cases dir with
  | down =>
    cases hi : leastIdx (fun x => decide (x ≤ z)) l 0 with
    | none =>
      show l.length - 1 < l.length
      omega
    | some j =>
      have := leastIdx_some _ _ _ _ hi
      show j < l.length
      omega
  | up =>
    cases hi : greatestIdx (fun x => decide (z ≤ x)) l 0 with
    | none =>
      show 0 < l.length
      omega
    | some j =>
      have := greatestIdx_some _ _ _ _ hi
      show j < l.length
      omega

theorem clampInt_bounds (z lo hi : Int) (h : lo ≤ hi) : lo ≤ clampInt z lo hi ∧ clampInt z lo hi ≤ hi := by
  unfold clampInt
  split
  · omega
  · split <;> omega

theorem clampInt_self (z lo hi : Int) (h1 : lo ≤ z) (h2 : z ≤ hi) : clampInt z lo hi = z := by
  unfold clampInt
  rw [if_neg (by omega), if_neg (by omega)]

/-- R90: for well-formed constants the code fits the field. -/
theorem policyCode_lt (p : Policy) (w : Nat) (z : Int) (h : p.wf w = true) : policyCode p z < 2 ^ w := by
  have hp : (0 : Int) < 2 ^ w := by positivity
  have hc : ((2 ^ w : Nat) : Int) = 2 ^ w := by push_cast; rfl
  cases p with
  | clamp min max =>
    simp only [Policy.wf, decide_eq_true_eq] at h
    unfold onesInt at h
    have := clampInt_bounds z min max h.2.1
    show (clampInt z min max).toNat < 2 ^ w
    omega
  | bias min max offset =>
    simp only [Policy.wf, Bool.and_eq_true, decide_eq_true_eq] at h
    unfold onesInt at h
    have := clampInt_bounds z min max h.1.1.1.1
    show (clampInt z min max + offset).toNat < 2 ^ w
    omega
  | quant members dir =>
    simp only [Policy.wf, Bool.and_eq_true, decide_eq_true_eq] at h
    exact lt_of_lt_of_le (quantIdx_lt _ _ _ h.2.1) h.2.2

end Sys2Proof.Machine
end

