-- ==== Sys2Proof/Laws/Memory.lean ====
section
/-!
SUPPORT. Laws of the finite maps and of the word files: a read after a write, a write elsewhere, and the canonical form, which
every operation keeps and which makes equal files equal data.
-/
namespace Sys2Proof.Machine

variable {α : Type}

@[simp] theorem tabFind_nil (k : Nat) : tabFind ([] : Tab α) k = none := rfl

theorem tabFind_erase (t : Tab α) (k j : Nat) :
    tabFind (tabErase t k) j = if j = k then none else tabFind t j := by
  induction t with
  | nil => simp [tabErase]
  | cons c t ih =>
    obtain ⟨i, v⟩ := c
    by_cases hk : k = i
    · subst hk
      by_cases hj : j = k <;> simp_all [tabErase, tabFind]
    · by_cases hj : j = i
      · have : ¬ i = k := fun h => hk h.symm
        simp_all [tabErase, tabFind]
      · simp [tabErase, tabFind, hk, hj, ih]

theorem tabFind_insert_self (t : Tab α) (k : Nat) (v : α) (h : tabFind t k = none) :
    tabFind (tabInsert t k v) k = some v := by
  induction t with
  | nil => simp [tabInsert, tabFind]
  | cons c t ih =>
    obtain ⟨i, w⟩ := c
    have hki : k ≠ i := by
      intro e
      simp [tabFind, e] at h
    have ht : tabFind t k = none := by simpa [tabFind, hki] using h
    unfold tabInsert
    split
    · simp [tabFind]
    · simp [tabFind, hki, ih ht]

theorem tabFind_insert_ne (t : Tab α) (k j : Nat) (v : α) (h : j ≠ k) :
    tabFind (tabInsert t k v) j = tabFind t j := by
  induction t with
  | nil => simp [tabInsert, tabFind, h]
  | cons c t ih =>
    obtain ⟨i, w⟩ := c
    unfold tabInsert
    split
    · simp [tabFind, h]
    · simp [tabFind, ih]

/-- Reading any key after a put: the value put at its key, elsewhere what was there. -/
theorem tabFind_put (t : Tab α) (k j : Nat) (v : α) :
    tabFind (tabPut t k v) j = if j = k then some v else tabFind t j := by
  by_cases h : j = k
  · subst h
    simp [tabPut, tabFind_insert_self, tabFind_erase]
  · simp [tabPut, tabFind_insert_ne _ _ _ _ h, tabFind_erase, h]

theorem tabErase_sublist (t : Tab α) (k : Nat) : (tabErase t k).Sublist t := by
  induction t with
  | nil => exact List.Sublist.slnil
  | cons c t ih =>
    obtain ⟨i, v⟩ := c
    unfold tabErase
    split
    · exact ih.cons _
    · exact ih.cons_cons _

theorem mem_tabErase_ne (t : Tab α) (k : Nat) (c : Nat × α) (h : c ∈ tabErase t k) : c.1 ≠ k := by
  induction t with
  | nil => simp [tabErase] at h
  | cons d t ih =>
    obtain ⟨i, v⟩ := d
    unfold tabErase at h
    split at h
    · exact ih h
    · rcases List.mem_cons.mp h with rfl | h
      · exact fun e => ‹¬ k = i› e.symm
      · exact ih h

theorem mem_tabInsert (t : Tab α) (k : Nat) (v : α) (c : Nat × α) (h : c ∈ tabInsert t k v) :
    c = (k, v) ∨ c ∈ t := by
  induction t with
  | nil => simpa [tabInsert] using h
  | cons d t ih =>
    obtain ⟨i, w⟩ := d
    unfold tabInsert at h
    split at h
    · simpa using h
    · rcases List.mem_cons.mp h with rfl | h
      · simp
      · rcases ih h with h | h
        · exact .inl h
        · exact .inr (List.mem_cons_of_mem _ h)

theorem mem_tabPut (t : Tab α) (k : Nat) (v : α) (c : Nat × α) (h : c ∈ tabPut t k v) :
    c = (k, v) ∨ c ∈ t :=
  (mem_tabInsert _ _ _ _ h).imp id ((tabErase_sublist t k).subset ·)

theorem tabSorted_iff (t : Tab α) : tabSorted t = true ↔ t.Pairwise (fun x y => x.1 < y.1) := by
  simp [tabSorted]

@[simp] theorem tabSorted_nil : tabSorted ([] : Tab α) = true := by simp [tabSorted_iff]

theorem tabSorted_erase (t : Tab α) (k : Nat) (h : tabSorted t = true) : tabSorted (tabErase t k) = true := by
  rw [tabSorted_iff] at *
  exact h.sublist (tabErase_sublist t k)

theorem tabSorted_insert (t : Tab α) (k : Nat) (v : α) (h : tabSorted t = true)
    (hk : ∀ c ∈ t, c.1 ≠ k) : tabSorted (tabInsert t k v) = true := by
  rw [tabSorted_iff] at *
  induction t with
  | nil => simp [tabInsert]
  | cons d t ih =>
    obtain ⟨i, w⟩ := d
    rw [List.pairwise_cons] at h
    have hik : i ≠ k := hk (i, w) (by simp)
    unfold tabInsert
    split
    · rename_i hlt
      refine List.pairwise_cons.mpr ⟨fun c hc => ?_, List.pairwise_cons.mpr h⟩
      rcases List.mem_cons.mp hc with rfl | hc
      · exact hlt
      · exact lt_trans hlt (h.1 c hc)
    · rename_i hlt
      refine List.pairwise_cons.mpr ⟨fun c hc => ?_, ih h.2 fun c hc => hk c (List.mem_cons_of_mem _ hc)⟩
      rcases mem_tabInsert _ _ _ _ hc with rfl | hc
      · show i < k
        omega
      · exact h.1 c hc

/-- A put keeps the keys rising. -/
theorem tabSorted_put (t : Tab α) (k : Nat) (v : α) (h : tabSorted t = true) : tabSorted (tabPut t k v) = true :=
  tabSorted_insert _ _ _ (tabSorted_erase t k h) (mem_tabErase_ne t k)

@[simp] theorem Memory.read_nil (a : Addr) : Memory.read [] a = 0 := rfl

/-- Reading any address after a write: the word written at its address, elsewhere what was there. -/
theorem Memory.read_write (m : Memory) (a b : Addr) (v : Word) :
    (m.write a v).read b = if b = a then v else m.read b := by
  have hab : b.toNat = a.toNat ↔ b = a := ⟨BitVec.eq_of_toNat_eq, fun h => by rw [h]⟩
  unfold Memory.read Memory.write
  by_cases hv : v = 0
  · subst hv
    simp only [if_true, tabFind_erase, hab]
    split <;> simp
  · simp only [hv, if_false, tabFind_put, hab]
    split <;> simp

@[simp] theorem Memory.read_write_self (m : Memory) (a : Addr) (v : Word) : (m.write a v).read a = v := by
  simp [Memory.read_write]

theorem Memory.read_write_ne (m : Memory) (a b : Addr) (v : Word) (h : b ≠ a) :
    (m.write a v).read b = m.read b := by
  simp [Memory.read_write, h]

theorem Memory.wf_iff (m : Memory) :
    m.wf = true ↔ tabSorted m = true ∧ ∀ c ∈ m, c.1 < 128 ∧ c.2 ≠ 0 := by
  simp [Memory.wf]

@[simp] theorem Memory.wf_nil : Memory.wf [] = true := by simp [Memory.wf_iff]

/-- A write keeps the canonical form. -/
theorem Memory.wf_write (m : Memory) (a : Addr) (v : Word) (h : m.wf = true) : (m.write a v).wf = true := by
  rw [Memory.wf_iff] at *
  unfold Memory.write
  split
  · exact ⟨tabSorted_erase _ _ h.1, fun c hc => h.2 c ((tabErase_sublist m _).subset hc)⟩
  · rename_i hv
    refine ⟨tabSorted_put _ _ _ h.1, fun c hc => ?_⟩
    rcases mem_tabPut _ _ _ _ hc with rfl | hc
    · exact ⟨a.isLt, hv⟩
    · exact h.2 c hc

theorem tabFind_of_mem (t : Tab α) (h : tabSorted t = true) (c : Nat × α) (hc : c ∈ t) :
    tabFind t c.1 = some c.2 := by
  rw [tabSorted_iff] at h
  induction t with
  | nil => simp at hc
  | cons d t ih =>
    obtain ⟨i, w⟩ := d
    rw [List.pairwise_cons] at h
    rcases List.mem_cons.mp hc with rfl | hc
    · simp [tabFind]
    · have hlt : i < c.1 := h.1 c hc
      have hne : ¬ c.1 = i := by omega
      simp [tabFind, hne, ih h.2 hc]

end Sys2Proof.Machine
end

