-- ==== Sys2Proof/Laws/Pins.lean ====
section
/-!
SUPPORT. What one chip-select frame leaves: the shifter holds the 40 bits that the chip drove, and the pins are idle.
-/
namespace Sys2Proof.Machine

/-- One shift of `sh_in`: each bit moves up by one, and the sampled bit comes in at the bottom. -/
theorem getLsbD_shiftIn (x : Datagram) (b : Bool) (i : Nat) (hi : i < 40) :
    (x.extractLsb' 0 39 ++ BitVec.ofBool b : Datagram).getLsbD i = if i = 0 then b else x.getLsbD (i - 1) := by
  rw [BitVec.getLsbD_append]
  by_cases h : i = 0
  · simp [h]
  · have h1 : ¬ i < 1 := by omega
    have h2 : i - 1 < 39 := by omega
    simp [h, h1, h2]

/-- After the bit periods `bs`, the lowest bits of `sh_in` are `bs`, the last one lowest, and the bits it held stand above. -/
theorem shiftBits_shIn (l : Link) (bs : List Bool) (i : Nat) (hi : i < 40) :
    (shiftBits l bs).shIn.getLsbD i =
      if i < bs.length then bs.getD (bs.length - 1 - i) false else l.shIn.getLsbD (i - bs.length) := by
  induction bs generalizing l with
  | nil => simp [shiftBits]
  | cons b bs ih =>
    rw [shiftBits, ih]
    by_cases h : i < bs.length
    · have h' : i < bs.length + 1 := by omega
      have e : bs.length - i = (bs.length - 1 - i) + 1 := by omega
      simp [h, h', e]
    · simp only [h, if_false, List.length_cons]
      show (l.shIn.extractLsb' 0 39 ++ BitVec.ofBool b : Datagram).getLsbD (i - bs.length) = _
      rw [getLsbD_shiftIn _ _ _ (by omega)]
      by_cases h2 : i = bs.length
      · simp [h2]
      · have h3 : ¬ i < bs.length + 1 := by omega
        have h4 : ¬ i - bs.length = 0 := by omega
        simp [h3, h4, Nat.sub_sub]

@[simp] theorem length_bitsMsbFirst (d : Datagram) : (bitsMsbFirst d).length = 40 := by simp [bitsMsbFirst]

theorem getD_bitsMsbFirst (d : Datagram) (i : Nat) (hi : i < 40) : (bitsMsbFirst d).getD i false = d.getLsbD (39 - i) := by
  simp [bitsMsbFirst, hi]

/-- R76: after the 40 bit periods of a frame the shifter holds what the chip drove, whatever it held before. -/
@[simp] theorem frameLink_shIn (l : Link) (o d : Datagram) (b c : Bool) : (frameLink l o d b c).shIn = d := by
  apply BitVec.eq_of_getLsbD_eq
  intro i hi
  show (shiftBits (selectLink l o) (bitsMsbFirst d)).shIn.getLsbD i = _
  rw [shiftBits_shIn _ _ _ hi]
  have h : 40 - 1 - i < 40 := by omega
  have e : 39 - (40 - 1 - i) = i := by omega
  simp only [length_bitsMsbFirst, hi, if_true]
  rw [getD_bitsMsbFirst _ _ h, e]

theorem shiftBits_csn (l : Link) (bs : List Bool) : (shiftBits l bs).csn = l.csn := by
  induction bs generalizing l with
  | nil => rfl
  | cons b bs ih => rw [shiftBits, ih]; rfl

theorem shiftBits_out40 (l : Link) (bs : List Bool) : (shiftBits l bs).out40 = l.out40 := by
  induction bs generalizing l with
  | nil => rfl
  | cons b bs ih => rw [shiftBits, ih]; rfl

theorem shiftBits_bitcnt (l : Link) (bs : List Bool) : (shiftBits l bs).bitcnt = l.bitcnt + bs.length := by
  induction bs generalizing l with
  | nil => rfl
  | cons b bs ih =>
    rw [shiftBits, ih]
    show l.bitcnt + 1 + bs.length = _
    simp only [List.length_cons]
    omega

theorem shiftBits_sck (l : Link) (bs : List Bool) (h : l.sck = true) : (shiftBits l bs).sck = true := by
  induction bs generalizing l with
  | nil => exact h
  | cons b bs ih => exact ih _ rfl

theorem shiftBits_sck_cons (l : Link) (b : Bool) (bs : List Bool) : (shiftBits l (b :: bs)).sck = true :=
  shiftBits_sck _ bs rfl

@[simp] theorem frameLink_csn (l : Link) (o d : Datagram) (b c : Bool) : (frameLink l o d b c).csn = true := rfl

@[simp] theorem frameLink_mosi (l : Link) (o d : Datagram) (b c : Bool) : (frameLink l o d b c).mosi = b := rfl

@[simp] theorem frameLink_miso (l : Link) (o d : Datagram) (b c : Bool) : (frameLink l o d b c).miso = c := rfl

@[simp] theorem frameLink_sck (l : Link) (o d : Datagram) (b c : Bool) : (frameLink l o d b c).sck = true := by
  have h : (frameLink l o d b c).sck = (shiftBits (selectLink l o) (bitsMsbFirst d)).sck := rfl
  have e : bitsMsbFirst d = d.getLsbD 39 :: (bitsMsbFirst d).tail := by simp [bitsMsbFirst, List.range_succ_eq_map]
  rw [h, e]
  exact shiftBits_sck_cons _ _ _

@[simp] theorem frameLink_out40 (l : Link) (o d : Datagram) (b c : Bool) : (frameLink l o d b c).out40 = o :=
  shiftBits_out40 _ _

@[simp] theorem frameLink_bitcnt (l : Link) (o d : Datagram) (b c : Bool) : (frameLink l o d b c).bitcnt = 40 := by
  have h : (frameLink l o d b c).bitcnt = (shiftBits (selectLink l o) (bitsMsbFirst d)).bitcnt := rfl
  rw [h, shiftBits_bitcnt, length_bitsMsbFirst]
  rfl

/-! What `forgetBits` leaves: all but `sh_in`. -/

@[simp] theorem forgetBits_csn (l : Link) (x : Datagram) : (forgetBits l x).csn = l.csn := rfl

@[simp] theorem forgetBits_sck (l : Link) (x : Datagram) : (forgetBits l x).sck = l.sck := rfl

@[simp] theorem forgetBits_mosi (l : Link) (x : Datagram) : (forgetBits l x).mosi = l.mosi := rfl

@[simp] theorem forgetBits_miso (l : Link) (x : Datagram) : (forgetBits l x).miso = l.miso := rfl

@[simp] theorem forgetBits_out40 (l : Link) (x : Datagram) : (forgetBits l x).out40 = l.out40 := rfl

@[simp] theorem forgetBits_shOut (l : Link) (x : Datagram) : (forgetBits l x).shOut = l.shOut := rfl

@[simp] theorem forgetBits_shIn (l : Link) (x : Datagram) : (forgetBits l x).shIn = x := rfl

@[simp] theorem forgetBits_bitcnt (l : Link) (x : Datagram) : (forgetBits l x).bitcnt = l.bitcnt := rfl

/-- Chip-select stays asserted in a frame that stalled (R71). -/
@[simp] theorem stalledLink_csn (l : Link) (o d : Datagram) (n : Nat) : (stalledLink l o d n).csn = false :=
  shiftBits_csn _ _

@[simp] theorem stalledLink_out40 (l : Link) (o d : Datagram) (n : Nat) : (stalledLink l o d n).out40 = o :=
  shiftBits_out40 _ _

end Sys2Proof.Machine
end

