-- ==== Sys2Proof/Laws/State.lean ====
section
/-!
SUPPORT. The state's fields after each operation, one lemma for each field, so that no proof unfolds a record update.
-/
namespace Sys2Proof.Machine

@[simp] theorem chipMoves_cfg (s : State) :
    (chipMoves s).cfg = s.cfg := rfl

@[simp] theorem chipMoves_sh (s : State) :
    (chipMoves s).sh = s.sh := rfl

@[simp] theorem chipMoves_sv (s : State) :
    (chipMoves s).sv = s.sv := rfl

@[simp] theorem chipMoves_svDraw (s : State) :
    (chipMoves s).svDraw = s.svDraw := rfl

@[simp] theorem chipMoves_busy (s : State) :
    (chipMoves s).busy = s.busy := rfl

@[simp] theorem chipMoves_link (s : State) :
    (chipMoves s).link = s.link := rfl

@[simp] theorem chipMoves_resValid (s : State) :
    (chipMoves s).resValid = s.resValid := rfl

@[simp] theorem chipMoves_res (s : State) :
    (chipMoves s).res = s.res := rfl

@[simp] theorem chipMoves_xfer (s : State) :
    (chipMoves s).xfer = s.xfer := rfl

@[simp] theorem chipMoves_commands (s : State) :
    (chipMoves s).commands = s.commands := rfl

@[simp] theorem chipMoves_ci (s : State) :
    (chipMoves s).ci = s.ci := rfl

@[simp] theorem chipMoves_results (s : State) :
    (chipMoves s).results = s.results := rfl

@[simp] theorem chipMoves_wire (s : State) :
    (chipMoves s).wire = s.wire := rfl

@[simp] theorem chipMoves_chip (s : State) :
    (chipMoves s).chip = chipMoved s.cfg s.chip s.moments := rfl

@[simp] theorem chipMoves_status (s : State) :
    (chipMoves s).status = s.status := rfl

@[simp] theorem chipMoves_rpl (s : State) :
    (chipMoves s).rpl = s.rpl := rfl

@[simp] theorem chipMoves_events (s : State) :
    (chipMoves s).events = s.events := rfl

@[simp] theorem chipMoves_disturb (s : State) :
    (chipMoves s).disturb = s.disturb := rfl

@[simp] theorem chipMoves_moments (s : State) :
    (chipMoves s).moments = s.moments + 1 := rfl

@[simp] theorem chipMoves_draws (s : State) :
    (chipMoves s).draws = s.draws := rfl

@[simp] theorem forgetResult_cfg (s : State) :
    (forgetResult s).cfg = s.cfg := rfl

@[simp] theorem forgetResult_sh (s : State) :
    (forgetResult s).sh = s.sh := rfl

@[simp] theorem forgetResult_sv (s : State) :
    (forgetResult s).sv = s.sv := rfl

@[simp] theorem forgetResult_svDraw (s : State) :
    (forgetResult s).svDraw = s.svDraw := rfl

@[simp] theorem forgetResult_busy (s : State) :
    (forgetResult s).busy = s.busy := rfl

@[simp] theorem forgetResult_link (s : State) :
    (forgetResult s).link = s.link := rfl

@[simp] theorem forgetResult_resValid (s : State) :
    (forgetResult s).resValid = false := rfl

@[simp] theorem forgetResult_res (s : State) :
    (forgetResult s).res = Config.freeResult s.moments := rfl

@[simp] theorem forgetResult_xfer (s : State) :
    (forgetResult s).xfer = s.xfer := rfl

@[simp] theorem forgetResult_commands (s : State) :
    (forgetResult s).commands = s.commands := rfl

@[simp] theorem forgetResult_ci (s : State) :
    (forgetResult s).ci = s.ci := rfl

@[simp] theorem forgetResult_results (s : State) :
    (forgetResult s).results = s.results := rfl

@[simp] theorem forgetResult_wire (s : State) :
    (forgetResult s).wire = s.wire := rfl

@[simp] theorem forgetResult_chip (s : State) :
    (forgetResult s).chip = s.chip := rfl

@[simp] theorem forgetResult_status (s : State) :
    (forgetResult s).status = s.status := rfl

@[simp] theorem forgetResult_rpl (s : State) :
    (forgetResult s).rpl = s.rpl := rfl

@[simp] theorem forgetResult_events (s : State) :
    (forgetResult s).events = s.events := rfl

@[simp] theorem forgetResult_disturb (s : State) :
    (forgetResult s).disturb = s.disturb := rfl

@[simp] theorem forgetResult_moments (s : State) :
    (forgetResult s).moments = s.moments := rfl

@[simp] theorem forgetResult_draws (s : State) :
    (forgetResult s).draws = s.draws := rfl

@[simp] theorem accept_cfg (s : State) :
    (accept s).cfg = s.cfg := rfl

@[simp] theorem accept_sh (s : State) :
    (accept s).sh = s.sh := rfl

@[simp] theorem accept_sv (s : State) :
    (accept s).sv = s.sv := rfl

@[simp] theorem accept_svDraw (s : State) :
    (accept s).svDraw = s.svDraw := rfl

@[simp] theorem accept_busy (s : State) :
    (accept s).busy = true := rfl

@[simp] theorem accept_link (s : State) :
    (accept s).link = s.link := rfl

@[simp] theorem accept_resValid (s : State) :
    (accept s).resValid = false := rfl

@[simp] theorem accept_res (s : State) :
    (accept s).res = Config.freeResult (s.moments + 1) := rfl

@[simp] theorem accept_xfer (s : State) :
    (accept s).xfer = s.xfer := rfl

@[simp] theorem accept_commands (s : State) :
    (accept s).commands = s.commands := rfl

@[simp] theorem accept_ci (s : State) :
    (accept s).ci = s.ci := rfl

@[simp] theorem accept_results (s : State) :
    (accept s).results = s.results := rfl

@[simp] theorem accept_wire (s : State) :
    (accept s).wire = s.wire := rfl

@[simp] theorem accept_chip (s : State) :
    (accept s).chip = chipMoved s.cfg s.chip s.moments := rfl

@[simp] theorem accept_status (s : State) :
    (accept s).status = s.status := rfl

@[simp] theorem accept_rpl (s : State) :
    (accept s).rpl = s.rpl := rfl

@[simp] theorem accept_events (s : State) :
    (accept s).events = s.events := rfl

@[simp] theorem accept_draws (s : State) :
    (accept s).draws = s.draws := rfl

@[simp] theorem accept_disturb (s : State) :
    (accept s).disturb = s.disturb := rfl

@[simp] theorem accept_moments (s : State) :
    (accept s).moments = s.moments + 1 := rfl

@[simp] theorem finish_cfg (s : State) (x : Bool) (st : Byte) (v : Word) :
    (finish s x st v).cfg = s.cfg := rfl

@[simp] theorem finish_sh (s : State) (x : Bool) (st : Byte) (v : Word) :
    (finish s x st v).sh = s.sh := rfl

@[simp] theorem finish_sv (s : State) (x : Bool) (st : Byte) (v : Word) :
    (finish s x st v).sv = s.sv := rfl

@[simp] theorem finish_svDraw (s : State) (x : Bool) (st : Byte) (v : Word) :
    (finish s x st v).svDraw = s.svDraw := rfl

@[simp] theorem finish_busy (s : State) (x : Bool) (st : Byte) (v : Word) :
    (finish s x st v).busy = false := rfl

@[simp] theorem finish_link (s : State) (x : Bool) (st : Byte) (v : Word) :
    (finish s x st v).link = s.link := rfl

@[simp] theorem finish_resValid (s : State) (x : Bool) (st : Byte) (v : Word) :
    (finish s x st v).resValid = true := rfl

@[simp] theorem finish_res (s : State) (x : Bool) (st : Byte) (v : Word) :
    (finish s x st v).res = resultWord x st v := rfl

@[simp] theorem finish_xfer (s : State) (x : Bool) (st : Byte) (v : Word) :
    (finish s x st v).xfer = s.xfer := rfl

@[simp] theorem finish_commands (s : State) (x : Bool) (st : Byte) (v : Word) :
    (finish s x st v).commands = s.commands := rfl

@[simp] theorem finish_ci (s : State) (x : Bool) (st : Byte) (v : Word) :
    (finish s x st v).ci = s.ci + 1 := rfl

@[simp] theorem finish_results (s : State) (x : Bool) (st : Byte) (v : Word) :
    (finish s x st v).results = s.results ++ [resultWord x st v] := rfl

@[simp] theorem finish_wire (s : State) (x : Bool) (st : Byte) (v : Word) :
    (finish s x st v).wire = s.wire := rfl

@[simp] theorem finish_chip (s : State) (x : Bool) (st : Byte) (v : Word) :
    (finish s x st v).chip = s.chip := rfl

@[simp] theorem finish_status (s : State) (x : Bool) (st : Byte) (v : Word) :
    (finish s x st v).status = s.status := rfl

@[simp] theorem finish_rpl (s : State) (x : Bool) (st : Byte) (v : Word) :
    (finish s x st v).rpl = s.rpl := rfl

@[simp] theorem finish_events (s : State) (x : Bool) (st : Byte) (v : Word) :
    (finish s x st v).events = s.events := rfl

@[simp] theorem finish_draws (s : State) (x : Bool) (st : Byte) (v : Word) :
    (finish s x st v).draws = s.draws := rfl

@[simp] theorem finish_disturb (s : State) (x : Bool) (st : Byte) (v : Word) :
    (finish s x st v).disturb = s.disturb := rfl

@[simp] theorem finish_moments (s : State) (x : Bool) (st : Byte) (v : Word) :
    (finish s x st v).moments = s.moments := rfl

@[simp] theorem writeSh_cfg (s : State) (a : Addr) (v : Word) :
    (writeSh s a v).cfg = s.cfg := rfl

@[simp] theorem writeSh_sh (s : State) (a : Addr) (v : Word) :
    (writeSh s a v).sh = s.sh.write a v := rfl

@[simp] theorem writeSh_sv (s : State) (a : Addr) (v : Word) :
    (writeSh s a v).sv = s.sv := rfl

@[simp] theorem writeSh_svDraw (s : State) (a : Addr) (v : Word) :
    (writeSh s a v).svDraw = s.svDraw := rfl

@[simp] theorem writeSh_busy (s : State) (a : Addr) (v : Word) :
    (writeSh s a v).busy = s.busy := rfl

@[simp] theorem writeSh_link (s : State) (a : Addr) (v : Word) :
    (writeSh s a v).link = s.link := rfl

@[simp] theorem writeSh_resValid (s : State) (a : Addr) (v : Word) :
    (writeSh s a v).resValid = s.resValid := rfl

@[simp] theorem writeSh_res (s : State) (a : Addr) (v : Word) :
    (writeSh s a v).res = s.res := rfl

@[simp] theorem writeSh_xfer (s : State) (a : Addr) (v : Word) :
    (writeSh s a v).xfer = s.xfer := rfl

@[simp] theorem writeSh_commands (s : State) (a : Addr) (v : Word) :
    (writeSh s a v).commands = s.commands := rfl

@[simp] theorem writeSh_ci (s : State) (a : Addr) (v : Word) :
    (writeSh s a v).ci = s.ci := rfl

@[simp] theorem writeSh_results (s : State) (a : Addr) (v : Word) :
    (writeSh s a v).results = s.results := rfl

@[simp] theorem writeSh_wire (s : State) (a : Addr) (v : Word) :
    (writeSh s a v).wire = s.wire := rfl

@[simp] theorem writeSh_chip (s : State) (a : Addr) (v : Word) :
    (writeSh s a v).chip = s.chip := rfl

@[simp] theorem writeSh_status (s : State) (a : Addr) (v : Word) :
    (writeSh s a v).status = s.status := rfl

@[simp] theorem writeSh_rpl (s : State) (a : Addr) (v : Word) :
    (writeSh s a v).rpl = s.rpl := rfl

@[simp] theorem writeSh_events (s : State) (a : Addr) (v : Word) :
    (writeSh s a v).events = s.events := rfl

@[simp] theorem writeSh_draws (s : State) (a : Addr) (v : Word) :
    (writeSh s a v).draws = s.draws := rfl

@[simp] theorem writeSh_disturb (s : State) (a : Addr) (v : Word) :
    (writeSh s a v).disturb = s.disturb := rfl

@[simp] theorem writeSh_moments (s : State) (a : Addr) (v : Word) :
    (writeSh s a v).moments = s.moments := rfl

@[simp] theorem writeSv_cfg (s : State) (f : FieldId) (z : Int) :
    (writeSv s f z).cfg = s.cfg := rfl

@[simp] theorem writeSv_sh (s : State) (f : FieldId) (z : Int) :
    (writeSv s f z).sh = s.sh := rfl

@[simp] theorem writeSv_sv (s : State) (f : FieldId) (z : Int) :
    (writeSv s f z).sv = tabPut s.sv f.toNat z := rfl

@[simp] theorem writeSv_svDraw (s : State) (f : FieldId) (z : Int) :
    (writeSv s f z).svDraw = s.svDraw := rfl

@[simp] theorem writeSv_busy (s : State) (f : FieldId) (z : Int) :
    (writeSv s f z).busy = s.busy := rfl

@[simp] theorem writeSv_link (s : State) (f : FieldId) (z : Int) :
    (writeSv s f z).link = s.link := rfl

@[simp] theorem writeSv_resValid (s : State) (f : FieldId) (z : Int) :
    (writeSv s f z).resValid = s.resValid := rfl

@[simp] theorem writeSv_res (s : State) (f : FieldId) (z : Int) :
    (writeSv s f z).res = s.res := rfl

@[simp] theorem writeSv_xfer (s : State) (f : FieldId) (z : Int) :
    (writeSv s f z).xfer = s.xfer := rfl

@[simp] theorem writeSv_commands (s : State) (f : FieldId) (z : Int) :
    (writeSv s f z).commands = s.commands := rfl

@[simp] theorem writeSv_ci (s : State) (f : FieldId) (z : Int) :
    (writeSv s f z).ci = s.ci := rfl

@[simp] theorem writeSv_results (s : State) (f : FieldId) (z : Int) :
    (writeSv s f z).results = s.results := rfl

@[simp] theorem writeSv_wire (s : State) (f : FieldId) (z : Int) :
    (writeSv s f z).wire = s.wire := rfl

@[simp] theorem writeSv_chip (s : State) (f : FieldId) (z : Int) :
    (writeSv s f z).chip = s.chip := rfl

@[simp] theorem writeSv_status (s : State) (f : FieldId) (z : Int) :
    (writeSv s f z).status = s.status := rfl

@[simp] theorem writeSv_rpl (s : State) (f : FieldId) (z : Int) :
    (writeSv s f z).rpl = s.rpl := rfl

@[simp] theorem writeSv_events (s : State) (f : FieldId) (z : Int) :
    (writeSv s f z).events = s.events := rfl

@[simp] theorem writeSv_draws (s : State) (f : FieldId) (z : Int) :
    (writeSv s f z).draws = s.draws := rfl

@[simp] theorem writeSv_disturb (s : State) (f : FieldId) (z : Int) :
    (writeSv s f z).disturb = s.disturb := rfl

@[simp] theorem writeSv_moments (s : State) (f : FieldId) (z : Int) :
    (writeSv s f z).moments = s.moments := rfl

@[simp] theorem datagramDone_cfg (s : State) :
    (datagramDone s).cfg = s.cfg := rfl

@[simp] theorem datagramDone_sh (s : State) :
    (datagramDone s).sh = s.sh := rfl

@[simp] theorem datagramDone_sv (s : State) :
    (datagramDone s).sv = s.sv := rfl

@[simp] theorem datagramDone_svDraw (s : State) :
    (datagramDone s).svDraw = s.svDraw := rfl

@[simp] theorem datagramDone_busy (s : State) :
    (datagramDone s).busy = s.busy := rfl

@[simp] theorem datagramDone_link (s : State) :
    (datagramDone s).link = s.link := rfl

@[simp] theorem datagramDone_resValid (s : State) :
    (datagramDone s).resValid = false := rfl

@[simp] theorem datagramDone_res (s : State) :
    (datagramDone s).res = Config.freeResult s.moments := rfl

@[simp] theorem datagramDone_xfer (s : State) :
    (datagramDone s).xfer = none := rfl

@[simp] theorem datagramDone_commands (s : State) :
    (datagramDone s).commands = s.commands := rfl

@[simp] theorem datagramDone_ci (s : State) :
    (datagramDone s).ci = s.ci := rfl

@[simp] theorem datagramDone_results (s : State) :
    (datagramDone s).results = s.results := rfl

@[simp] theorem datagramDone_wire (s : State) :
    (datagramDone s).wire = s.wire := rfl

@[simp] theorem datagramDone_chip (s : State) :
    (datagramDone s).chip = s.chip := rfl

@[simp] theorem datagramDone_status (s : State) :
    (datagramDone s).status = s.status := rfl

@[simp] theorem datagramDone_rpl (s : State) :
    (datagramDone s).rpl = s.rpl := rfl

@[simp] theorem datagramDone_events (s : State) :
    (datagramDone s).events = s.events := rfl

@[simp] theorem datagramDone_draws (s : State) :
    (datagramDone s).draws = s.draws := rfl

@[simp] theorem datagramDone_disturb (s : State) :
    (datagramDone s).disturb = s.disturb := rfl

@[simp] theorem datagramDone_moments (s : State) :
    (datagramDone s).moments = s.moments := rfl

@[simp] theorem waiting_cfg (s : State) :
    (waiting s).cfg = s.cfg := rfl

@[simp] theorem waiting_sh (s : State) :
    (waiting s).sh = s.sh := rfl

@[simp] theorem waiting_sv (s : State) :
    (waiting s).sv = s.sv := rfl

@[simp] theorem waiting_svDraw (s : State) :
    (waiting s).svDraw = s.svDraw := rfl

@[simp] theorem waiting_busy (s : State) :
    (waiting s).busy = s.busy := rfl

@[simp] theorem waiting_link (s : State) :
    (waiting s).link = s.link := rfl

@[simp] theorem waiting_resValid (s : State) :
    (waiting s).resValid = false := rfl

@[simp] theorem waiting_res (s : State) :
    (waiting s).res = Config.freeResult (s.moments + 1) := rfl

@[simp] theorem waiting_xfer (s : State) :
    (waiting s).xfer = s.xfer := rfl

@[simp] theorem waiting_commands (s : State) :
    (waiting s).commands = s.commands := rfl

@[simp] theorem waiting_ci (s : State) :
    (waiting s).ci = s.ci := rfl

@[simp] theorem waiting_results (s : State) :
    (waiting s).results = s.results := rfl

@[simp] theorem waiting_wire (s : State) :
    (waiting s).wire = s.wire := rfl

@[simp] theorem waiting_chip (s : State) :
    (waiting s).chip = chipMoved s.cfg s.chip s.moments := rfl

@[simp] theorem waiting_status (s : State) :
    (waiting s).status = s.status := rfl

@[simp] theorem waiting_rpl (s : State) :
    (waiting s).rpl = s.rpl := rfl

@[simp] theorem waiting_events (s : State) :
    (waiting s).events = s.events := rfl

@[simp] theorem waiting_draws (s : State) :
    (waiting s).draws = s.draws := rfl

@[simp] theorem waiting_disturb (s : State) :
    (waiting s).disturb = s.disturb := rfl

@[simp] theorem waiting_moments (s : State) :
    (waiting s).moments = s.moments + 1 := rfl

@[simp] theorem chipReset_cfg (s : State) :
    (chipReset s).cfg = s.cfg := rfl

@[simp] theorem chipReset_sh (s : State) :
    (chipReset s).sh = s.sh := rfl

@[simp] theorem chipReset_sv (s : State) :
    (chipReset s).sv = s.sv := rfl

@[simp] theorem chipReset_svDraw (s : State) :
    (chipReset s).svDraw = s.svDraw := rfl

@[simp] theorem chipReset_busy (s : State) :
    (chipReset s).busy = s.busy := rfl

@[simp] theorem chipReset_link (s : State) :
    (chipReset s).link = s.link := rfl

@[simp] theorem chipReset_resValid (s : State) :
    (chipReset s).resValid = s.resValid := rfl

@[simp] theorem chipReset_res (s : State) :
    (chipReset s).res = s.res := rfl

@[simp] theorem chipReset_xfer (s : State) :
    (chipReset s).xfer = s.xfer := rfl

@[simp] theorem chipReset_commands (s : State) :
    (chipReset s).commands = s.commands := rfl

@[simp] theorem chipReset_ci (s : State) :
    (chipReset s).ci = s.ci := rfl

@[simp] theorem chipReset_results (s : State) :
    (chipReset s).results = s.results := rfl

@[simp] theorem chipReset_wire (s : State) :
    (chipReset s).wire = s.wire := rfl

@[simp] theorem chipReset_chip (s : State) :
    (chipReset s).chip = s.cfg.chipPor := rfl

@[simp] theorem chipReset_status (s : State) :
    (chipReset s).status = s.status := rfl

@[simp] theorem chipReset_rpl (s : State) :
    (chipReset s).rpl = .unspecified := rfl

@[simp] theorem chipReset_events (s : State) :
    (chipReset s).events = s.events := rfl

@[simp] theorem chipReset_draws (s : State) :
    (chipReset s).draws = s.draws := rfl

@[simp] theorem chipReset_disturb (s : State) :
    (chipReset s).disturb = s.disturb := rfl

@[simp] theorem chipReset_moments (s : State) :
    (chipReset s).moments = s.moments := rfl

@[simp] theorem linkDisturbed_cfg (s : State) (d : Disturbance) :
    (linkDisturbed s d).cfg = s.cfg := rfl

@[simp] theorem linkDisturbed_sh (s : State) (d : Disturbance) :
    (linkDisturbed s d).sh = s.sh := rfl

@[simp] theorem linkDisturbed_sv (s : State) (d : Disturbance) :
    (linkDisturbed s d).sv = s.sv := rfl

@[simp] theorem linkDisturbed_svDraw (s : State) (d : Disturbance) :
    (linkDisturbed s d).svDraw = s.svDraw := rfl

@[simp] theorem linkDisturbed_busy (s : State) (d : Disturbance) :
    (linkDisturbed s d).busy = s.busy := rfl

@[simp] theorem linkDisturbed_link (s : State) (d : Disturbance) :
    (linkDisturbed s d).link = s.link := rfl

@[simp] theorem linkDisturbed_resValid (s : State) (d : Disturbance) :
    (linkDisturbed s d).resValid = s.resValid := rfl

@[simp] theorem linkDisturbed_res (s : State) (d : Disturbance) :
    (linkDisturbed s d).res = s.res := rfl

@[simp] theorem linkDisturbed_xfer (s : State) (d : Disturbance) :
    (linkDisturbed s d).xfer = s.xfer := rfl

@[simp] theorem linkDisturbed_commands (s : State) (d : Disturbance) :
    (linkDisturbed s d).commands = s.commands := rfl

@[simp] theorem linkDisturbed_ci (s : State) (d : Disturbance) :
    (linkDisturbed s d).ci = s.ci := rfl

@[simp] theorem linkDisturbed_results (s : State) (d : Disturbance) :
    (linkDisturbed s d).results = s.results := rfl

@[simp] theorem linkDisturbed_wire (s : State) (d : Disturbance) :
    (linkDisturbed s d).wire = s.wire := rfl

@[simp] theorem linkDisturbed_chip (s : State) (d : Disturbance) :
    (linkDisturbed s d).chip = s.chip := rfl

@[simp] theorem linkDisturbed_status (s : State) (d : Disturbance) :
    (linkDisturbed s d).status = s.status := rfl

@[simp] theorem linkDisturbed_rpl (s : State) (d : Disturbance) :
    (linkDisturbed s d).rpl = s.rpl := rfl

@[simp] theorem linkDisturbed_events (s : State) (d : Disturbance) :
    (linkDisturbed s d).events = s.events := rfl

@[simp] theorem linkDisturbed_disturb (s : State) (d : Disturbance) :
    (linkDisturbed s d).disturb = some d := rfl

@[simp] theorem linkDisturbed_moments (s : State) (d : Disturbance) :
    (linkDisturbed s d).moments = s.moments := rfl

@[simp] theorem linkDisturbed_draws (s : State) (d : Disturbance) :
    (linkDisturbed s d).draws = s.draws := rfl

@[simp] theorem exchange_cfg (s : State) (ab : Byte) (dw : Word) :
    ((exchange s ab dw).state).cfg = s.cfg := rfl

@[simp] theorem exchange_sh (s : State) (ab : Byte) (dw : Word) :
    ((exchange s ab dw).state).sh = s.sh := rfl

@[simp] theorem exchange_sv (s : State) (ab : Byte) (dw : Word) :
    ((exchange s ab dw).state).sv = s.sv := rfl

@[simp] theorem exchange_svDraw (s : State) (ab : Byte) (dw : Word) :
    ((exchange s ab dw).state).svDraw = s.svDraw := rfl

@[simp] theorem exchange_busy (s : State) (ab : Byte) (dw : Word) :
    ((exchange s ab dw).state).busy = s.busy := rfl

@[simp] theorem exchange_link (s : State) (ab : Byte) (dw : Word) :
    ((exchange s ab dw).state).link =
      forgetBits (frameLink s.link (packDatagram ab dw) (inbound s ab dw)
        (Config.freeMosi (s.draws + 1)) (Config.freeMiso (s.draws + 1))) (Config.freeShifter (s.draws + 1)) := rfl

@[simp] theorem exchange_resValid (s : State) (ab : Byte) (dw : Word) :
    ((exchange s ab dw).state).resValid = s.resValid := rfl

@[simp] theorem exchange_res (s : State) (ab : Byte) (dw : Word) :
    ((exchange s ab dw).state).res = s.res := rfl

@[simp] theorem exchange_xfer (s : State) (ab : Byte) (dw : Word) :
    ((exchange s ab dw).state).xfer = s.xfer := rfl

@[simp] theorem exchange_commands (s : State) (ab : Byte) (dw : Word) :
    ((exchange s ab dw).state).commands = s.commands := rfl

@[simp] theorem exchange_ci (s : State) (ab : Byte) (dw : Word) :
    ((exchange s ab dw).state).ci = s.ci := rfl

@[simp] theorem exchange_results (s : State) (ab : Byte) (dw : Word) :
    ((exchange s ab dw).state).results = s.results := rfl

@[simp] theorem exchange_chip (s : State) (ab : Byte) (dw : Word) :
    ((exchange s ab dw).state).chip = chipNext s (packDatagram ab dw) := rfl

@[simp] theorem exchange_status (s : State) (ab : Byte) (dw : Word) :
    ((exchange s ab dw).state).status = Config.freeStatus s.draws := rfl

@[simp] theorem exchange_rpl (s : State) (ab : Byte) (dw : Word) :
    ((exchange s ab dw).state).rpl =
      replyTakes s.cfg s.chip s.moments (arrives s (packDatagram ab dw)) := rfl

@[simp] theorem exchange_events (s : State) (ab : Byte) (dw : Word) :
    ((exchange s ab dw).state).events = s.events := rfl

@[simp] theorem exchange_draws (s : State) (ab : Byte) (dw : Word) :
    ((exchange s ab dw).state).draws = s.draws + 1 := rfl

@[simp] theorem exchange_disturb (s : State) (ab : Byte) (dw : Word) :
    ((exchange s ab dw).state).disturb = none := rfl

@[simp] theorem exchange_moments (s : State) (ab : Byte) (dw : Word) :
    ((exchange s ab dw).state).moments = s.moments + 2 := rfl

@[simp] theorem afterEvent_cfg (s : State) (es : List Event) :
    (afterEvent s es).cfg = s.cfg := rfl

@[simp] theorem afterEvent_sh (s : State) (es : List Event) :
    (afterEvent s es).sh = s.sh := rfl

@[simp] theorem afterEvent_sv (s : State) (es : List Event) :
    (afterEvent s es).sv = s.sv := rfl

@[simp] theorem afterEvent_svDraw (s : State) (es : List Event) :
    (afterEvent s es).svDraw = s.svDraw := rfl

@[simp] theorem afterEvent_busy (s : State) (es : List Event) :
    (afterEvent s es).busy = s.busy := rfl

@[simp] theorem afterEvent_link (s : State) (es : List Event) :
    (afterEvent s es).link = s.link := rfl

@[simp] theorem afterEvent_resValid (s : State) (es : List Event) :
    (afterEvent s es).resValid = s.resValid := rfl

@[simp] theorem afterEvent_res (s : State) (es : List Event) :
    (afterEvent s es).res = s.res := rfl

@[simp] theorem afterEvent_xfer (s : State) (es : List Event) :
    (afterEvent s es).xfer = s.xfer := rfl

@[simp] theorem afterEvent_commands (s : State) (es : List Event) :
    (afterEvent s es).commands = s.commands := rfl

@[simp] theorem afterEvent_ci (s : State) (es : List Event) :
    (afterEvent s es).ci = s.ci := rfl

@[simp] theorem afterEvent_results (s : State) (es : List Event) :
    (afterEvent s es).results = s.results := rfl

@[simp] theorem afterEvent_wire (s : State) (es : List Event) :
    (afterEvent s es).wire = s.wire := rfl

@[simp] theorem afterEvent_chip (s : State) (es : List Event) :
    (afterEvent s es).chip = s.chip := rfl

@[simp] theorem afterEvent_status (s : State) (es : List Event) :
    (afterEvent s es).status = s.status := rfl

@[simp] theorem afterEvent_rpl (s : State) (es : List Event) :
    (afterEvent s es).rpl = s.rpl := rfl

@[simp] theorem afterEvent_events (s : State) (es : List Event) :
    (afterEvent s es).events = es := rfl

@[simp] theorem afterEvent_draws (s : State) (es : List Event) :
    (afterEvent s es).draws = s.draws := rfl

@[simp] theorem afterEvent_disturb (s : State) (es : List Event) :
    (afterEvent s es).disturb = s.disturb := rfl

@[simp] theorem afterEvent_moments (s : State) (es : List Event) :
    (afterEvent s es).moments = s.moments := rfl

@[simp] theorem stalled_cfg (s : State) (n : Nat) (f : Frame) :
    (stalled s n f).cfg = s.cfg := rfl

@[simp] theorem stalled_sh (s : State) (n : Nat) (f : Frame) :
    (stalled s n f).sh = s.sh := rfl

@[simp] theorem stalled_sv (s : State) (n : Nat) (f : Frame) :
    (stalled s n f).sv = s.sv := rfl

@[simp] theorem stalled_svDraw (s : State) (n : Nat) (f : Frame) :
    (stalled s n f).svDraw = s.svDraw := rfl

@[simp] theorem stalled_busy (s : State) (n : Nat) (f : Frame) :
    (stalled s n f).busy = true := rfl

@[simp] theorem stalled_link (s : State) (n : Nat) (f : Frame) :
    (stalled s n f).link = stalledLink s.link (packDatagram f.ab f.dw) (packDatagram f.st f.rw) n := rfl

@[simp] theorem stalled_resValid (s : State) (n : Nat) (f : Frame) :
    (stalled s n f).resValid = false := rfl

@[simp] theorem stalled_res (s : State) (n : Nat) (f : Frame) :
    (stalled s n f).res = Config.freeResult (s.moments + 1) := rfl

@[simp] theorem stalled_xfer (s : State) (n : Nat) (f : Frame) :
    (stalled s n f).xfer = s.xfer := rfl

@[simp] theorem stalled_commands (s : State) (n : Nat) (f : Frame) :
    (stalled s n f).commands = s.commands := rfl

@[simp] theorem stalled_ci (s : State) (n : Nat) (f : Frame) :
    (stalled s n f).ci = s.ci := rfl

@[simp] theorem stalled_results (s : State) (n : Nat) (f : Frame) :
    (stalled s n f).results = s.results := rfl

@[simp] theorem stalled_wire (s : State) (n : Nat) (f : Frame) :
    (stalled s n f).wire = s.wire := rfl

@[simp] theorem stalled_chip (s : State) (n : Nat) (f : Frame) :
    (stalled s n f).chip = chipMoved s.cfg s.chip s.moments := rfl

@[simp] theorem stalled_status (s : State) (n : Nat) (f : Frame) :
    (stalled s n f).status = s.status := rfl

@[simp] theorem stalled_rpl (s : State) (n : Nat) (f : Frame) :
    (stalled s n f).rpl = s.rpl := rfl

@[simp] theorem stalled_events (s : State) (n : Nat) (f : Frame) :
    (stalled s n f).events = s.events := rfl

@[simp] theorem stalled_draws (s : State) (n : Nat) (f : Frame) :
    (stalled s n f).draws = s.draws := rfl

@[simp] theorem stalled_disturb (s : State) (n : Nat) (f : Frame) :
    (stalled s n f).disturb = s.disturb := rfl

@[simp] theorem stalled_moments (s : State) (n : Nat) (f : Frame) :
    (stalled s n f).moments = s.moments + 1 := rfl

@[simp] theorem blockReset_sh (s : State) :
    (blockReset s).sh = [] := rfl

@[simp] theorem blockReset_sv (s : State) :
    (blockReset s).sv = [] := rfl

@[simp] theorem blockReset_svDraw (s : State) :
    (blockReset s).svDraw = s.draws + 1 := rfl

@[simp] theorem blockReset_busy (s : State) :
    (blockReset s).busy = false := rfl

@[simp] theorem blockReset_link (s : State) :
    (blockReset s).link = linkReset (Config.freeMosi (s.draws + 1)) (Config.freeMiso (s.draws + 1)) := rfl

@[simp] theorem blockReset_resValid (s : State) :
    (blockReset s).resValid = false := rfl

@[simp] theorem blockReset_res (s : State) :
    (blockReset s).res = 0 := rfl

@[simp] theorem blockReset_xfer (s : State) :
    (blockReset s).xfer = none := rfl

@[simp] theorem blockReset_ci (s : State) :
    (blockReset s).ci = 0 := rfl

@[simp] theorem blockReset_results (s : State) :
    (blockReset s).results = [] := rfl

@[simp] theorem blockReset_wire (s : State) :
    (blockReset s).wire = [] := rfl

@[simp] theorem blockReset_chip (s : State) :
    (blockReset s).chip = chipMoved (chipCut s).cfg (chipCut s).chip (chipCut s).moments := rfl

@[simp] theorem blockReset_rpl (s : State) :
    (blockReset s).rpl = (chipCut s).rpl := rfl

@[simp] theorem blockReset_draws (s : State) :
    (blockReset s).draws = s.draws + 1 := rfl

@[simp] theorem blockReset_disturb (s : State) :
    (blockReset s).disturb = (chipCut s).disturb := rfl

@[simp] theorem blockReset_moments (s : State) :
    (blockReset s).moments = s.moments + 1 := by
  unfold blockReset chipCut
  split <;> rfl

@[simp] theorem blockReset_cfg (s : State) :
    (blockReset s).cfg = s.cfg := by
  unfold blockReset chipCut
  split <;> rfl

@[simp] theorem blockReset_commands (s : State) :
    (blockReset s).commands = s.commands := by
  unfold blockReset chipCut
  split <;> rfl

@[simp] theorem blockReset_events (s : State) :
    (blockReset s).events = s.events := by
  unfold blockReset chipCut
  split <;> rfl

@[simp] theorem blockReset_status (s : State) :
    (blockReset s).status = s.status := by
  unfold blockReset chipCut
  split <;> rfl

end Sys2Proof.Machine
end

