-- ==== Sys2Proof/Laws/Transport.lean ====
section
/-!
SUPPORT. What one exchange and one merge do, said once: the status byte and the word they return, the wire trace, the chip.
-/
namespace Sys2Proof.Machine

@[simp] theorem byteAddr_readByte (a : Addr) : byteAddr (readByte a) = a := by revert a; decide

@[simp] theorem byteAddr_writeByte (a : Addr) : byteAddr (writeByte a) = a := by revert a; decide

@[simp] theorem byteWrite_readByte (a : Addr) : byteWrite (readByte a) = false := by revert a; decide

@[simp] theorem byteWrite_writeByte (a : Addr) : byteWrite (writeByte a) = true := by revert a; decide

theorem writeByte_inj {a b : Addr} (h : writeByte a = writeByte b) : a = b := by
  simpa using congrArg byteAddr h

theorem readByte_inj {a b : Addr} (h : readByte a = readByte b) : a = b := by
  simpa using congrArg byteAddr h

theorem readByte_ne_writeByte (a b : Addr) : readByte a ≠ writeByte b := by
  intro h
  simpa using congrArg byteWrite h

/-- The bits of `{ab, dw}`: the data word below, the address byte above. -/
theorem getLsbD_packDatagram (ab : Byte) (dw : Word) (i : Nat) :
    (packDatagram ab dw).getLsbD i = if i < 32 then dw.getLsbD i else ab.getLsbD (i - 32) :=
  BitVec.getLsbD_append

@[simp] theorem packDatagram_byte (ab : Byte) (dw : Word) : (packDatagram ab dw).extractLsb' 32 8 = ab := by
  apply BitVec.eq_of_getLsbD_eq
  intro i hi
  simp [getLsbD_packDatagram, hi]

@[simp] theorem packDatagram_word (ab : Byte) (dw : Word) : (packDatagram ab dw).extractLsb' 0 32 = dw := by
  apply BitVec.eq_of_getLsbD_eq
  intro i hi
  simp [getLsbD_packDatagram, hi]

@[simp] theorem packDatagram_addr (ab : Byte) (dw : Word) : (packDatagram ab dw).extractLsb' 32 7 = byteAddr ab := by
  apply BitVec.eq_of_getLsbD_eq
  intro i hi
  simp [getLsbD_packDatagram, byteAddr, hi]

/-- R72: the status byte of an exchange is the first byte that the block sampled. -/
@[simp] theorem exchange_st (s : State) (ab : Byte) (dw : Word) :
    (exchange s ab dw).st = (inbound s ab dw).extractLsb' 32 8 := by
  simp [exchange]

/-- R73: the returned word of an exchange is the last 32 bits that the block sampled. -/
@[simp] theorem exchange_rw (s : State) (ab : Byte) (dw : Word) :
    (exchange s ab dw).rw = (inbound s ab dw).extractLsb' 0 32 := by
  simp [exchange]

/-- Where the exchange does not fail, what the block samples is what the chip drives (R143). -/
theorem inbound_intact (s : State) (ab : Byte) (dw : Word) (h : s.disturb = none) :
    inbound s ab dw = driven s (packDatagram ab dw) := by
  simp [inbound, h]

/-- What the block samples in an exchange that fails, where the failure says so (R143). -/
theorem inbound_sampled (s : State) (ab : Byte) (dw : Word) (g : Disturbance) (d : Datagram) (h : s.disturb = some g)
    (hs : g.sampled = some d) : inbound s ab dw = d := by
  simp [inbound, h, hs]

/-- R43: the status byte of an exchange that does not fail is the chip's, a free value. -/
theorem exchange_st_intact (s : State) (ab : Byte) (dw : Word) (h : s.disturb = none) :
    (exchange s ab dw).st = Config.freeStatus s.draws := by
  rw [exchange_st, inbound_intact _ _ _ h, driven, packDatagram_byte]

/-- The returned word of an exchange that does not fail is the chip's (R36, R41, R42). -/
theorem exchange_rw_intact (s : State) (ab : Byte) (dw : Word) (h : s.disturb = none) :
    (exchange s ab dw).rw = returnedWord s.cfg s.rpl (chipNext s (packDatagram ab dw)) s.draws := by
  rw [exchange_rw, inbound_intact _ _ _ h, driven, packDatagram_word]

/-- The chip takes the datagram of an exchange that does not fail. -/
theorem chipNext_intact (s : State) (ab : Byte) (dw : Word) (h : s.disturb = none) :
    chipNext s (packDatagram ab dw) = chipAfter s.cfg s.chip s.moments ab dw := by
  simp [chipNext, arrives, h, chipTakes]

/-- A datagram that is lost leaves the chip to itself (R143). -/
theorem chipNext_lost (s : State) (d : Datagram) (g : Disturbance) (h : s.disturb = some g) (hl : g.delivery = .lost) :
    chipNext s d = chipMoved s.cfg s.chip s.moments := by
  simp [chipNext, arrives, h, hl, chipTakes]

/-- The reply word after an exchange that does not fail. -/
theorem replyTakes_intact (s : State) (ab : Byte) (dw : Word) (h : s.disturb = none) :
    replyTakes s.cfg s.chip s.moments (arrives s (packDatagram ab dw)) = replyAfter s.cfg s.chip s.moments ab dw := by
  simp [arrives, h, replyTakes]

/-- R70: one exchange adds its tuple to the wire trace. -/
@[simp] theorem exchange_wire (s : State) (ab : Byte) (dw : Word) :
    (exchange s ab dw).state.wire =
      s.wire ++ [⟨ab, dw, (exchange s ab dw).st, (exchange s ab dw).rw⟩] := rfl

/-- R80, R75: MergeAndWrite is one write exchange of the merged word, stored in the shadow file. -/
theorem mergeAndWrite_eq (s : State) (a : Addr) (nb m : Word) :
    mergeAndWrite s a nb m =
      { state := writeSh (exchange s (writeByte a) (mergeWord (readSh s a) nb m)).state a (mergeWord (readSh s a) nb m)
        st := (exchange s (writeByte a) (mergeWord (readSh s a) nb m)).st
        rw := (exchange s (writeByte a) (mergeWord (readSh s a) nb m)).rw } := rfl

@[simp] theorem readSh_accept (s : State) (a : Addr) : readSh (accept s) a = readSh s a := rfl

@[simp] theorem readSh_finish (s : State) (x : Bool) (st : Byte) (v : Word) (a : Addr) :
    readSh (finish s x st v) a = readSh s a := rfl

@[simp] theorem readSh_exchange (s : State) (ab : Byte) (dw : Word) (a : Addr) :
    readSh (exchange s ab dw).state a = readSh s a := rfl

@[simp] theorem readSh_writeSv (s : State) (f : FieldId) (z : Int) (a : Addr) : readSh (writeSv s f z) a = readSh s a := rfl

theorem readSh_writeSh (s : State) (a b : Addr) (v : Word) :
    readSh (writeSh s a v) b = if b = a then v else readSh s b := Memory.read_write _ _ _ _

@[simp] theorem readSv_accept (s : State) (f : FieldId) : readSv (accept s) f = readSv s f := rfl

@[simp] theorem readSv_finish (s : State) (x : Bool) (st : Byte) (v : Word) (f : FieldId) :
    readSv (finish s x st v) f = readSv s f := rfl

@[simp] theorem readSv_exchange (s : State) (ab : Byte) (dw : Word) (f : FieldId) :
    readSv (exchange s ab dw).state f = readSv s f := rfl

@[simp] theorem readSv_writeSh (s : State) (a : Addr) (v : Word) (f : FieldId) : readSv (writeSh s a v) f = readSv s f := rfl

theorem readSv_writeSv (s : State) (f g : FieldId) (z : Int) :
    readSv (writeSv s f z) g = if g = f then z else readSv s g := by
  have h : g.toNat = f.toNat ↔ g = f := ⟨BitVec.eq_of_toNat_eq, fun h => by rw [h]⟩
  unfold readSv
  simp only [writeSv_sv, tabFind_put, h, writeSv_svDraw]
  by_cases hg : g = f <;> simp [hg]

/-- A merge with all bits of the mask set is the new word (R80). -/
@[simp] theorem mergeWord_allOnes (old nb : Word) : mergeWord old nb (BitVec.allOnes 32) = nb := by
  apply BitVec.eq_of_getLsbD_eq
  intro i hi
  simp only [mergeWord, BitVec.getLsbD_or, BitVec.getLsbD_and, BitVec.getLsbD_not, BitVec.getLsbD_allOnes]
  simp [hi]

theorem getLsbD_mergeWord (old nb m : Word) (i : Nat) :
    (mergeWord old nb m).getLsbD i = if m.getLsbD i then nb.getLsbD i else old.getLsbD i := by
  by_cases hi : i < 32
  · simp only [mergeWord, BitVec.getLsbD_or, BitVec.getLsbD_and, BitVec.getLsbD_not]
    cases m.getLsbD i <;> simp [hi, -BitVec.getLsbD_eq_getElem]
  · simp [BitVec.getLsbD_of_ge _ _ (Nat.le_of_not_lt hi)]

theorem moveWords_read_ne (l : List Addr) (n : Nat) (m : Memory) (b : Addr) (h : b ∉ l) :
    (moveWords l n m).read b = m.read b := by
  induction l generalizing m with
  | nil => rfl
  | cons a l ih =>
    rw [List.mem_cons, not_or] at h
    rw [moveWords, ih _ h.2, Memory.read_write_ne _ _ _ _ h.1]

theorem moveWords_wf (l : List Addr) (n : Nat) (m : Memory) (h : m.wf = true) : (moveWords l n m).wf = true := by
  induction l generalizing m with
  | nil => exact h
  | cons a l ih => exact ih _ (Memory.wf_write _ _ _ h)

/-- R44: a register that the chip does not change on its own keeps its word. -/
theorem chipMoved_read (c : Config) (m : Memory) (n : Nat) (b : Addr) (h : b ∉ c.chipChanges) :
    (chipMoved c m n).read b = m.read b := moveWords_read_ne _ _ _ _ h

theorem chipMoved_wf (c : Config) (m : Memory) (n : Nat) (h : m.wf = true) : (chipMoved c m n).wf = true :=
  moveWords_wf _ _ _ h

/-- R40: a write datagram to a write-capable register latches the whole word. -/
theorem chipAfter_write (c : Config) (m : Memory) (n : Nat) (a : Addr) (dw : Word) (h : writable c a = true) :
    chipAfter c m n (writeByte a) dw = (chipMoved c m n).write a dw := by
  simp [chipAfter, h]

theorem chipAfter_write_self (c : Config) (m : Memory) (n : Nat) (a : Addr) (dw : Word) (h : writable c a = true) :
    (chipAfter c m n (writeByte a) dw).read a = dw := by
  rw [chipAfter_write _ _ _ _ _ h, Memory.read_write_self]

/-- A write datagram to any address leaves every other register alone that the chip does not change on its own. -/
theorem chipAfter_write_ne (c : Config) (m : Memory) (n : Nat) (a b : Addr) (dw : Word) (h : b ≠ a) (hb : b ∉ c.chipChanges) :
    (chipAfter c m n (writeByte a) dw).read b = m.read b := by
  simp only [chipAfter, byteWrite_writeByte, byteAddr_writeByte, if_true]
  split <;> rw [Memory.read_write_ne _ _ _ _ h, chipMoved_read _ _ _ _ hb]

theorem replyAfter_write (c : Config) (m : Memory) (n : Nat) (a : Addr) (dw : Word) :
    replyAfter c m n (writeByte a) dw = .unspecified := by
  simp [replyAfter]

theorem applyChanges_read_ne (old : Memory) (l : List RegChange) (m : Memory) (b : Addr) (h : ∀ ch ∈ l, ch.dst ≠ b) :
    (applyChanges old l m).read b = m.read b := by
  induction l generalizing m with
  | nil => rfl
  | cons ch l ih =>
    rw [applyChanges, ih _ (fun c hc => h c (by simp [hc])), Memory.read_write_ne _ _ _ _ (fun e => h ch (by simp) e.symm)]

theorem applyChanges_wf (old : Memory) (l : List RegChange) (m : Memory) (h : m.wf = true) :
    (applyChanges old l m).wf = true := by
  induction l generalizing m with
  | nil => exact h
  | cons ch l ih => exact ih _ (Memory.wf_write _ _ _ h)

/-- A read of `a` leaves a register alone that no entry for `a` changes. -/
theorem applyReadEffects_read (es : List ReadEffect) (a b : Addr) (m : Memory)
    (h : ∀ e ∈ es, e.src = a → ∀ ch ∈ e.changes, ch.dst ≠ b) : (applyReadEffects es a m).read b = m.read b := by
  induction es generalizing m with
  | nil => rfl
  | cons e es ih =>
    rw [applyReadEffects, ih _ (fun e' he => h e' (by simp [he]))]
    split
    · rename_i hs
      exact applyChanges_read_ne _ _ _ _ (h e (by simp) hs)
    · rfl

theorem applyReadEffects_wf (es : List ReadEffect) (a : Addr) (m : Memory) (h : m.wf = true) :
    (applyReadEffects es a m).wf = true := by
  induction es generalizing m with
  | nil => exact h
  | cons e es ih =>
    rw [applyReadEffects]
    apply ih
    split
    · exact applyChanges_wf _ _ _ h
    · exact h

/-- The chip's file stays canonical when it takes a datagram. -/
theorem chipAfter_wf (c : Config) (m : Memory) (n : Nat) (ab : Byte) (dw : Word) (h : m.wf = true) :
    (chipAfter c m n ab dw).wf = true := by
  unfold chipAfter
  split
  · split <;> exact Memory.wf_write _ _ _ (chipMoved_wf _ _ _ h)
  · exact chipMoved_wf _ _ _ (applyReadEffects_wf _ _ _ (chipMoved_wf _ _ _ h))

/-- The chip's file stays canonical in an exchange, whatever reaches the chip. -/
theorem chipNext_wf (s : State) (d : Datagram) (h : s.chip.wf = true) : (chipNext s d).wf = true := by
  unfold chipNext chipTakes
  split
  · exact chipMoved_wf _ _ _ h
  · exact chipAfter_wf _ _ _ _ _ h

/-- A read of register `a` leaves a register alone that the chip does not change on its own and that no entry for `a` changes. -/
theorem chipAfter_read_ne (c : Config) (m : Memory) (n : Nat) (a b : Addr) (dw : Word) (h1 : b ∉ c.chipChanges)
    (h2 : ∀ e ∈ c.readEffects, e.src = a → ∀ ch ∈ e.changes, ch.dst ≠ b) :
    (chipAfter c m n (readByte a) dw).read b = m.read b := by
  simp only [chipAfter, byteWrite_readByte, byteAddr_readByte]
  rw [if_neg (by decide), chipMoved_read _ _ _ _ h1, applyReadEffects_read _ _ _ _ h2, chipMoved_read _ _ _ _ h1]

/-- R41: the data of a readable register that the chip does not change on its own is its word at one of three instants. -/
theorem returnedWord_dataOf (c : Config) (a : Addr) (first last : Word) (after : Memory) (n : Nat) (h : a ∉ c.chipChanges) :
    returnedWord c (.dataOf a first last) after n ∈ [first, last, after.read a] := by
  simp only [returnedWord, h, if_false]
  cases Config.freeInstant n <;> simp

/-- R44: the data of a register that the chip changes on its own is a draw. -/
theorem returnedWord_changing (c : Config) (a : Addr) (first last : Word) (after : Memory) (n : Nat) (h : a ∈ c.chipChanges) :
    returnedWord c (.dataOf a first last) after n = Config.freeReply n := by
  simp [returnedWord, h]

@[simp] theorem returnedWord_unspecified (c : Config) (after : Memory) (n : Nat) :
    returnedWord c .unspecified after n = Config.freeReply n := rfl

theorem replyAfter_readable (c : Config) (m : Memory) (n : Nat) (a : Addr) (dw : Word) (h : readable c a = true) :
    replyAfter c m n (readByte a) dw =
      .dataOf a ((chipMoved c m n).read a) ((chipAfter c m n (readByte a) dw).read a) := by
  simp [replyAfter, h]

theorem replyAfter_unreadable (c : Config) (m : Memory) (n : Nat) (a : Addr) (dw : Word) (h : readable c a = false) :
    replyAfter c m n (readByte a) dw = .unspecified := by
  simp [replyAfter, h]

/-- The reply word after a datagram, said once: none, or the data of a readable register at the two ends of its exchange. -/
theorem replyAfter_cases (c : Config) (m : Memory) (n : Nat) (ab : Byte) (dw : Word) :
    replyAfter c m n ab dw = .unspecified ∨
      (readable c (byteAddr ab) = true ∧ byteWrite ab = false ∧
        replyAfter c m n ab dw =
          .dataOf (byteAddr ab) ((chipMoved c m n).read (byteAddr ab)) ((chipAfter c m n ab dw).read (byteAddr ab))) := by
  unfold replyAfter
  cases byteWrite ab <;> cases readable c (byteAddr ab) <;> simp

end Sys2Proof.Machine
end

