-- ==== Sys2Proof/Laws/Meanings.lean ====
section
/-!
SUPPORT. What each meaning answers, in closed form, and the inversion lemma of `exec`: everything that an instruction can do
when it answers a next state.
-/
namespace Sys2Proof.Machine

theorem writable_iff (c : Config) (a : Addr) :
    writable c a = true ↔ accOf c a = some .wo ∨ accOf c a = some .rw := by
  simp [writable]

theorem readable_iff (c : Config) (a : Addr) :
    readable c a = true ↔ accOf c a = some .ro ∨ accOf c a = some .rw := by
  simp [readable]

/-- The state after a command that performed no exchange and returns `v` (R58). -/
def doneSilent (s : State) (v : Word) : State := finish (accept s) false 0 v

/-- The status byte that the block samples in the exchange of a command (R72): the chip's, unless the exchange fails (R143). -/
def nextStatus (s : State) (ab : Byte) (dw : Word) : Byte := (inbound (accept s) ab dw).extractLsb' 32 8

/-- The state after a command that read register `a` and returns `v` (R83, R111). -/
def doneRead (s : State) (a : Addr) (v : Word) : State :=
  finish (memRead (accept s) a).state true (nextStatus s (readByte a) 0) v

/-- The word returned by a read of register `a` in the next exchange (R36, R41, R42, R143). -/
def nextReply (s : State) (a : Addr) : Word := (inbound (accept s) (readByte a) 0).extractLsb' 0 32

/-- The state after a command that sent the word `w` to register `a` and stored it (R80). -/
def doneWrite (s : State) (a : Addr) (w : Word) : State :=
  finish (writeSh (memWrite (accept s) a w).state a w) true (nextStatus s (writeByte a) w) 0

/-- The state after a SETF that also stored the cached value `z` of field `f` (R110, R16). -/
def doneWriteCached (s : State) (a : Addr) (w : Word) (f : FieldId) (z : Int) : State :=
  finish (writeSv (writeSh (memWrite (accept s) a w).state a w) f z) true (nextStatus s (writeByte a) w) 0

/-! The fields after each closed form. -/

@[simp] theorem doneSilent_cfg (s : State) (v : Word) :
    (doneSilent s v).cfg = s.cfg := rfl

@[simp] theorem doneSilent_xfer (s : State) (v : Word) :
    (doneSilent s v).xfer = s.xfer := rfl

@[simp] theorem doneSilent_commands (s : State) (v : Word) :
    (doneSilent s v).commands = s.commands := rfl

@[simp] theorem doneSilent_events (s : State) (v : Word) :
    (doneSilent s v).events = s.events := rfl

@[simp] theorem doneSilent_svDraw (s : State) (v : Word) :
    (doneSilent s v).svDraw = s.svDraw := rfl

@[simp] theorem doneSilent_ci (s : State) (v : Word) :
    (doneSilent s v).ci = s.ci + 1 := rfl

@[simp] theorem doneSilent_busy (s : State) (v : Word) :
    (doneSilent s v).busy = false := rfl

@[simp] theorem doneSilent_resValid (s : State) (v : Word) :
    (doneSilent s v).resValid = true := rfl

@[simp] theorem doneSilent_res (s : State) (v : Word) :
    (doneSilent s v).res = resultWord false 0 v := rfl

@[simp] theorem doneSilent_results (s : State) (v : Word) :
    (doneSilent s v).results = s.results ++ [resultWord false 0 v] := rfl

@[simp] theorem doneSilent_sh (s : State) (v : Word) :
    (doneSilent s v).sh = s.sh := rfl

@[simp] theorem doneSilent_sv (s : State) (v : Word) :
    (doneSilent s v).sv = s.sv := rfl

@[simp] theorem doneSilent_disturb (s : State) (v : Word) :
    (doneSilent s v).disturb = s.disturb := rfl

@[simp] theorem doneSilent_draws (s : State) (v : Word) :
    (doneSilent s v).draws = s.draws := rfl

@[simp] theorem doneSilent_moments (s : State) (v : Word) :
    (doneSilent s v).moments = s.moments + 1 := rfl

@[simp] theorem doneSilent_rpl (s : State) (v : Word) :
    (doneSilent s v).rpl = s.rpl := rfl

@[simp] theorem doneSilent_chip (s : State) (v : Word) :
    (doneSilent s v).chip = (accept s).chip := rfl

@[simp] theorem doneSilent_wire (s : State) (v : Word) :
    (doneSilent s v).wire = s.wire := rfl

@[simp] theorem doneSilent_link (s : State) (v : Word) :
    (doneSilent s v).link = s.link := rfl

@[simp] theorem doneSilent_status (s : State) (v : Word) :
    (doneSilent s v).status = s.status := rfl

@[simp] theorem doneRead_cfg (s : State) (a : Addr) (v : Word) :
    (doneRead s a v).cfg = s.cfg := rfl

@[simp] theorem doneRead_xfer (s : State) (a : Addr) (v : Word) :
    (doneRead s a v).xfer = s.xfer := rfl

@[simp] theorem doneRead_commands (s : State) (a : Addr) (v : Word) :
    (doneRead s a v).commands = s.commands := rfl

@[simp] theorem doneRead_events (s : State) (a : Addr) (v : Word) :
    (doneRead s a v).events = s.events := rfl

@[simp] theorem doneRead_svDraw (s : State) (a : Addr) (v : Word) :
    (doneRead s a v).svDraw = s.svDraw := rfl

@[simp] theorem doneRead_ci (s : State) (a : Addr) (v : Word) :
    (doneRead s a v).ci = s.ci + 1 := rfl

@[simp] theorem doneRead_busy (s : State) (a : Addr) (v : Word) :
    (doneRead s a v).busy = false := rfl

@[simp] theorem doneRead_resValid (s : State) (a : Addr) (v : Word) :
    (doneRead s a v).resValid = true := rfl

@[simp] theorem doneRead_res (s : State) (a : Addr) (v : Word) :
    (doneRead s a v).res = resultWord true (nextStatus s (readByte a) 0) v := rfl

@[simp] theorem doneRead_results (s : State) (a : Addr) (v : Word) :
    (doneRead s a v).results = s.results ++ [resultWord true (nextStatus s (readByte a) 0) v] := rfl

@[simp] theorem doneRead_sh (s : State) (a : Addr) (v : Word) :
    (doneRead s a v).sh = s.sh := rfl

@[simp] theorem doneRead_sv (s : State) (a : Addr) (v : Word) :
    (doneRead s a v).sv = s.sv := rfl

@[simp] theorem doneRead_disturb (s : State) (a : Addr) (v : Word) :
    (doneRead s a v).disturb = none := rfl

@[simp] theorem doneRead_draws (s : State) (a : Addr) (v : Word) :
    (doneRead s a v).draws = s.draws + 1 := rfl

@[simp] theorem doneRead_moments (s : State) (a : Addr) (v : Word) :
    (doneRead s a v).moments = s.moments + 3 := rfl

@[simp] theorem doneRead_rpl (s : State) (a : Addr) (v : Word) :
    (doneRead s a v).rpl =
      replyTakes s.cfg (accept s).chip (s.moments + 1) (arrives (accept s) (packDatagram (readByte a) 0)) := rfl

@[simp] theorem doneRead_chip (s : State) (a : Addr) (v : Word) :
    (doneRead s a v).chip = chipNext (accept s) (packDatagram (readByte a) 0) := rfl

@[simp] theorem doneWrite_cfg (s : State) (a : Addr) (w : Word) :
    (doneWrite s a w).cfg = s.cfg := rfl

@[simp] theorem doneWrite_xfer (s : State) (a : Addr) (w : Word) :
    (doneWrite s a w).xfer = s.xfer := rfl

@[simp] theorem doneWrite_commands (s : State) (a : Addr) (w : Word) :
    (doneWrite s a w).commands = s.commands := rfl

@[simp] theorem doneWrite_events (s : State) (a : Addr) (w : Word) :
    (doneWrite s a w).events = s.events := rfl

@[simp] theorem doneWrite_svDraw (s : State) (a : Addr) (w : Word) :
    (doneWrite s a w).svDraw = s.svDraw := rfl

@[simp] theorem doneWrite_ci (s : State) (a : Addr) (w : Word) :
    (doneWrite s a w).ci = s.ci + 1 := rfl

@[simp] theorem doneWrite_busy (s : State) (a : Addr) (w : Word) :
    (doneWrite s a w).busy = false := rfl

@[simp] theorem doneWrite_resValid (s : State) (a : Addr) (w : Word) :
    (doneWrite s a w).resValid = true := rfl

@[simp] theorem doneWrite_res (s : State) (a : Addr) (w : Word) :
    (doneWrite s a w).res = resultWord true (nextStatus s (writeByte a) w) 0 := rfl

@[simp] theorem doneWrite_results (s : State) (a : Addr) (w : Word) :
    (doneWrite s a w).results = s.results ++ [resultWord true (nextStatus s (writeByte a) w) 0] := rfl

@[simp] theorem doneWrite_sh (s : State) (a : Addr) (w : Word) :
    (doneWrite s a w).sh = s.sh.write a w := rfl

@[simp] theorem doneWrite_sv (s : State) (a : Addr) (w : Word) :
    (doneWrite s a w).sv = s.sv := rfl

@[simp] theorem doneWrite_disturb (s : State) (a : Addr) (w : Word) :
    (doneWrite s a w).disturb = none := rfl

@[simp] theorem doneWrite_draws (s : State) (a : Addr) (w : Word) :
    (doneWrite s a w).draws = s.draws + 1 := rfl

@[simp] theorem doneWrite_moments (s : State) (a : Addr) (w : Word) :
    (doneWrite s a w).moments = s.moments + 3 := rfl

@[simp] theorem doneWrite_rpl (s : State) (a : Addr) (w : Word) :
    (doneWrite s a w).rpl =
      replyTakes s.cfg (accept s).chip (s.moments + 1) (arrives (accept s) (packDatagram (writeByte a) w)) := rfl

@[simp] theorem doneWrite_chip (s : State) (a : Addr) (w : Word) :
    (doneWrite s a w).chip = chipNext (accept s) (packDatagram (writeByte a) w) := rfl

@[simp] theorem doneWriteCached_cfg (s : State) (a : Addr) (w : Word) (f : FieldId) (z : Int) :
    (doneWriteCached s a w f z).cfg = s.cfg := rfl

@[simp] theorem doneWriteCached_xfer (s : State) (a : Addr) (w : Word) (f : FieldId) (z : Int) :
    (doneWriteCached s a w f z).xfer = s.xfer := rfl

@[simp] theorem doneWriteCached_commands (s : State) (a : Addr) (w : Word) (f : FieldId) (z : Int) :
    (doneWriteCached s a w f z).commands = s.commands := rfl

@[simp] theorem doneWriteCached_events (s : State) (a : Addr) (w : Word) (f : FieldId) (z : Int) :
    (doneWriteCached s a w f z).events = s.events := rfl

@[simp] theorem doneWriteCached_svDraw (s : State) (a : Addr) (w : Word) (f : FieldId) (z : Int) :
    (doneWriteCached s a w f z).svDraw = s.svDraw := rfl

@[simp] theorem doneWriteCached_ci (s : State) (a : Addr) (w : Word) (f : FieldId) (z : Int) :
    (doneWriteCached s a w f z).ci = s.ci + 1 := rfl

@[simp] theorem doneWriteCached_busy (s : State) (a : Addr) (w : Word) (f : FieldId) (z : Int) :
    (doneWriteCached s a w f z).busy = false := rfl

@[simp] theorem doneWriteCached_resValid (s : State) (a : Addr) (w : Word) (f : FieldId) (z : Int) :
    (doneWriteCached s a w f z).resValid = true := rfl

@[simp] theorem doneWriteCached_res (s : State) (a : Addr) (w : Word) (f : FieldId) (z : Int) :
    (doneWriteCached s a w f z).res = resultWord true (nextStatus s (writeByte a) w) 0 := rfl

@[simp] theorem doneWriteCached_results (s : State) (a : Addr) (w : Word) (f : FieldId) (z : Int) :
    (doneWriteCached s a w f z).results = s.results ++ [resultWord true (nextStatus s (writeByte a) w) 0] := rfl

@[simp] theorem doneWriteCached_sh (s : State) (a : Addr) (w : Word) (f : FieldId) (z : Int) :
    (doneWriteCached s a w f z).sh = s.sh.write a w := rfl

@[simp] theorem doneWriteCached_sv (s : State) (a : Addr) (w : Word) (f : FieldId) (z : Int) :
    (doneWriteCached s a w f z).sv = tabPut s.sv f.toNat z := rfl

@[simp] theorem doneWriteCached_disturb (s : State) (a : Addr) (w : Word) (f : FieldId) (z : Int) :
    (doneWriteCached s a w f z).disturb = none := rfl

@[simp] theorem doneWriteCached_draws (s : State) (a : Addr) (w : Word) (f : FieldId) (z : Int) :
    (doneWriteCached s a w f z).draws = s.draws + 1 := rfl

@[simp] theorem doneWriteCached_moments (s : State) (a : Addr) (w : Word) (f : FieldId) (z : Int) :
    (doneWriteCached s a w f z).moments = s.moments + 3 := rfl

@[simp] theorem doneWriteCached_rpl (s : State) (a : Addr) (w : Word) (f : FieldId) (z : Int) :
    (doneWriteCached s a w f z).rpl =
      replyTakes s.cfg (accept s).chip (s.moments + 1) (arrives (accept s) (packDatagram (writeByte a) w)) := rfl

@[simp] theorem doneWriteCached_chip (s : State) (a : Addr) (w : Word) (f : FieldId) (z : Int) :
    (doneWriteCached s a w f z).chip = chipNext (accept s) (packDatagram (writeByte a) w) := rfl

theorem nextStatus_intact (s : State) (ab : Byte) (dw : Word) (h : s.disturb = none) :
    nextStatus s ab dw = Config.freeStatus s.draws := by
  rw [nextStatus, ← exchange_st, exchange_st_intact _ _ _ (by simpa using h), accept_draws]

theorem nextReply_intact (s : State) (a : Addr) (h : s.disturb = none) :
    nextReply s a =
      returnedWord s.cfg s.rpl (chipAfter s.cfg (chipMoved s.cfg s.chip s.moments) (s.moments + 1) (readByte a) 0) s.draws := by
  rw [nextReply, ← exchange_rw, exchange_rw_intact _ _ _ (by simpa using h), chipNext_intact _ _ _ (by simpa using h)]
  rfl

theorem memRead_st (s : State) (a : Addr) : (memRead (accept s) a).st = nextStatus s (readByte a) 0 := exchange_st _ _ _

theorem memRead_rw (s : State) (a : Addr) : (memRead (accept s) a).rw = nextReply s a := exchange_rw _ _ _

theorem memWrite_st (s : State) (a : Addr) (w : Word) : (memWrite (accept s) a w).st = nextStatus s (writeByte a) w :=
  exchange_st _ _ _

@[simp] theorem doneRead_link (s : State) (a : Addr) (v : Word) :
    (doneRead s a v).link =
      forgetBits (frameLink s.link (packDatagram (readByte a) 0) (inbound (accept s) (readByte a) 0)
        (Config.freeMosi (s.draws + 1)) (Config.freeMiso (s.draws + 1))) (Config.freeShifter (s.draws + 1)) := rfl

/-- The tuple that the exchange adds to the wire trace (R6). -/
@[simp] theorem doneRead_wire (s : State) (a : Addr) (v : Word) :
    (doneRead s a v).wire = s.wire ++ [⟨readByte a, 0, nextStatus s (readByte a) 0, nextReply s a⟩] := by
  show (exchange (accept s) (readByte a) 0).state.wire = _
  rw [exchange_wire, exchange_st, exchange_rw]
  rfl

@[simp] theorem doneWrite_link (s : State) (a : Addr) (w : Word) :
    (doneWrite s a w).link =
      forgetBits (frameLink s.link (packDatagram (writeByte a) w) (inbound (accept s) (writeByte a) w)
        (Config.freeMosi (s.draws + 1)) (Config.freeMiso (s.draws + 1))) (Config.freeShifter (s.draws + 1)) := rfl

/-- The tuple that the exchange adds to the wire trace (R6). -/
@[simp] theorem doneWrite_wire (s : State) (a : Addr) (w : Word) :
    (doneWrite s a w).wire = s.wire ++ [⟨writeByte a, w, nextStatus s (writeByte a) w, (inbound (accept s) (writeByte a) w).extractLsb' 0 32⟩] := by
  show (exchange (accept s) (writeByte a) w).state.wire = _
  rw [exchange_wire, exchange_st, exchange_rw]
  rfl

@[simp] theorem doneWriteCached_link (s : State) (a : Addr) (w : Word) (f : FieldId) (z : Int) :
    (doneWriteCached s a w f z).link =
      forgetBits (frameLink s.link (packDatagram (writeByte a) w) (inbound (accept s) (writeByte a) w)
        (Config.freeMosi (s.draws + 1)) (Config.freeMiso (s.draws + 1))) (Config.freeShifter (s.draws + 1)) := rfl

/-- The tuple that the exchange adds to the wire trace (R6). -/
@[simp] theorem doneWriteCached_wire (s : State) (a : Addr) (w : Word) (f : FieldId) (z : Int) :
    (doneWriteCached s a w f z).wire = s.wire ++ [⟨writeByte a, w, nextStatus s (writeByte a) w, (inbound (accept s) (writeByte a) w).extractLsb' 0 32⟩] := by
  show (exchange (accept s) (writeByte a) w).state.wire = _
  rw [exchange_wire, exchange_st, exchange_rw]
  rfl

theorem execRdreg_wo (a : Addr) (x : Word) (s : State) (h : accOf s.cfg a = some .wo) :
    execRdreg a x s = .next (doneSilent s (readSh s a)) := by
  simp only [execRdreg, h]
  rfl

theorem execRdreg_readable (a : Addr) (x : Word) (s : State) (h : readable s.cfg a = true) :
    execRdreg a x s = .next (doneRead s a (nextReply s a)) := by
  rcases (readable_iff _ _).mp h with h | h <;>
    simp only [execRdreg, h, doneRead, memRead_st, memRead_rw]

theorem execWrreg_writable (a : Addr) (v : Word) (s : State) (h : writable s.cfg a = true) :
    execWrreg a v s = .next (doneWrite s a v) := by
  rcases (writable_iff _ _).mp h with h | h <;>
    simp only [execWrreg, h, doneWrite, mergeAndWrite, mergeWord_allOnes, memWrite_st]

/-- What GETF returns of the word read from a readable register (R111, R97, R99). -/
def getfVal (s : State) (d : Field) : Word :=
  trunc32 (decodeField d (nextReply s d.reg) (Config.freeDecode s.draws).toInt)

theorem getReadable_eq (d : Field) (s : State) : getReadable d s = doneRead s d.reg (getfVal s d) := by
  simp only [getReadable, doneRead, memRead_st, memRead_rw, getfVal]

theorem execGetf_wo (f : FieldId) (x : Word) (s : State) (d : Field) (hd : fieldOf s.cfg f = some d)
    (h : accOf s.cfg d.reg = some .wo) : execGetf f x s = .next (doneSilent s (trunc32 (readSv s f))) := by
  simp only [execGetf, hd, h]
  rfl

theorem execGetf_readable (f : FieldId) (x : Word) (s : State) (d : Field) (hd : fieldOf s.cfg f = some d)
    (h : readable s.cfg d.reg = true) : execGetf f x s = .next (doneRead s d.reg (getfVal s d)) := by
  rcases (readable_iff _ _).mp h with h | h <;> simp only [execGetf, hd, h, getReadable_eq]

/-- The merged word that an effective SETF of `z` sends (R110, R80). -/
def setfWord (s : State) (d : Field) (z : Int) : Word :=
  mergeWord (readSh s d.reg) (encodeField d z).bits (encodeField d z).mask

theorem setField_closed (f : FieldId) (d : Field) (z : Int) (b : Bool) (s : State)
    (h : gateOpen d (readSh s d.reg) = false) : setField f d z b s = doneSilent s 0 := by
  simp only [setField, h]
  rfl

theorem setField_open_rw (f : FieldId) (d : Field) (z : Int) (s : State)
    (h : gateOpen d (readSh s d.reg) = true) : setField f d z false s = doneWrite s d.reg (setfWord s d z) := by
  simp only [setField, h, if_true, doneWrite, setfWord, mergeAndWrite, memWrite_st, readSh_accept]
  rfl

theorem setField_open_wo (f : FieldId) (d : Field) (z : Int) (s : State) (h : gateOpen d (readSh s d.reg) = true) :
    setField f d z true s = doneWriteCached s d.reg (setfWord s d z) f (cachedValue s.cfg d z) := by
  simp only [setField, h, if_true, doneWriteCached, setfWord, mergeAndWrite, memWrite_st, readSh_accept]

theorem execSetf_wo (f : FieldId) (z : Word) (s : State) (d : Field) (hd : fieldOf s.cfg f = some d)
    (h : accOf s.cfg d.reg = some .wo) : execSetf f z s = .next (setField f d (sext32 z) true s) := by
  simp only [execSetf, hd, h]

theorem execSetf_rw (f : FieldId) (z : Word) (s : State) (d : Field) (hd : fieldOf s.cfg f = some d)
    (h : accOf s.cfg d.reg = some .rw) : execSetf f z s = .next (setField f d (sext32 z) false s) := by
  simp only [execSetf, hd, h]

/-- SETF with the gate closed, of a field of a write-capable register. -/
theorem execSetf_closed (f : FieldId) (z : Word) (s : State) (d : Field) (hd : fieldOf s.cfg f = some d)
    (h : writable s.cfg d.reg = true) (hg : gateOpen d (readSh s d.reg) = false) :
    execSetf f z s = .next (doneSilent s 0) := by
  rcases (writable_iff _ _).mp h with ha | ha
  · rw [execSetf_wo _ _ _ _ hd ha, setField_closed _ _ _ _ _ hg]
  · rw [execSetf_rw _ _ _ _ hd ha, setField_closed _ _ _ _ _ hg]

/-- The `txn` bit of a result word. -/
@[simp] theorem resTxn_resultWord (x : Bool) (st : Byte) (v : Word) : resTxn (resultWord x st v) = x := by
  show (BitVec.ofBool x ++ st ++ v : BitVec (1 + 8 + 32)).getLsbD 40 = x
  rw [BitVec.getLsbD_append, BitVec.getLsbD_append]
  simp

/-- The `st` byte of a result word. -/
@[simp] theorem resSt_resultWord (x : Bool) (st : Byte) (v : Word) : resSt (resultWord x st v) = st := by
  apply BitVec.eq_of_getLsbD_eq
  intro i hi
  unfold resSt
  rw [BitVec.getLsbD_extractLsb']
  show (decide (i < 8) && (BitVec.ofBool x ++ st ++ v : BitVec (1 + 8 + 32)).getLsbD (32 + i)) = _
  rw [BitVec.getLsbD_append, BitVec.getLsbD_append]
  simp [hi]

/-- The `val` word of a result word. -/
@[simp] theorem resVal_resultWord (x : Bool) (st : Byte) (v : Word) : resVal (resultWord x st v) = v := by
  apply BitVec.eq_of_getLsbD_eq
  intro i hi
  unfold resVal
  rw [BitVec.getLsbD_extractLsb']
  show (decide (i < 32) && (BitVec.ofBool x ++ st ++ v : BitVec (1 + 8 + 32)).getLsbD (0 + i)) = _
  rw [BitVec.getLsbD_append]
  simp [hi]

/-- Everything an instruction can do when it answers a next state: a command ends with no exchange, after a read, after a
write, or after a write that also caches a value; a datagram is one exchange. -/
inductive Effect (i : Instr) (s t : State) : Prop where
  | silent (v : Word) (hc : isCommand i = true) (ht : t = doneSilent s v)
  | read (a : Addr) (v : Word) (hc : isCommand i = true) (ha : readable s.cfg a = true) (ht : t = doneRead s a v)
  | write (a : Addr) (w : Word) (hc : isCommand i = true) (ha : writable s.cfg a = true) (ht : t = doneWrite s a w)
  | writeCached (d : Field) (w : Word) (f : FieldId) (z : Int) (hc : isCommand i = true)
      (hd : fieldOf s.cfg f = some d) (ha : accOf s.cfg d.reg = some .wo) (ht : t = doneWriteCached s d.reg w f z)
  | datagram (ab : Byte) (dw : Word) (hc : isCommand i = false) (ht : t = datagramDone (exchange s ab dw).state)

theorem setField_effect (f : FieldId) (z : Word) (s t : State) (d : Field) (hd : fieldOf s.cfg f = some d)
    (h : execSetf f z s = .next t) : Effect (.setf f z) s t := by
  rcases ha : accOf s.cfg d.reg with _ | acc
  · simp [execSetf, hd, ha] at h
  cases acc with
  | ro => simp [execSetf, hd, ha] at h
  | wo =>
    rw [execSetf_wo _ _ _ _ hd ha] at h
    cases hg : gateOpen d (readSh s d.reg) with
    | false =>
      rw [setField_closed _ _ _ _ _ hg] at h
      cases h
      exact .silent 0 rfl rfl
    | true =>
      rw [setField_open_wo _ _ _ _ hg] at h
      cases h
      exact .writeCached d _ f _ rfl hd ha rfl
  | rw =>
    rw [execSetf_rw _ _ _ _ hd ha] at h
    cases hg : gateOpen d (readSh s d.reg) with
    | false =>
      rw [setField_closed _ _ _ _ _ hg] at h
      cases h
      exact .silent 0 rfl rfl
    | true =>
      rw [setField_open_rw _ _ _ _ hg] at h
      cases h
      exact .write d.reg _ rfl ((writable_iff _ _).mpr (.inr ha)) rfl

/-- The inversion lemma of `exec`. -/
theorem exec_effect (i : Instr) (s t : State) (h : exec i s = .next t) : Effect i s t := by
  cases i with
  | rdreg a x =>
    replace h : execRdreg a x s = .next t := h
    rcases ha : accOf s.cfg a with _ | acc
    · simp [execRdreg, ha] at h
    cases acc with
    | wo =>
      rw [execRdreg_wo _ _ _ ha] at h
      cases h
      exact .silent _ rfl rfl
    | ro =>
      have hr := (readable_iff s.cfg a).mpr (.inl ha)
      rw [execRdreg_readable _ _ _ hr] at h
      cases h
      exact .read a _ rfl hr rfl
    | rw =>
      have hr := (readable_iff s.cfg a).mpr (.inr ha)
      rw [execRdreg_readable _ _ _ hr] at h
      cases h
      exact .read a _ rfl hr rfl
  | wrreg a v =>
    replace h : execWrreg a v s = .next t := h
    rcases ha : accOf s.cfg a with _ | acc
    · simp [execWrreg, ha] at h
    cases acc with
    | ro => simp [execWrreg, ha] at h
    | wo =>
      have hw := (writable_iff s.cfg a).mpr (.inl ha)
      rw [execWrreg_writable _ _ _ hw] at h
      cases h
      exact .write a v rfl hw rfl
    | rw =>
      have hw := (writable_iff s.cfg a).mpr (.inr ha)
      rw [execWrreg_writable _ _ _ hw] at h
      cases h
      exact .write a v rfl hw rfl
  | getf f x =>
    replace h : execGetf f x s = .next t := h
    rcases hd : fieldOf s.cfg f with _ | d
    · simp [execGetf, hd] at h
    rcases ha : accOf s.cfg d.reg with _ | acc
    · simp [execGetf, hd, ha] at h
    cases acc with
    | wo =>
      rw [execGetf_wo _ _ _ _ hd ha] at h
      cases h
      exact .silent _ rfl rfl
    | ro =>
      have hr := (readable_iff s.cfg d.reg).mpr (.inl ha)
      rw [execGetf_readable _ _ _ _ hd hr] at h
      cases h
      exact .read d.reg _ rfl hr rfl
    | rw =>
      have hr := (readable_iff s.cfg d.reg).mpr (.inr ha)
      rw [execGetf_readable _ _ _ _ hd hr] at h
      cases h
      exact .read d.reg _ rfl hr rfl
  | setf f z =>
    rcases hd : fieldOf s.cfg f with _ | d
    · replace h : execSetf f z s = .next t := h
      simp [execSetf, hd] at h
    exact setField_effect f z s t d hd h
  | dgramRd a d =>
    cases h
    exact .datagram _ _ rfl rfl
  | dgramWr a d =>
    cases h
    exact .datagram _ _ rfl rfl

/-- The shadow words after a command that wrote. -/
theorem readSh_doneWrite (s : State) (a : Addr) (w : Word) (b : Addr) :
    readSh (doneWrite s a w) b = if b = a then w else readSh s b := readSh_writeSh _ _ _ _

theorem readSv_doneWrite (s : State) (a : Addr) (w : Word) (f : FieldId) :
    readSv (doneWrite s a w) f = readSv s f := rfl

theorem readSh_doneWriteCached (s : State) (a : Addr) (w : Word) (f : FieldId) (z : Int) (b : Addr) :
    readSh (doneWriteCached s a w f z) b = if b = a then w else readSh s b := readSh_writeSh _ _ _ _

/-- The cached values after an effective SETF of a write-only register's field. -/
theorem readSv_doneWriteCached (s : State) (a : Addr) (w : Word) (f : FieldId) (z : Int) (g : FieldId) :
    readSv (doneWriteCached s a w f z) g = if g = f then z else readSv s g := readSv_writeSv _ _ _ _

/-- Everything WRREG can do when it answers a next state. -/
theorem execWrreg_next (s t : State) (a : Addr) (v : Word) (h : execWrreg a v s = .next t) :
    writable s.cfg a = true ∧ t = doneWrite s a v := by
  have hw : writable s.cfg a = true := by
    rcases ha : accOf s.cfg a with _ | (_ | _ | _) <;> simp [execWrreg, ha] at h <;> simp [writable, ha]
  have e := (execWrreg_writable a v s hw).symm.trans h
  cases e
  exact ⟨hw, rfl⟩

/-- Everything SETF can do when it answers a next state: dropped by a closed gate, or one write, with the cached value stored
where the register is write-only. -/
theorem execSetf_next (s t : State) (f : FieldId) (z : Word) (h : execSetf f z s = .next t) :
    ∃ d, fieldOf s.cfg f = some d ∧ writable s.cfg d.reg = true ∧
      ((gateOpen d (readSh s d.reg) = false ∧ t = doneSilent s 0) ∨
        (gateOpen d (readSh s d.reg) = true ∧
          ((accOf s.cfg d.reg = some .rw ∧ t = doneWrite s d.reg (setfWord s d (sext32 z))) ∨
            (accOf s.cfg d.reg = some .wo ∧
              t = doneWriteCached s d.reg (setfWord s d (sext32 z)) f (cachedValue s.cfg d (sext32 z)))))) := by
  rcases hd : fieldOf s.cfg f with _ | d
  · simp [execSetf, hd] at h
  refine ⟨d, rfl, ?_⟩
  rcases ha : accOf s.cfg d.reg with _ | (_ | _ | _)
  · simp [execSetf, hd, ha] at h
  · simp [execSetf, hd, ha] at h
  · refine ⟨(writable_iff _ _).mpr (.inl ha), ?_⟩
    rw [execSetf_wo _ _ _ _ hd ha] at h
    cases hg : gateOpen d (readSh s d.reg)
    · rw [setField_closed _ _ _ _ _ hg] at h
      cases h
      simp
    · rw [setField_open_wo _ _ _ _ hg] at h
      cases h
      simp
  · refine ⟨(writable_iff _ _).mpr (.inr ha), ?_⟩
    rw [execSetf_rw _ _ _ _ hd ha] at h
    cases hg : gateOpen d (readSh s d.reg)
    · rw [setField_closed _ _ _ _ _ hg] at h
      cases h
      simp
    · rw [setField_open_rw _ _ _ _ hg] at h
      cases h
      simp

/-- No instruction faults (R140). -/
theorem exec_ne_fault (i : Instr) (s : State) (r : Fault) : exec i s ≠ .fault r := by cases r

end Sys2Proof.Machine
end

