-- ==== Sys2Proof/Laws/PerInstr.lean ====
section
/-!
SUPPORT. The family EncodesItsRow, one lemma for each constructor: the encoder writes a word of the width of the instruction's
row of spec/opcode_table.json, with the row's match bits under the row's mask, and the operands in the other bits.
-/
namespace Sys2Proof.Laws.EncodesItsRow

/-- The encoded word belongs to the instruction's row (R51, R56; spec/30_encoding.md section 5). -/
def Statement (i : Instr) : Prop :=
  match i with
  | .rdreg a arg => ∃ w : CommandWord, encode i = .command w ∧ w &&& 0xFF8000000000 = 0x010000000000 ∧
      w &&& 0x007FFFFFFFFF = packCommand 0 (regSel a) arg
  | .wrreg a v => ∃ w : CommandWord, encode i = .command w ∧ w &&& 0xFF8000000000 = 0x020000000000 ∧
      w &&& 0x007FFFFFFFFF = packCommand 0 (regSel a) v
  | .getf f arg => ∃ w : CommandWord, encode i = .command w ∧ w &&& 0xFF0000000000 = 0x030000000000 ∧
      w &&& 0x00FFFFFFFFFF = packCommand 0 f arg
  | .setf f z => ∃ w : CommandWord, encode i = .command w ∧ w &&& 0xFF0000000000 = 0x040000000000 ∧
      w &&& 0x00FFFFFFFFFF = packCommand 0 f z
  | .dgramRd a d => ∃ w : Datagram, encode i = .datagram w ∧ w &&& 0x8000000000 = 0x0000000000 ∧
      w &&& 0x7FFFFFFFFF = packDatagram (readByte a) d
  | .dgramWr a d => ∃ w : Datagram, encode i = .datagram w ∧ w &&& 0x8000000000 = 0x8000000000 ∧
      w &&& 0x7FFFFFFFFF = packDatagram (readByte a) d

theorem packCommand_and (op sel : Byte) (arg : Word) (op' sel' : Byte) (arg' : Word) :
    packCommand op sel arg &&& packCommand op' sel' arg' = packCommand (op &&& op') (sel &&& sel') (arg &&& arg') := by
  show ((op ++ sel ++ arg) &&& (op' ++ sel' ++ arg') : BitVec (8 + 8 + 32)) = _
  rw [BitVec.and_append, BitVec.and_append]
  rfl

theorem packDatagram_and (ab : Byte) (dw : Word) (ab' : Byte) (dw' : Word) :
    packDatagram ab dw &&& packDatagram ab' dw' = packDatagram (ab &&& ab') (dw &&& dw') := by
  show ((ab ++ dw) &&& (ab' ++ dw') : BitVec (8 + 32)) = _
  rw [BitVec.and_append]
  rfl

theorem regSel_and (a : Addr) : regSel a &&& 0x80 = 0 ∧ regSel a &&& 0x7F = regSel a := by revert a; decide

theorem readByte_and (a : Addr) : readByte a &&& 0x80 = 0 ∧ readByte a &&& 0x7F = readByte a := by revert a; decide

theorem writeByte_and (a : Addr) : writeByte a &&& 0x80 = 0x80 ∧ writeByte a &&& 0x7F = readByte a := by revert a; decide

theorem masks : (0xFF8000000000 : CommandWord) = packCommand 0xFF 0x80 0 ∧
    (0x007FFFFFFFFF : CommandWord) = packCommand 0 0x7F (BitVec.allOnes 32) ∧
    (0xFF0000000000 : CommandWord) = packCommand 0xFF 0 0 ∧
    (0x00FFFFFFFFFF : CommandWord) = packCommand 0 0xFF (BitVec.allOnes 32) ∧
    (0x8000000000 : Datagram) = packDatagram 0x80 0 ∧
    (0x7FFFFFFFFF : Datagram) = packDatagram 0x7F (BitVec.allOnes 32) := by decide

theorem word_and (x : Word) : x &&& 0 = 0 ∧ x &&& BitVec.allOnes 32 = x := ⟨BitVec.and_zero, BitVec.and_allOnes⟩

theorem byte_and (x : Byte) : x &&& 0 = 0 ∧ x &&& 0xFF = x := ⟨BitVec.and_zero, BitVec.and_allOnes⟩

theorem rdreg (a : Addr) (arg : Word) : Statement (.rdreg a arg) := by
  refine ⟨_, rfl, ?_, ?_⟩
  · rw [masks.1, packCommand_and, (regSel_and a).1, (word_and arg).1]
    decide
  · rw [masks.2.1, packCommand_and, (regSel_and a).2, (word_and arg).2, (byte_and 1).1]

theorem wrreg (a : Addr) (v : Word) : Statement (.wrreg a v) := by
  refine ⟨_, rfl, ?_, ?_⟩
  · rw [masks.1, packCommand_and, (regSel_and a).1, (word_and v).1]
    decide
  · rw [masks.2.1, packCommand_and, (regSel_and a).2, (word_and v).2, (byte_and 2).1]

theorem getf (f : FieldId) (arg : Word) : Statement (.getf f arg) := by
  refine ⟨_, rfl, ?_, ?_⟩
  · rw [masks.2.2.1, packCommand_and, (byte_and f).1, (word_and arg).1]
    decide
  · rw [masks.2.2.2.1, packCommand_and, (byte_and f).2, (word_and arg).2, (byte_and 3).1]

theorem setf (f : FieldId) (z : Word) : Statement (.setf f z) := by
  refine ⟨_, rfl, ?_, ?_⟩
  · rw [masks.2.2.1, packCommand_and, (byte_and f).1, (word_and z).1]
    decide
  · rw [masks.2.2.2.1, packCommand_and, (byte_and f).2, (word_and z).2, (byte_and 4).1]

theorem dgramRd (a : Addr) (d : Word) : Statement (.dgramRd a d) := by
  refine ⟨_, rfl, ?_, ?_⟩
  · rw [masks.2.2.2.2.1, packDatagram_and, (readByte_and a).1, (word_and d).1]
    decide
  · rw [masks.2.2.2.2.2, packDatagram_and, (readByte_and a).2, (word_and d).2]

theorem dgramWr (a : Addr) (d : Word) : Statement (.dgramWr a d) := by
  refine ⟨_, rfl, ?_, ?_⟩
  · rw [masks.2.2.2.2.1, packDatagram_and, (writeByte_and a).1, (word_and d).1]
  · rw [masks.2.2.2.2.2, packDatagram_and, (writeByte_and a).2, (word_and d).2]

end Sys2Proof.Laws.EncodesItsRow
end

