-- ==== Sys2Proof/Laws/Step.lean ====
section
/-!
SUPPORT. The inversion lemma of `step`: everything that a step can do when it answers a next state.
-/
namespace Sys2Proof.Machine

/-- Everything a step can do when it answers a next state: it waits, runs an instruction, hangs in its exchange, takes a
reset of the block or of the chip, or its link fails. `es` are the events still to come. -/
inductive StepEffect (s t : State) : Prop where
  | wait (es : List Event) (hes : es = s.events ∨ ∃ n, s.events = .stall n :: es) (ht : t = waiting (afterEvent s es))
  | run (es : List Event) (hes : es = s.events ∨ ∃ n, s.events = .stall n :: es) (i : Instr) (hb : s.busy = false) (hf : fetch s = .instr i)
      (hx : exec i (afterEvent s es) = .next t) (he : Effect i (afterEvent s es) t)
  | hang (es : List Event) (bits : Nat) (hes : s.events = .stall bits :: es) (f : Frame) (hb : s.busy = false)
      (ht : t = stalled (afterEvent s es) bits f)
  | blockReset (es : List Event) (he : s.events = .blockReset :: es)
      (ht : t = Sys2Proof.Machine.blockReset (afterEvent s es))
  | chipReset (es : List Event) (he : s.events = .chipReset :: es)
      (ht : t = Sys2Proof.Machine.chipReset (afterEvent s es))
  | disturb (es : List Event) (d : Disturbance) (he : s.events = .disturb d :: es)
      (ht : t = linkDisturbed (afterEvent s es) d)

@[simp] theorem afterEvent_self (s : State) : afterEvent s s.events = s := rfl

@[simp] theorem fetch_afterEvent (s : State) (es : List Event) : fetch (afterEvent s es) = fetch s := rfl

theorem runPort_effect (s t : State) (es : List Event) (hes : es = s.events ∨ ∃ n, s.events = .stall n :: es)
    (hb : s.busy = false) (h : runPort (afterEvent s es) = .next t) :
    StepEffect s t := by
  unfold runPort at h
  split at h
  · cases h
    exact .wait es hes rfl
  · cases h
  · rename_i i hi
    exact .run es hes i hb (by simpa using hi) h (exec_effect _ _ _ h)

/-- The inversion lemma of `step`. -/
theorem step_effect (s t : State) (h : step s = .next t) : StepEffect s t := by
  unfold step at h
  split at h
  · split at h
    · cases h
      exact .wait s.events (.inl rfl) rfl
    · rename_i hb
      exact runPort_effect s t s.events (.inl rfl) (by simpa using hb) h
  · rename_i es he
    cases h
    exact .blockReset es he rfl
  · rename_i es he
    cases h
    exact .chipReset es he rfl
  · rename_i d es he
    cases h
    exact .disturb es d he rfl
  · rename_i bits es he
    split at h
    · cases h
      exact .wait es (.inr ⟨bits, he⟩) rfl
    · rename_i hb
      have hb : s.busy = false := by simpa using hb
      cases hr : runPort (afterEvent s es) with
      | next u =>
        rw [hr] at h
        simp only [stallOutcome] at h
        split at h
        · cases h
          exact runPort_effect s _ es (.inr ⟨bits, he⟩) hb hr
        · cases h
          exact .hang es bits he _ hb rfl
      | fault r => cases r
      | refused r =>
        rw [hr] at h
        cases h

/-- With the port free and no event, a step runs what the fetch gives. -/
theorem step_of_fetch (s : State) (i : Instr) (he : s.events = []) (hb : s.busy = false) (hf : fetch s = .instr i) :
    step s = exec i s := by
  simp [step, he, hb, runPort, hf]

/-- An instruction writes no configuration, no list of the host and no event. -/
theorem Effect.setting {i : Instr} {s t : State} (h : Effect i s t) :
    t.cfg = s.cfg ∧ t.commands = s.commands ∧ t.events = s.events ∧ t.svDraw = s.svDraw := by
  cases h with
  | silent v hc ht => exact ht ▸ ⟨rfl, rfl, rfl, rfl⟩
  | read a v hc ha ht => exact ht ▸ ⟨rfl, rfl, rfl, rfl⟩
  | write a w hc ha ht => exact ht ▸ ⟨rfl, rfl, rfl, rfl⟩
  | writeCached d w f z hc hd ha ht => exact ht ▸ ⟨rfl, rfl, rfl, rfl⟩
  | datagram ab dw hc ht => exact ht ▸ ⟨rfl, rfl, rfl, rfl⟩

/-- An instruction adds at most one tuple to the wire trace. -/
theorem Effect.wire_grows {i : Instr} {s t : State} (h : Effect i s t) :
    t.wire = s.wire ∨ ∃ f, t.wire = s.wire ++ [f] := by
  cases h with
  | silent v hc ht => exact ht ▸ .inl rfl
  | read a v hc ha ht => exact ht ▸ .inr ⟨_, rfl⟩
  | write a w hc ha ht => exact ht ▸ .inr ⟨_, rfl⟩
  | writeCached d w f z hc hd ha ht => exact ht ▸ .inr ⟨_, rfl⟩
  | datagram ab dw hc ht => exact ht ▸ .inr ⟨_, rfl⟩

/-- What an instruction does to the chip: one exchange of a datagram, from the state as it is or from the accepted one, or
nothing but the passing of time. -/
theorem Effect.chip {i : Instr} {s t : State} (h : Effect i s t) :
    (∃ u d, (u = s ∨ u = accept s) ∧ t.chip = chipNext u d ∧
      t.rpl = replyTakes u.cfg u.chip u.moments (arrives u d) ∧ t.disturb = none) ∨
    (t.chip = chipMoved s.cfg s.chip s.moments ∧ t.rpl = s.rpl ∧ t.disturb = s.disturb) := by
  cases h with
  | silent v hc ht => exact ht ▸ .inr ⟨rfl, rfl, rfl⟩
  | read a v hc ha ht => exact ht ▸ .inl ⟨accept s, _, .inr rfl, rfl, rfl, rfl⟩
  | write a w hc ha ht => exact ht ▸ .inl ⟨accept s, _, .inr rfl, rfl, rfl, rfl⟩
  | writeCached d w f z hc hd ha ht => exact ht ▸ .inl ⟨accept s, _, .inr rfl, rfl, rfl, rfl⟩
  | datagram ab dw hc ht => exact ht ▸ .inl ⟨s, _, .inl rfl, rfl, rfl, rfl⟩

/-- What a reset of the block that finds a frame in progress does to the chip's registers, and to its reply word. -/
theorem chipCut_cases (s : State) :
    ((chipCut s).chip = s.chip ∧ (chipCut s).rpl = s.rpl ∧ (chipCut s).disturb = s.disturb) ∨
    ((chipCut s).rpl = .unspecified ∧ (chipCut s).disturb = none ∧
      ((chipCut s).chip = s.chip ∨ ∃ a v, (chipCut s).chip = s.chip.write a v)) := by
  unfold chipCut
  split
  · refine .inr ⟨rfl, rfl, ?_⟩
    show cutWords s = s.chip ∨ ∃ a v, cutWords s = s.chip.write a v
    unfold cutWords
    split
    · exact .inl rfl
    · exact .inr ⟨_, _, rfl⟩
  · exact .inl ⟨rfl, rfl, rfl⟩

@[simp] theorem chipCut_cfg (s : State) : (chipCut s).cfg = s.cfg := by
  unfold chipCut
  split <;> rfl

end Sys2Proof.Machine
end

