-- ==== Sys2Proof/Machine/Assembler.lean ====
section
/-!
DEFINITION. The assembler of spec/30_encoding.md R62 and the pseudo-commands of R63 (D34): a line of text, its syntax tree, and
the command words it stands for.
-/
namespace Sys2Proof.Machine

/-- A register operand (R62): a name of `RegTable`, or `@` and an address. -/
inductive RegOperand where
  | name (n : List Char)
  | addr (a : Nat)
  deriving DecidableEq, Repr

/-- A field operand (R62): a name of `FieldTable`, or `#` and an id. -/
inductive FieldOperand where
  | name (n : List Char)
  | id (f : Nat)
  deriving DecidableEq, Repr

/-- A line of a command list: one of the four commands (R62) or a pseudo-command (R63). -/
inductive Asm where
  | rdreg (r : RegOperand)
  | wrreg (r : RegOperand) (v : Int)
  | getf (f : FieldOperand)
  | setf (f : FieldOperand) (v : Int)
  | prime (r : RegOperand)
  | rdreg2 (r : RegOperand)
  | getf2 (f : FieldOperand)
  | setbit (f : FieldOperand)
  | clrbit (f : FieldOperand)
  deriving DecidableEq, Repr

/-- The address that a register operand names. -/
def asmAddr (c : Config) : RegOperand → Option Addr
  | .name n => (c.regTable.find? (fun r => r.name.toList == n)).map (fun r => r.addr)
  | .addr a => if a < 128 then some (BitVec.ofNat 7 a) else none

/-- The id that a field operand names. -/
def asmField (c : Config) : FieldOperand → Option FieldId
  | .name n => (c.fieldTable.find? (fun d => d.name.toList == n)).map (fun d => d.id)
  | .id f => if f < 256 then some (BitVec.ofNat 8 f) else none

/-- The `u32` value of WRREG (R62). -/
def asmWord (v : Int) : Option Word :=
  if 0 ≤ v ∧ v < 4294967296 then some (BitVec.ofInt 32 v) else none

/-- The value of SETF, in -2^31 .. 2^31-1 (R62). -/
def asmSemantic (v : Int) : Option Word :=
  if -2147483648 ≤ v ∧ v < 2147483648 then some (BitVec.ofInt 32 v) else none

/-- The instructions of a line (R62, R63): the assembler writes zero in the ignored argument of RDREG and GETF. -/
def assemble (c : Config) : Asm → Option (List Instr)
  | .rdreg r => (asmAddr c r).map (fun a => [.rdreg a 0])
  | .wrreg r v => (asmAddr c r).bind (fun a => (asmWord v).map (fun w => [.wrreg a w]))
  | .getf f => (asmField c f).map (fun i => [.getf i 0])
  | .setf f v => (asmField c f).bind (fun i => (asmSemantic v).map (fun w => [.setf i w]))
  | .prime r => (asmAddr c r).map (fun a => [.rdreg a 0])
  | .rdreg2 r => (asmAddr c r).map (fun a => [.rdreg a 0, .rdreg a 0])
  | .getf2 f => (asmField c f).map (fun i => [.getf i 0, .getf i 0])
  | .setbit f => (asmField c f).map (fun i => [.setf i 1])
  | .clrbit f => (asmField c f).map (fun i => [.setf i 0])

/-- A digit in base `b`. -/
def digitOf (b : Nat) (ch : Char) : Option Nat :=
  let n := ch.toNat
  let d := if 48 ≤ n ∧ n ≤ 57 then n - 48 else if 65 ≤ n ∧ n ≤ 70 then n - 55 else if 97 ≤ n ∧ n ≤ 102 then n - 87 else 99
  if d < b then some d else none

/-- Digits in base `b`, most significant first, after the value `acc`. -/
def digitsFrom (b : Nat) : Nat → List Char → Option Nat
  | acc, [] => some acc
  | acc, ch :: t => (digitOf b ch).bind (fun d => digitsFrom b (acc * b + d) t)

/-- An unsigned number: decimal, or `0x` and hexadecimal digits (R62). -/
def parseNat : List Char → Option Nat
  | [] => none
  | '0' :: 'x' :: [] => none
  | '0' :: 'x' :: t => digitsFrom 16 0 t
  | t => digitsFrom 10 0 t

/-- A value: a decimal integer with optional sign, or `0x` hexadecimal (R62). -/
def parseValue : List Char → Option Int
  | '-' :: '0' :: 'x' :: _ => none
  | '+' :: '0' :: 'x' :: _ => none
  | '-' :: t => (parseNat t).map (fun n => -(n : Int))
  | '+' :: t => (parseNat t).map (fun n => (n : Int))
  | t => (parseNat t).map (fun n => (n : Int))

/-- A register operand as text. -/
def parseReg : List Char → Option RegOperand
  | [] => none
  | '@' :: t => (parseNat t).map .addr
  | t => some (.name t)

/-- A field operand as text. -/
def parseField : List Char → Option FieldOperand
  | [] => none
  | '#' :: t => (parseNat t).map .id
  | t => some (.name t)

/-- The words of a line: cut at the comment sign, separated by blanks and commas; `w` is the word being read, reversed. -/
def lineWords : List Char → List Char → List (List Char)
  | w, [] => if w.isEmpty then [] else [w.reverse]
  | w, ch :: t =>
    if ch == ';' then (if w.isEmpty then [] else [w.reverse])
    else if ch == ' ' || ch == ',' then (if w.isEmpty then lineWords [] t else w.reverse :: lineWords [] t)
    else lineWords (ch :: w) t

/-- A line with its words read (R62, R63); `none` where it is no command. -/
def parseWords : List (List Char) → Option Asm
  | [op, x] =>
    if op == "RDREG".toList then (parseReg x).map .rdreg
    else if op == "GETF".toList then (parseField x).map .getf
    else if op == "PRIME".toList then (parseReg x).map .prime
    else if op == "RDREG2".toList then (parseReg x).map .rdreg2
    else if op == "GETF2".toList then (parseField x).map .getf2
    else if op == "SETBIT".toList then (parseField x).map .setbit
    else if op == "CLRBIT".toList then (parseField x).map .clrbit
    else none
  | [op, x, v] =>
    if op == "WRREG".toList then (parseReg x).bind (fun r => (parseValue v).map (fun z => .wrreg r z))
    else if op == "SETF".toList then (parseField x).bind (fun f => (parseValue v).map (fun z => .setf f z))
    else none
  | _ => none

/-- A line of text. -/
def parseLine (t : List Char) : Option Asm := parseWords (lineWords [] t)

/-- The command word of an instruction of the host port; a datagram has none. -/
def commandOf (i : Instr) : Option CommandWord :=
  match encode i with
  | .command w => some w
  | .datagram _ => none

/-- The command words of a line of text (R62, R63). -/
def assembleLine (c : Config) (t : List Char) : Option (List CommandWord) :=
  (parseLine t).bind (fun x => (assemble c x).map (fun l => l.filterMap commandOf))

end Sys2Proof.Machine
end

