-- ==== Sys2Proof/Tests/Slice0.lean ====
section
/-!
SUPPORT. The model's own tests: well-formedness, decoding, the vectors of spec/95_test_vectors.md (each test names its rows), and
a witness for each statement that has hypotheses.
-/
namespace Sys2Proof.Machine.Tests

/-! ### Table T-SYN (spec/95_test_vectors.md section 0) and small states -/

def synA : Field := ⟨0x80, "A", 0x20, 4, 3, .clamp 0 7, some ⟨14, false⟩⟩
def synB : Field := ⟨0x81, "B", 0x20, 4, 3, .bias (-4) 3 4, some ⟨14, true⟩⟩
def synMode : Field := ⟨0x82, "MODE", 0x20, 14, 1, .clamp 0 1, none⟩
def synQ : Field := ⟨0x83, "Q", 0x20, 15, 2, .quant [54, 36, 24, 16] .up, none⟩
def synR : Field := ⟨0x84, "R", 0x21, 0, 8, .clamp 0 255, none⟩
def synS : Field := ⟨0x85, "S", 0x22, 28, 4, .bias (-8) 7 8, none⟩
def synT : Field := ⟨0x86, "T", 0x21, 8, 2, .quant [9, 5, 1] .down, none⟩

def syn : Config :=
  { configDefault with
    regTable := [⟨0x20, "W", .wo⟩, ⟨0x21, "X", .rw⟩, ⟨0x22, "Y", .ro⟩]
    fieldTable := [synA, synB, synMode, synQ, synR, synS, synT]
    chipChanges := [] }

/-- A fresh block with T-SYN, and the shadow word of 0x20 at `w`. -/
def synState (w : Word) : State := { State.reset with cfg := syn, sh := Memory.write [] 0x20 w }

/-- A fresh block with T-SYN, 0x20 = 1 in shadow and chip, and a link that fails. -/
def failState (g : Delivery) : State := { synState 1 with chip := [(0x20, 1)], disturb := some ⟨g, some 0x0912345678⟩ }

/-- A fresh block with the default tables, and the shadow word of CHOPCONF at `w`. -/
def chopState (w : Word) : State := { State.reset with sh := Memory.write [] 0x6C w }

/-- The next state, if there is one. -/
def out (o : Host.Outcome State Fault Refusal) : Option State :=
  match o with
  | .next t => some t
  | .fault _ => none
  | .refused _ => none

/-- The refusal, if there is one. -/
def refusal (o : Host.Outcome State Fault Refusal) : Option Refusal :=
  match o with
  | .next _ => none
  | .fault _ => none
  | .refused r => some r

/-- What one instruction sends, and the shadow word of `a` after it. -/
def sends (i : Instr) (s : State) (a : Addr) : Option (List (Byte × Word) × Word) :=
  (out (exec i s)).map (fun t => (sentFrames t.wire, readSh t a))

/-- The cached values after one instruction. -/
def cached (i : Instr) (s : State) : Option (Tab Int) := (out (exec i s)).map (fun t => t.sv)

/-! ### Well-formedness -/

theorem test_wf_syn : syn.wf = true := by decide

set_option maxRecDepth 100000 in
theorem test_wf_default : configDefault.wf = true := by decide

/-- R120 part 1, a register twice. -/
theorem test_wf_register_twice : Config.wf { syn with regTable := ⟨0x20, "Z", .ro⟩ :: syn.regTable } = false := by decide

/-- R120 part 2, a field id twice. -/
theorem test_wf_field_twice : Config.wf { syn with fieldTable := { synQ with off := 20 } :: syn.fieldTable } = false := by decide

/-- R120 part 3: register not in the table; width 0; a field past bit 31. -/
theorem test_wf_place : Field.wf syn { synR with reg := 0x23 } = false ∧ Field.wf syn { synR with width := 0 } = false ∧
    Field.wf syn { synR with off := 25 } = false := by decide

/-- R120 part 4: negative minimum; minimum above maximum; maximum above the largest code. -/
theorem test_wf_clamp : Policy.wf 8 (.clamp (-1) 5) = false ∧ Policy.wf 8 (.clamp 6 5) = false ∧
    Policy.wf 8 (.clamp 0 256) = false := by decide

/-- R120 part 5: minimum above maximum; codes outside the field; constants outside 32 bits. -/
theorem test_wf_bias : Policy.wf 4 (.bias 3 2 0) = false ∧ Policy.wf 4 (.bias (-3) 2 2) = false ∧
    Policy.wf 4 (.bias (-3) 13 3) = false ∧ Policy.wf 4 (.bias (-2147483649) (-2147483649) 2147483649) = false := by decide

/-- R120 part 6: not descending; a negative member; a member of 2^31; no member; more members than codes. -/
theorem test_wf_quant : Policy.wf 2 (.quant [5, 5] .down) = false ∧ Policy.wf 2 (.quant [5, -1] .down) = false ∧
    Policy.wf 2 (.quant [2147483648] .up) = false ∧ Policy.wf 2 (.quant [] .up) = false ∧
    Policy.wf 2 (.quant [5, 4, 3, 2, 1] .up) = false := by decide

/-- R120 part 7: the gate bit outside the word, or inside the field. -/
theorem test_wf_gate : Gate.wf 4 3 ⟨32, true⟩ = false ∧ Gate.wf 4 3 ⟨4, true⟩ = false ∧ Gate.wf 4 3 ⟨6, true⟩ = false ∧
    Gate.wf 4 3 ⟨7, true⟩ = true := by decide

/-- R120 part 8: an overlap that is no pair; the pair itself is allowed. -/
theorem test_wf_overlap : FieldTable.overlapsWf [synA, { synB with gate := some ⟨14, false⟩ }] = false ∧
    FieldTable.overlapsWf [synR, { synT with off := 7 }] = false ∧ FieldTable.overlapsWf [synA, synB] = true := by decide

/-- R4: a divisor below 2. -/
theorem test_wf_clkdiv : Config.wf { syn with clkDiv := 1 } = false := by decide

/-- R59 (c), (d), (e), (f): an instruction that the tables do not allow. -/
theorem test_wf_instr : Instr.wf syn (.rdreg 0x23 0) = false ∧ Instr.wf syn (.wrreg 0x22 1) = false ∧
    Instr.wf syn (.getf 0x87 0) = false ∧ Instr.wf syn (.setf 0x85 1) = false := by decide

/-! ### Decoding: words written field by field from R50, R51, R56, and the packet they decode to -/

theorem test_decode_rdreg : decodeCommand (0b00000001#8 ++ 0b0#1 ++ 0b1101111#7 ++ 0xDEADBEEF#32 : BitVec (8 + 1 + 7 + 32)) =
    .ok (.rdreg 0x6F 0xDEADBEEF) := by decide

theorem test_decode_wrreg : decodeCommand (0b00000010#8 ++ 0b0#1 ++ 0b1101100#7 ++ 0x000100C3#32 : BitVec (8 + 1 + 7 + 32)) =
    .ok (.wrreg 0x6C 0x000100C3) := by decide

theorem test_decode_getf : decodeCommand (0b00000011#8 ++ 0b10000001#8 ++ 0x00000001#32 : BitVec (8 + 8 + 32)) =
    .ok (.getf 0x81 1) := by decide

theorem test_decode_setf : decodeCommand (0b00000100#8 ++ 0b11111111#8 ++ 0xFFFFFFFE#32 : BitVec (8 + 8 + 32)) =
    .ok (.setf 0xFF 0xFFFFFFFE) := by decide

theorem test_decode_dgram_rd : decodeDatagram (0b0#1 ++ 0b1101111#7 ++ 0x00000000#32 : BitVec (1 + 7 + 32)) =
    .dgramRd 0x6F 0 := by decide

theorem test_decode_dgram_wr : decodeDatagram (0b1#1 ++ 0b1101100#7 ++ 0x040100C3#32 : BitVec (1 + 7 + 32)) =
    .dgramWr 0x6C 0x040100C3 := by decide

/-- V-F1 to V-F5: reserved operations and `sel[7] = 1`. -/
theorem test_decode_reserved : decodeCommand 0x000000000000 = .error (.reservedOp 0x00) ∧
    decodeCommand 0x050000000000 = .error (.reservedOp 0x05) ∧ decodeCommand 0xFF6C00000000 = .error (.reservedOp 0xFF) ∧
    decodeCommand 0x01EC00000000 = .error (.selTopBit 0xEC) ∧ decodeCommand 0x02EC00000001 = .error (.selTopBit 0xEC) := by
  decide

/-- V-X1, V-X2: the bytes of two datagrams in the order of the wire. -/
theorem test_wire_bytes : wireBytes 0xEC040100C3 = [0xEC, 0x04, 0x01, 0x00, 0xC3] ∧
    ofWireBytes [0x08, 0x81, 0x0A, 0x01, 0x23] = some 0x08810A0123 ∧ ofWireBytes [0x08, 0x81] = none := by decide

/-- P3, R62, R63: assembler lines and their command words. -/
theorem test_assemble :
    assembleLine configDefault "SETF SINE_OFFSET, -2".toList = some [0x0429FFFFFFFE] ∧
    assembleLine configDefault "WRREG @0x6C, 0x000100C3 ; V-W1".toList = some [0x026C000100C3] ∧
    assembleLine configDefault "RDREG2 DRV_STATUS".toList = some [0x016F00000000, 0x016F00000000] ∧
    assembleLine configDefault "SETBIT CHM".toList = some [0x042C00000001] ∧
    assembleLine configDefault "GETF #0x41".toList = some [0x034100000000] ∧
    assembleLine configDefault "RDREG @0x80".toList = none := by decide

/-! ### The codec -/

def irun : Field := ⟨0x1D, "IRUN", 0x10, 8, 5, .clamp 0 31, none⟩
def hend : Field := ⟨0x28, "HEND", 0x6C, 7, 4, .bias (-3) 12 3, some ⟨14, false⟩⟩
def hstrt : Field := ⟨0x27, "HSTRT", 0x6C, 4, 3, .bias 1 8 (-1), some ⟨14, false⟩⟩
def mres : Field := ⟨0x31, "MRES", 0x6C, 24, 4, .quant [256, 128, 64, 32, 16, 8, 4, 2, 0] .down, none⟩

/-- `canon` and `bits` of a list of values. -/
def enc (d : Field) (l : List Int) : List (Int × Word) := l.map (fun z => ((encodeField d z).canon, (encodeField d z).bits))

/-- V-C1 to V-C8. -/
theorem test_encode_clamp : enc irun [0, 17, 31, 32, 200, -1, 2147483647, -2147483648] =
    [(0, 0), (17, 0x1100), (31, 0x1F00), (31, 0x1F00), (31, 0x1F00), (0, 0), (31, 0x1F00), (0, 0)] := by decide

/-- V-B1 to V-B12. -/
theorem test_encode_bias : enc hend [-3, 0, 12, 13, -4, -100] =
      [(-3, 0), (0, 0x180), (12, 0x780), (12, 0x780), (-3, 0), (-3, 0)] ∧
    enc hstrt [1, 4, 8, 0, 9, -5] = [(1, 0), (4, 0x30), (8, 0x70), (1, 0), (8, 0x70), (1, 0)] := by decide

/-- V-Q1 to V-Q13. -/
theorem test_encode_quant_down : enc mres [1000, 257, 256, 255, 128, 127, 100, 17, 16, 15, 3, 2, 1] =
    [(256, 0), (256, 0), (256, 0), (128, 0x01000000), (128, 0x01000000), (64, 0x02000000), (64, 0x02000000),
      (16, 0x04000000), (16, 0x04000000), (8, 0x05000000), (2, 0x07000000), (2, 0x07000000), (0, 0x08000000)] := by decide

/-- Section 6, field Q. -/
theorem test_encode_quant_up : enc synQ [99, 55, 54, 53, 37, 36, 35, 25, 24, 17, 16, 15, -7] =
    [(54, 0), (54, 0), (54, 0), (54, 0), (54, 0), (36, 0x8000), (36, 0x8000), (36, 0x8000), (24, 0x10000), (24, 0x10000),
      (16, 0x18000), (16, 0x18000), (16, 0x18000)] := by decide

/-- V-D1 to V-D7 and section 6, fields S and T: the draw of an index without a member is `free`. -/
theorem test_decode_words : decodeField hend 0x780 0 = 12 ∧ decodeField hend 0xFFFFF87F 0 = -3 ∧
    decodeField hend 0x4280 0 = 2 ∧ decodeField hstrt 0xFFFFF87F 0 = 8 ∧
    decodeField ⟨0x41, "SG_RESULT", 0x6F, 0, 10, .clamp 0 1023, none⟩ 0x810A0123 0 = 291 ∧
    decodeField ⟨0x4B, "STST", 0x6F, 31, 1, .clamp 0 1, none⟩ 0x810A0123 0 = 1 ∧
    decodeField ⟨0x43, "CS_ACTUAL", 0x6F, 16, 5, .clamp 0 31, none⟩ 0x810A0123 0 = 10 ∧
    [0xF0000000, 0, 0x80000000, 0x7FFFFFFF].map (fun w => decodeField synS w 0) = [7, -8, 0, -1] ∧
    decodeField mres 0x10000000 0 = 256 ∧ decodeField synT 0x300 77 = 77 := by decide

/-- R111's `val` of -1; the boundary of `trunc_32`. -/
theorem test_trunc32 : trunc32 (-1) = 0xFFFFFFFF ∧ trunc32 2147483647 = 0x7FFFFFFF ∧ trunc32 (-2147483648) = 0x80000000 := by
  decide

/-- R25, section 2: status bytes 0x09 and 0x05. -/
theorem test_status_bits : resetOccurred 0x09 = true ∧ standstill 0x09 = true ∧ driverError 0x09 = false ∧
    stallDetected 0x05 = true ∧ resetOccurred 0x05 = true ∧ driverError 0x02 = true := by decide

/-! ### The exchange and the merge -/

set_option maxRecDepth 100000 in
/-- V-X1 at the pins: what stands on `mosi` at the rising edges. -/
theorem test_pins_mosi : sampledMosi (frameWave syn State.reset.link 0xEC040100C3 0x0912345678) =
    [true, true, true, false, true, true, false, false, false, false, false, false, false, true, false, false] ++
    [false, false, false, false, false, false, false, true, false, false, false, false, false, false, false, false] ++
    [true, true, false, false, false, false, true, true] := by decide

set_option maxRecDepth 100000 in
/-- V-X2: the shifter after 40 periods. -/
theorem test_pins_miso : (frameLink State.reset.link 0x6F00000000 0x08810A0123 true true).shIn = 0x08810A0123 := by decide

set_option maxRecDepth 100000 in
/-- R79, V-X2: the fourth wire carries the status byte while the address byte goes out: the first eight sampling instants. -/
theorem test_pins_four_wires :
    ((risingEdges (frameWave syn State.reset.link 0x6F00000000 0x08810A0123)).take 8).map (fun x => (x.mosi, x.miso)) =
      [(false, false), (true, false), (true, false), (false, false), (true, true), (true, false), (true, false), (true, false)] :=
  by decide

/-- V-M3, V-M5, V-M6. -/
theorem test_merge : mergeWord 0xFFFFFFFF 0 0x780 = 0xFFFFF87F ∧ mergeWord 0x12345678 0xFFFFFFFF 0xF0 = 0x123456F8 ∧
    mergeWord 0x1F1F 0x1F00 0x1F00 = 0x1F1F := by decide

/-- V-M2: the whole merged word is sent and stored. -/
theorem test_merge_and_write :
    sentFrames (mergeAndWrite (chopState 0x000100C3) 0x6C 0x04000000 0x0F000000).state.wire = [(0xEC, 0x040100C3)] ∧
    readSh (mergeAndWrite (chopState 0x000100C3) 0x6C 0x04000000 0x0F000000).state 0x6C = 0x040100C3 := by decide

/-! ### The instructions, one step each -/

/-- V-R1: the mirror of a write-only register; V-R5: a read sends its datagram and writes no shadow word. -/
theorem test_rdreg : (out (exec (.rdreg 0x20 0) (synState 0x00061F0A))).map (fun t => (t.res, t.wire)) =
      some (0x00000061F0A, []) ∧
    sends (.rdreg 0x6C 0xDEADBEEF) (chopState 0x000100C3) 0x6C = some ([(0x6C, 0)], 0x000100C3) := by decide

/-- V-R3, V-R4: the read of 0x22 loads the reply with its data, as the chip holds it. -/
theorem test_rdreg_reply :
    (out (exec (.rdreg 0x22 0) { synState 0 with chip := [(0x22, 0x30000000)] })).map (fun t => t.rpl) =
      some (.dataOf 0x22 0x30000000 0x30000000) := by decide

/-- V-W1 and V-W3: the word is sent as it stands. -/
theorem test_wrreg : sends (.wrreg 0x6C 0x000100C3) State.reset 0x6C = some ([(0xEC, 0x000100C3)], 0x000100C3) ∧
    sends (.wrreg 0x6C 0x0F000000) (chopState 0x000100C3) 0x6C = some ([(0xEC, 0x0F000000)], 0x0F000000) := by decide

/-- R40, V-W2: the chip latches the word, and no cached value is written. -/
theorem test_wrreg_chip : (out (exec (.wrreg 0x20 7) { synState 1 with sv := [(0x80, 3)] })).map
    (fun t => (readChip t 0x20, t.sv, t.rpl)) = some (7, [(0x80, 3)], .unspecified) := by decide

/-- P5 line 9 and line 7: the cached value, in two's complement, with no exchange. -/
theorem test_getf_cached : (out (exec (.getf 0x81 0) { synState 0x4030 with sv := [(0x81, -1), (0x83, 36)] })).map
      (fun t => (t.res, t.wire)) = some (0x000FFFFFFFF, []) ∧
    (out (exec (.getf 0x83 5) { synState 0x4030 with sv := [(0x81, -1), (0x83, 36)] })).map (fun t => t.res) =
      some 0x00000000024 := by decide

/-- P6 line 2: a read datagram, and no shadow word is written. -/
theorem test_getf_read : sends (.getf 0x84 0) (synState 0) 0x21 = some ([(0x21, 0)], 0) := by decide

/-- P5 lines 0, 5, 8 (gate open), V-S1 and V-S3: what is sent, the shadow word, and the cached value. -/
theorem test_setf_open : sends (.setf 0x80 5) (synState 0) 0x20 = some ([(0xA0, 0x50)], 0x50) ∧
    sends (.setf 0x81 0xFFFFFFFF) (synState 0x4050) 0x20 = some ([(0xA0, 0x4030)], 0x4030) ∧
    sends (.setf 0x83 30) (synState 0x4030) 0x20 = some ([(0xA0, 0xC030)], 0xC030) ∧
    sends (.setf 0x1D 31) State.reset 0x10 = some ([(0x90, 0x1F00)], 0x1F00) := by decide

/-- P5 lines 0, 5, 8 and V-S3: the cached value. -/
theorem test_setf_cached :
    cached (.setf 0x80 5) (synState 0) = some [(0x80, 5)] ∧
    cached (.setf 0x81 0xFFFFFFFF) { synState 0x4050 with sv := [(0x80, 5)] } = some [(0x80, 5), (0x81, -1)] ∧
    cached (.setf 0x83 30) (synState 0x4030) = some [(0x83, 36)] ∧
    cached (.setf 0x1D 0xFFFFFFFF) State.reset = some [(0x1D, 0)] := by decide

/-- P5 line 2: the closed gate drops the command. -/
theorem test_setf_gate : sends (.setf 0x80 2) (synState 0x4050) 0x20 = some ([], 0x4050) ∧
    cached (.setf 0x80 2) { synState 0x4050 with sv := [(0x80, 5)] } = some [(0x80, 5)] ∧
    (out (exec (.setf 0x80 2) (synState 0x4050))).map (fun t => t.res) = some 0 := by decide

/-- V-S5 to V-S8 and V-S4: the pair HEND and SINE_OFFSET; a read/write register has no cached value. -/
theorem test_setf_pair :
    sends (.setf 0x29 7) State.reset 0x6C = some ([], 0) ∧ sends (.setf 0x28 0) (chopState 0x4400) 0x6C = some ([], 0x4400) ∧
    sends (.setf 0x29 0xFFFFFFFE) (chopState 0x4400) 0x6C = some ([(0xEC, 0x4080)], 0x4080) ∧
    sends (.setf 0x29 999) (chopState 0x4400) 0x6C = some ([(0xEC, 0x4780)], 0x4780) ∧
    cached (.setf 0x28 5) State.reset = some [] := by decide

/-- U8: with `SV_RAW` the caller's argument is cached. -/
theorem test_setf_raw : (out (exec (.setf 0x80 9) { synState 0 with cfg := { syn with svRaw := true } })).map
    (fun t => (readSh t 0x20, t.sv)) = some (0x70, [(0x80, 9)]) := by decide

/-- E1: the three rows of the source's microstep example. -/
theorem test_example_e1 : sends (.setf 0x31 16) State.reset 0x6C = some ([(0xEC, 0x04000000)], 0x04000000) ∧
    sends (.setf 0x31 16) (chopState 0x000100C3) 0x6C = some ([(0xEC, 0x040100C3)], 0x040100C3) ∧
    sends (.setf 0x31 16) (chopState 0xFFFFFFFF) 0x6C = some ([(0xEC, 0xF4FFFFFF)], 0xF4FFFFFF) := by decide

/-- A read datagram with data, V-X5: sent as it stands; the shadow file and the host's index are not involved. -/
theorem test_dgram_rd : (out (exec (.dgramRd 0x21 0xFFFFFFFF) { synState 3 with chip := [(0x21, 9)] })).map
    (fun t => (sentFrames t.wire, t.rpl, t.ci, t.sh)) = some ([(0x21, 0xFFFFFFFF)], .dataOf 0x21 9 9, 0, [(0x20, 3)]) := by decide

/-- R40: a write datagram reaches the chip and not the shadow file. -/
theorem test_dgram_wr : (out (exec (.dgramWr 0x20 0x55) (synState 3))).map
    (fun t => (sentFrames t.wire, readChip t 0x20, readSh t 0x20, t.results)) = some ([(0xA0, 0x55)], 0x55, 3, []) := by decide

/-- V-F6 to V-F10, and the words of T-SYN at the end of section 7.3. -/
theorem test_refusals : refusal (exec (.rdreg 0x02 0) State.reset) = some (.unknownRegister 0x02) ∧
    refusal (exec (.wrreg 0x6F 1) State.reset) = some (.readOnlyRegister 0x6F) ∧
    refusal (exec (.getf 0x4D 0) State.reset) = some (.unknownField 0x4D) ∧
    refusal (exec (.setf 0xFF 1) State.reset) = some (.unknownField 0xFF) ∧
    refusal (exec (.setf 0x41 1) State.reset) = some (.readOnlyField 0x41) ∧
    refusal (exec (.rdreg 0x23 0) (synState 0)) = some (.unknownRegister 0x23) ∧
    refusal (exec (.setf 0x85 1) (synState 0)) = some (.readOnlyField 0x85) := by decide

/-- The word of each row, run as the first instruction after reset. -/
theorem test_first_step : [(48, 0x016F00000000), (48, 0x026C000100C3), (48, 0x034100000000), (48, 0x041D0000001F),
      (40, 0x6F00000000), (40, 0xEC040100C3)].map
    (fun w => (out (step (State.reset.withFetchWord w.1 w.2))).map (fun t => (sentFrames t.wire, t.ci))) =
    [some ([(0x6F, 0)], 1), some ([(0xEC, 0x000100C3)], 1), some ([(0x6F, 0)], 1), some ([(0x90, 0x1F00)], 1),
      some ([(0x6F, 0)], 0), some ([(0xEC, 0x040100C3)], 0)] := by decide

/-- R21, R177, R55: the step after a result leaves neither `res_valid` nor the result word with its status byte, and so does the
exchange of a datagram; neither does the shifter keep the status byte after an exchange. -/
theorem test_result_forgotten :
    (out (step { synState 0 with res := 0x1A500000000, resValid := true })).map (fun t => (t.resValid, t.res)) =
      some (false, Config.freeResult 1) ∧
    (out (exec (.dgramRd 0x21 0) { synState 0 with res := 0x1A500000000, resValid := true })).map
      (fun t => (t.resValid, t.res)) = some (false, Config.freeResult 2) ∧
    (out (exec (.wrreg 0x20 7) (failState .intact))).map (fun t => t.link.shIn) = some (Config.freeShifter 1) :=
  ⟨rfl, rfl, rfl⟩

/-- R59: a reserved word stops at `step`, by name. -/
theorem test_step_reserved : refusal (step (State.reset.withFetchWord 48 0)) = some (.reservedOp 0) ∧
    refusal (step (State.reset.withFetchWord 48 0x01EC00000000)) = some (.selTopBit 0xEC) := by decide

/-- Table T-SYN with side effects of reads. -/
def effectState (es : List ReadEffect) (chip : Memory) : State :=
  { synState 0 with cfg := { syn with readEffects := es }, chip := chip }

/-- G7: a read that clears the register read, one that toggles it, one that counts in another register (`ChipReadEffect`). -/
theorem test_read_effect :
    (out (exec (.rdreg 0x22 0) (effectState [⟨0x22, [⟨0x22, .const 0⟩]⟩] [(0x22, 7)]))).map
      (fun t => (t.rpl, readChip t 0x22)) = some (.dataOf 0x22 7 0, 0) ∧
    (out (exec (.rdreg 0x22 0) (effectState [⟨0x22, [⟨0x22, .inv (.reg 0x22)⟩]⟩] [(0x22, 7)]))).map
      (fun t => readChip t 0x22) = some 0xFFFFFFF8 ∧
    (out (exec (.rdreg 0x22 0) (effectState [⟨0x22, [⟨0x21, .add (.reg 0x21) (.const 1)⟩]⟩] [(0x21, 4), (0x22, 7)]))).map
      (fun t => (readChip t 0x21, readChip t 0x22)) = some (5, 7) := by decide

/-- R4: the changes of one entry are one state change (two registers change places), and an entry for another register does
not act. -/
theorem test_read_effect_at_once :
    (out (exec (.rdreg 0x22 0)
      (effectState [⟨0x22, [⟨0x21, .reg 0x22⟩, ⟨0x22, .reg 0x21⟩]⟩, ⟨0x21, [⟨0x21, .const 1⟩]⟩] [(0x21, 4), (0x22, 7)]))).map
      (fun t => (readChip t 0x21, readChip t 0x22)) = some (7, 4) := by decide

set_option maxRecDepth 100000 in
/-- R143, R175: a lost write completes with the bits sampled and still updates the shadow word; the next write repairs it. -/
theorem test_lost_write :
    (out (exec (.wrreg 0x20 7) (failState .lost))).map (fun t => (t.res, readSh t 0x20, readChip t 0x20)) =
      some (0x10900000000, 7, 1) ∧
    ((out (exec (.wrreg 0x20 7) (failState .lost))).bind (fun t => out (exec (.wrreg 0x20 8) t))).map
      (fun t => (readSh t 0x20, readChip t 0x20)) = some (8, 8) := by decide

set_option maxRecDepth 100000 in
/-- R143: a corrupted datagram does what the bits that arrive say, and a read returns the bits sampled. -/
theorem test_corrupted :
    (out (exec (.wrreg 0x20 7) (failState (.altered 0xA100000055)))).map
      (fun t => (sentFrames t.wire, readSh t 0x20, readChip t 0x20, readChip t 0x21)) = some ([(0xA0, 7)], 7, 1, 0x55) ∧
    (out (exec (.rdreg 0x21 0) (failState .intact))).map (fun t => (t.res, t.rpl, t.disturb)) =
      some (0x10912345678, .dataOf 0x21 0 0, none) := by decide

/-! ### Witnesses: for each statement with hypotheses, values that meet them together -/

/-- A machine that has written 0x50 to 0x20, cached A = 5, and read 0x21 since. -/
def ranState : State :=
  { synState 0x50 with
    sv := [(0x80, 5)]
    chip := [(0x20, 0x50)]
    wire := [⟨0xA0, 0x50, 1, 2⟩, ⟨0x21, 0, 1, 3⟩]
    results := [0x10100000000, 0x10100000003]
    commands := [0x048000000005, 0x012100000000, 0x048000000006]
    ci := 2
    rpl := .dataOf 0x21 0 0
    draws := 2 }

/-- A block in the middle of a write to 0x20. -/
def hungState : State :=
  { synState 0 with
    busy := true
    link := stalledLink (linkReset true true) (packDatagram 0xA0 5) 0 7 }

theorem witness_EncodeDecodeAgree : decode (.command 0x016F00000000) = .ok (.rdreg 0x6F 0) ∧
    decode (.datagram 0xEC040100C3) = .ok (.dgramWr 0x6C 0x040100C3) := by decide

theorem witness_DecoderRejectsReserved :
    (cmdOp 0x050000000000 ∉ [0x01, 0x02, 0x03, 0x04]) ∧ (cmdOp 0x000000000000 ∉ [0x01, 0x02, 0x03, 0x04]) ∧
    (cmdOp 0x028000000000 ∈ [0x01, 0x02] ∧ (cmdSel 0x028000000000).getLsbD 7 = true) := by decide

theorem witness_StepRunsDecodedInstruction :
    (ranState.events = [] ∧ ranState.busy = false ∧ ranState.xfer = none ∧
      ranState.commands[ranState.ci]? = some 0x048000000006 ∧ decode (.command 0x048000000006) = .ok (.setf 0x80 6)) ∧
    (State.reset.withFetchWord 40 0x6F00000000).xfer = some 0x6F00000000 ∧
      decode (.datagram 0x6F00000000) = .ok (.dgramRd 0x6F 0) := by decide

theorem witness_StepRefusesReservedWord :
    ((State.reset.withFetchWord 48 0x050000000000).events = [] ∧ (State.reset.withFetchWord 48 0x050000000000).busy = false ∧
      (State.reset.withFetchWord 48 0x050000000000).xfer = none ∧
      (State.reset.withFetchWord 48 0x050000000000).commands[0]? = some 0x050000000000) ∧
    decodeCommand 0x050000000000 = .error (.reservedOp 0x05) ∧ decodeCommand 0x01EC00000000 = .error (.selTopBit 0xEC) := by
  decide

theorem witness_PortWaits : (hungState.events = [] ∧ hungState.busy = true) ∧
    (State.reset.events = [] ∧ State.reset.xfer = none ∧ State.reset.commands.length ≤ State.reset.ci) := by decide

theorem witness_ConfigurationIsConstant : ∃ t, step ranState = .next t := ⟨_, rfl⟩

theorem witness_BlockResetRestoresResetValues : { ranState with events := [.blockReset] }.events = .blockReset :: [] ∧
    ranState.busy = false ∧ ranState.link.csn = true := by decide

theorem witness_BlockResetCutsFrameShort : { hungState with events := [.blockReset] }.events = .blockReset :: [] ∧
    hungState.busy = true ∧ hungState.link.csn = false ∧ hungState.disturb = none ∧ (3 : Addr) ∉ hungState.cfg.chipChanges ∧
    (∃ d, midDatagram hungState = some d ∧ (3 : Addr) ≠ d.extractLsb' 32 7) :=
  ⟨by decide, by decide, by decide, by decide, by decide, _, rfl, by decide⟩

theorem witness_ChipResetLeavesTheBlock : { ranState with events := [.chipReset] }.events = .chipReset :: [] := by decide

theorem witness_StalledExchangeHangs :
    { ranState with events := [.stall 7] }.events = .stall 7 :: [] ∧ ranState.busy = false ∧
    fetch ranState = .instr (.setf 0x80 6) ∧
    ∃ u, exec (.setf 0x80 6) (afterEvent { ranState with events := [.stall 7] } []) = .next u ∧
      u.wire ≠ { ranState with events := [.stall 7] }.wire :=
  ⟨by decide, by decide, by decide, _, rfl, fun h => absurd (congrArg List.length h) (by decide)⟩

theorem witness_ReadDataComesOneExchangeLate : ranState.disturb = none ∧ readable syn 0x21 = true ∧
    (0x21 : Addr) ∉ syn.chipChanges ∧ (∀ e ∈ syn.readEffects, ∀ ch ∈ e.changes, ch.dst ≠ 0x21) ∧ readByte 0x22 ≠ writeByte 0x21 := by decide

theorem witness_OtherReturnedWordsAreFree : ranState.disturb = none ∧ readable syn 0x20 = false ∧
    State.reset.disturb = none ∧ readable configDefault 0x6F = true ∧ (0x6F : Addr) ∈ configDefault.chipChanges := by decide

/-- The clauses at the ends: below and above the range, negative, at both bounds. -/
theorem witness_EncodeClamp : irun.policy = .clamp 0 31 ∧ irun.policy.wf irun.width = true ∧
    ((-1 : Int) < 0 ∧ (31 : Int) < 32 ∧ (0 : Int) ≤ 31 ∧ (31 : Int) ≤ 31) := by decide

theorem witness_EncodeBias : hend.policy = .bias (-3) 12 3 ∧ hend.policy.wf hend.width = true ∧
    ((-4 : Int) < -3 ∧ (12 : Int) < 13 ∧ (-3 : Int) ≤ 12 ∧ (12 : Int) ≤ 12) ∧
    Policy.wf 5 (.bias 0 31 0) = true := by decide

/-- DOWN and UP; a member below 16 and none below -5 (DOWN), a member above 53 and none above 99 (UP). -/
theorem witness_QuantizedCodeIsTheIndex : mres.policy = .quant [256, 128, 64, 32, 16, 8, 4, 2, 0] .down ∧
    mres.policy.wf mres.width = true ∧ synQ.policy = .quant [54, 36, 24, 16] .up ∧ synQ.policy.wf synQ.width = true ∧
    (∃ x ∈ [256, 128, 64, 32, 16, 8, 4, 2, (0 : Int)], x ≤ 0) ∧ (∀ x ∈ [256, 128, 64, 32, 16, 8, 4, 2, (0 : Int)], -1 < x) ∧
    (∃ x ∈ [54, 36, 24, (16 : Int)], 54 ≤ x) ∧ (∀ x ∈ [54, 36, 24, (16 : Int)], x < 55) := by decide

theorem witness_EncodeFitsTheField : synA.wf syn = true ∧ synQ.wf syn = true ∧ synS.wf syn = true := by decide

theorem witness_ClampLaw : (synR.wf syn = true ∧ synR.policy = .clamp 0 255) ∧
    (synB.wf syn = true ∧ synB.policy = .bias (-4) 3 4) ∧ ((-4 : Int) ≤ 3 ∧ (3 : Int) ≤ 3) := by decide

theorem witness_QuantizationLaw : (synT.wf syn = true ∧ synT.policy = .quant [9, 5, 1] .down) ∧
    (synQ.wf syn = true ∧ synQ.policy = .quant [54, 36, 24, 16] .up) ∧ ((5 : Int) ∈ [9, 5, (1 : Int)]) ∧
    (∃ y ∈ [9, 5, (1 : Int)], y ≤ 1) ∧ (∀ y ∈ [9, 5, (1 : Int)], 0 < y) := by decide

theorem witness_CodecIdempotentAndLocal : synR.wf syn = true ∧ synT.wf syn = true ∧ synR.disjoint synT = true ∧
    (0x1FF : Word) &&& fieldMask synR.off synR.width = 0x2FF &&& fieldMask synR.off synR.width := by decide

theorem witness_DecodeByPolicy : (1 ≤ synT.width ∧ synT.off + synT.width ≤ 32) ∧ synT.policy = .quant [9, 5, 1] .down ∧
    fieldCode synT 0x200 < [9, 5, (1 : Int)].length ∧ [9, 5, (1 : Int)].length ≤ fieldCode synT 0x300 ∧
    synS.off + synS.width ≤ 32 ∧ synS.policy = .bias (-8) 7 8 ∧ synR.policy = .clamp 0 255 := by decide

/-- For RdregReadable (read/write and read-only), RdregWriteOnly and WrregWritesWholeWord (both write-capable kinds). -/
theorem witness_RegisterCommands : readable syn 0x21 = true ∧ readable syn 0x22 = true ∧ accOf syn 0x20 = some .wo ∧
    writable syn 0x20 = true ∧ writable syn 0x21 = true := by decide

/-- For GetfReadable and GetfWriteOnly. -/
theorem witness_Getf : (fieldOf syn 0x85 = some synS ∧ readable syn synS.reg = true) ∧
    (fieldOf syn 0x83 = some synQ ∧ accOf syn synQ.reg = some .wo) := by decide

/-- For SetfEffective (write-only and read/write register) and SetfDroppedByClosedGate. -/
theorem witness_Setf : (fieldOf syn 0x80 = some synA ∧ writable syn synA.reg = true ∧ accOf syn synA.reg = some .wo ∧
      gateOpen synA (readSh (synState 0x50) synA.reg) = true) ∧
    (fieldOf syn 0x84 = some synR ∧ writable syn synR.reg = true ∧ accOf syn synR.reg = some .rw ∧
      gateOpen synR (readSh (synState 0x50) synR.reg) = true) ∧
    (fieldOf syn 0x81 = some synB ∧ writable syn synB.reg = true ∧
      gateOpen synB (readSh (synState 0x50) synB.reg) = false) := by decide

theorem witness_GateFollowsShadowBit : (fieldOf syn 0x82 = some synMode ∧ synMode.gate = none ∧
      (out (exec (.setf 0x82 1) (synState 0))).isSome = true) ∧
    (fieldOf syn 0x81 = some synB ∧ synB.gate = some ⟨14, true⟩ ∧
      (out (exec (.setf 0x81 1) (synState 0))).isSome = true ∧ (out (exec (.setf 0x81 1) (synState 0x4000))).isSome = true) := by
  decide

theorem witness_DgramWrExchanges : writable syn 0x20 = true ∧ (0x21 : Addr) ≠ 0x20 := by decide

theorem witness_RefusesExactlyTheIllFormed : accOf syn 0x23 = none ∧ accOf syn 0x22 = some .ro ∧ fieldOf syn 0x87 = none ∧
    fieldOf syn 0x85 = some synS ∧ accOf syn synS.reg = some .ro := by decide

/-- For AtMostOneExchange and CommandIndexAdvances: `exec i s = .next t` with an exchange, with none for each of the three reasons, and for a datagram. -/
theorem witness_NextStates : (∃ t, exec (.wrreg 0x20 1) (synState 0) = .next t) ∧
    (∃ t, exec (.rdreg 0x20 1) (synState 0) = .next t) ∧ (∃ t, exec (.getf 0x80 1) (synState 0) = .next t) ∧
    (∃ t, exec (.setf 0x81 1) (synState 0) = .next t) ∧ (∃ t, exec (.dgramRd 0x21 1) (synState 0) = .next t) ∧
    isCommand (.wrreg 0x20 1) = true ∧ isCommand (.dgramRd 0x21 1) = false :=
  ⟨⟨_, rfl⟩, ⟨_, rfl⟩, ⟨_, rfl⟩, ⟨_, rfl⟩, ⟨_, rfl⟩, rfl, rfl⟩

/-- A shadow word changes by WRREG and by SETF. -/
theorem witness_OnlyMergesWriteShadow :
    (∃ t, exec (.wrreg 0x20 1) (synState 0) = .next t ∧ readSh t 0x20 ≠ readSh (synState 0) 0x20) ∧
    ∃ t, exec (.setf 0x80 1) (synState 0) = .next t ∧ readSh t 0x20 ≠ readSh (synState 0) 0x20 :=
  ⟨⟨_, rfl, by decide⟩, ⟨_, rfl, by decide⟩⟩

theorem witness_OnlyEffectiveSetfWritesCache :
    ∃ t, exec (.setf 0x80 6) ranState = .next t ∧ readSv t 0x80 ≠ readSv ranState 0x80 := ⟨_, rfl, by decide⟩

theorem witness_PrimedReadReturnsData : ranState.disturb = none ∧ readable syn 0x22 = true ∧
    (0x22 : Addr) ∉ syn.chipChanges ∧ (∀ e ∈ syn.readEffects, ∀ ch ∈ e.changes, ch.dst ≠ 0x22) ∧ fieldOf syn 0x84 = some synR ∧ readable syn synR.reg = true := by decide

/-- A lost write, and a read whose sampled bits are given. -/
theorem witness_LinkFailureGoesUnnoticed : (failState .lost).disturb = some ⟨.lost, some 0x0912345678⟩ ∧
    writable (failState .lost).cfg 0x20 = true ∧ readable (failState .lost).cfg 0x21 = true := by decide

theorem witness_WriteBreaksThePair : readable syn 0x22 = true ∧ writable syn 0x20 = true := by decide

theorem witness_GatedPairHasOneOpenGate : synA.gatedPair synB = true := by decide

theorem witness_BlockIgnoresTheChip : hungState.cfg = (synState 0).cfg ∧ hungState.sh = (synState 0).sh ∧
    hungState.sv = (synState 0).sv ∧ (out (exec (.setf 0x80 6) (synState 0))).isSome = true := by decide

theorem witness_StepKeepsCanonicalFiles : CanonicalFiles ranState ∧ ∃ t, step ranState = .next t :=
  ⟨by unfold CanonicalFiles; decide, _, rfl⟩

theorem witness_StepKeepsOwnership : ShadowOwned ranState ∧ CachedOwned ranState ∧ ∃ t, step ranState = .next t := by
  refine ⟨by unfold ShadowOwned; decide, fun f h => ?_, _, rfl⟩
  have hf : f = 0x80 := by
    revert h
    revert f
    decide
  exact hf ▸ ⟨synA, by decide, by decide⟩

theorem witness_StepKeepsLinkIdle : LinkIdle ranState ∧ LinkIdle hungState ∧ ∃ t, step ranState = .next t :=
  ⟨fun _ => ⟨rfl, rfl⟩, fun h => absurd h (by decide), _, rfl⟩

theorem witness_StepKeepsReplyFresh : ReplyFresh ranState ∧ ∃ t, step ranState = .next t := by
  refine ⟨fun a first last h => ?_, _, rfl⟩
  cases h
  exact ⟨by decide, fun _ => ⟨by decide, fun _ => rfl⟩⟩

theorem witness_StepKeepsWireProducible : ranState.xfer = none ∧ WireProducible ranState ∧ ∃ t, step ranState = .next t := by
  refine ⟨rfl, fun f hf => ?_, _, rfl⟩
  rcases List.mem_cons.mp hf with rfl | hf
  · exact .inl ⟨0x20, by decide, by decide⟩
  · cases List.mem_singleton.mp hf
    exact .inr ⟨0x21, by decide, by decide, rfl⟩

theorem witness_StepKeepsShadowLastWrite :
    ranState.xfer = none ∧ ShadowIsLastWrite ranState ∧ ∃ t, step ranState = .next t :=
  ⟨rfl, by unfold ShadowIsLastWrite; decide, _, rfl⟩

theorem witness_StepKeepsCoherency : CoherencyPremises ranState ∧ Coherent ranState ∧ ∃ t, step ranState = .next t :=
  ⟨⟨rfl, rfl, rfl, fun a _ => ⟨List.not_mem_nil, fun e he => absurd he List.not_mem_nil⟩⟩,
    by unfold Coherent; decide, _, rfl⟩

theorem witness_ShadowHoldsLastFieldWrites :
    (∀ i ∈ [Instr.setf 0x80 5, .setf 0x82 1, .setf 0x80 2, .setf 0x81 3], ∀ v, i ≠ .wrreg 0x20 v) ∧
    ∃ t, execAll [.setf 0x80 5, .setf 0x82 1, .setf 0x80 2, .setf 0x81 3] (synState 0) = .next t :=
  ⟨fun i hi v => by rintro rfl; simp at hi, _, rfl⟩

theorem witness_WritingAllRegistersMakesCoherent :
    (ranState.disturb = none ∧ ∀ a, writable syn a = true → a ∉ syn.chipChanges) ∧
    (∀ i ∈ [Instr.wrreg 0x21 7, .wrreg 0x20 9], ∃ a v, i = .wrreg a v ∧ writable syn a = true) ∧
    ∀ a, writable syn a = true → ∃ v, Instr.wrreg a v ∈ [Instr.wrreg 0x21 7, .wrreg 0x20 9] := by
  refine ⟨⟨rfl, fun a _ => List.not_mem_nil⟩, fun i hi => ?_, fun a ha => ?_⟩
  · rcases List.mem_cons.mp hi with rfl | hi
    · exact ⟨0x21, 7, rfl, by decide⟩
    · cases List.mem_singleton.mp hi
      exact ⟨0x20, 9, rfl, by decide⟩
  · have h : a = 0x20 ∨ a = 0x21 := by
      revert ha
      revert a
      decide
    rcases h with rfl | rfl
    · exact ⟨9, by decide⟩
    · exact ⟨7, by decide⟩

theorem witness_WorkedExamples : State.reset.cfg = configDefault ∧ readSh State.reset 0x10 = 0 := ⟨rfl, by decide⟩

end Sys2Proof.Machine.Tests
end

section
/-!
PROOFS of the family 00_scope.md: the configuration and the host's list are parameters of a run (R4, R20), and a completed
command has at most one exchange (R5, R58).
-/
namespace Sys2Proof.Machine

/-! ### The configuration and the command list (O9) -/

/-- Nothing that a step can do writes a parameter of the run (R4, R20). -/
theorem StepEffect.parameters_kept {s t : State} (h : StepEffect s t) : t.cfg = s.cfg ∧ t.commands = s.commands := by
  cases h with
  | wait es hes ht => exact ht ▸ ⟨rfl, rfl⟩
  | run es hes i hb hf hx he =>
    obtain ⟨hcfg, hcommands, -, -⟩ := he.setting
    exact ⟨hcfg, hcommands⟩
  | hang es bits hes f hb ht => exact ht ▸ ⟨rfl, rfl⟩
  | blockReset es he ht => exact ht ▸ ⟨blockReset_cfg _, blockReset_commands _⟩
  | chipReset es he ht => exact ht ▸ ⟨rfl, rfl⟩
  | disturb es d he ht => exact ht ▸ ⟨rfl, rfl⟩

/-- Settles O9, by the cases of what a step can do. -/
theorem configurationIsConstant : Obligations.ConfigurationIsConstant :=
  fun s t h => (step_effect s t h).parameters_kept

/-! ### At most one exchange for each command (O40) -/

theorem not_readable_of_wo {c : Config} {a : Addr} (h : accOf c a = some .wo) : readable c a = false := by
  simp [readable, h]

/-- Everything RDREG can do when it answers a next state: the shadow word without an exchange, or one read. -/
theorem execRdreg_next {s t : State} {a : Addr} {x : Word} (h : execRdreg a x s = .next t) :
    (accOf s.cfg a = some .wo ∧ t = doneSilent s (readSh s a)) ∨
      (readable s.cfg a = true ∧ t = doneRead s a (nextReply s a)) := by
  by_cases hr : readable s.cfg a = true
  · rw [execRdreg_readable _ _ _ hr] at h
    cases h
    exact .inr ⟨hr, rfl⟩
  · have ha : accOf s.cfg a = some .wo := by
      rcases ha : accOf s.cfg a with _ | (_ | _ | _) <;> simp_all [execRdreg, readable]
    rw [execRdreg_wo _ _ _ ha] at h
    cases h
    exact .inl ⟨ha, rfl⟩

/-- Everything GETF can do when it answers a next state: the cached value without an exchange, or one read. -/
theorem execGetf_next {s t : State} {f : FieldId} {x : Word} (h : execGetf f x s = .next t) :
    ∃ d, fieldOf s.cfg f = some d ∧
      ((accOf s.cfg d.reg = some .wo ∧ t = doneSilent s (trunc32 (readSv s f))) ∨
        (readable s.cfg d.reg = true ∧ t = doneRead s d.reg (getfVal s d))) := by
  rcases hd : fieldOf s.cfg f with _ | d
  · simp [execGetf, hd] at h
  refine ⟨d, rfl, ?_⟩
  by_cases hr : readable s.cfg d.reg = true
  · rw [execGetf_readable _ _ _ _ hd hr] at h
    cases h
    exact .inr ⟨hr, rfl⟩
  · have ha : accOf s.cfg d.reg = some .wo := by
      rcases ha : accOf s.cfg d.reg with _ | (_ | _ | _) <;> simp_all [execGetf, readable]
    rw [execGetf_wo _ _ _ _ hd ha] at h
    cases h
    exact .inl ⟨ha, rfl⟩

/-- R5, R58: one exchange with `txn` 1 and its status byte, or none with `txn` 0 and the filler status 0. -/
theorem Effect.wire_and_result {i : Instr} {s t : State} (h : Effect i s t) (hi : isCommand i = true) :
    (∃ f, t.wire = s.wire ++ [f] ∧ resTxn t.res = true ∧ resSt t.res = f.st) ∨
      (t.wire = s.wire ∧ resTxn t.res = false ∧ resSt t.res = 0) := by
  cases h with
  | silent v hc ht => subst ht; exact .inr (by simp)
  | read a v hc ha ht => subst ht; exact .inl ⟨_, doneRead_wire _ _ _, by simp⟩
  | write a w hc ha ht => subst ht; exact .inl ⟨_, doneWrite_wire _ _ _, by simp⟩
  | writeCached d w f z hc hd ha ht => subst ht; exact .inl ⟨_, doneWriteCached_wire _ _ _ _ _, by simp⟩
  | datagram ab dw hc ht => simp [hi] at hc

/-- RDREG is silent exactly for a write-only register (R84). -/
theorem execRdreg_silent_iff {s t : State} {a : Addr} {x : Word} (h : execRdreg a x s = .next t) :
    t.wire = s.wire ↔ accOf s.cfg a = some .wo := by
  rcases execRdreg_next h with ⟨ha, rfl⟩ | ⟨hr, rfl⟩
  · simp [ha]
  · have hne : accOf s.cfg a ≠ some .wo := fun ha => by simp [not_readable_of_wo ha] at hr
    simp [hne]

/-- WRREG is never silent (R82). -/
theorem execWrreg_not_silent {s t : State} {a : Addr} {v : Word} (h : execWrreg a v s = .next t) : t.wire ≠ s.wire := by
  obtain ⟨-, rfl⟩ := execWrreg_next s t a v h
  simp

/-- GETF is silent exactly for a field of a write-only register (R111). -/
theorem execGetf_silent_iff {s t : State} {f : FieldId} {x : Word} (h : execGetf f x s = .next t) :
    t.wire = s.wire ↔ ∃ d, fieldOf s.cfg f = some d ∧ accOf s.cfg d.reg = some .wo := by
  obtain ⟨d, hd, ⟨ha, rfl⟩ | ⟨hr, rfl⟩⟩ := execGetf_next h
  · simp [hd, ha]
  · have hne : accOf s.cfg d.reg ≠ some .wo := fun ha => by simp [not_readable_of_wo ha] at hr
    simp [hd, hne]

/-- SETF is silent exactly where the gate is closed (R110). -/
theorem execSetf_silent_iff {s t : State} {f : FieldId} {z : Word} (h : execSetf f z s = .next t) :
    t.wire = s.wire ↔ ∃ d, fieldOf s.cfg f = some d ∧ gateOpen d (readSh s d.reg) = false := by
  obtain ⟨d, hd, -, ⟨hg, rfl⟩ | ⟨hg, ⟨-, rfl⟩ | ⟨-, rfl⟩⟩⟩ := execSetf_next s t f z h
  · simp [hd, hg]
  · simp [hd, hg]
  · simp [hd, hg]

/-- Settles O40: the cases of what an instruction can do give the exchange and the result word, and the commands one by one
when there is none. -/
theorem atMostOneExchange : Obligations.AtMostOneExchange := by
  intro s t i hi h
  refine ⟨(exec_effect i s t h).wire_and_result hi, ?_⟩
  cases i with
  | rdreg a x => simp [execRdreg_silent_iff (show execRdreg a x s = .next t from h)]
  | wrreg a v => simp [execWrreg_not_silent (show execWrreg a v s = .next t from h)]
  | getf f x => simp [execGetf_silent_iff (show execGetf f x s = .next t from h)]
  | setf f z => simp [execSetf_silent_iff (show execSetf f z s = .next t from h)]
  | dgramRd a d => simp [isCommand] at hi
  | dgramWr a d => simp [isCommand] at hi

end Sys2Proof.Machine
end

section
/-!
PROOFS of the family 10_state.md: who owns a shadow word and a cached value and what writes them (R10, R12, R14, R16), the idle
link (R18), the chip's reply word (R26), the port (R17, R20) and what reset leaves (R28).
-/
namespace Sys2Proof.Machine

/-! ### What a step does to the shadow file and to the cache, and who owns their entries (O49) -/

/-- R12: an instruction leaves the shadow file as it is, or writes one word of a write-capable register. -/
theorem Effect.shadow {i : Instr} {s t : State} (h : Effect i s t) :
    t.sh = s.sh ∨ ∃ a w, writable s.cfg a = true ∧ t.sh = s.sh.write a w := by
  cases h with
  | silent v hc ht => exact ht ▸ .inl rfl
  | read a v hc ha ht => exact ht ▸ .inl rfl
  | write a w hc ha ht => exact ht ▸ .inr ⟨a, w, ha, rfl⟩
  | writeCached d w f z hc hd ha ht => exact ht ▸ .inr ⟨d.reg, w, (writable_iff _ _).mpr (.inl ha), rfl⟩
  | datagram ab dw hc ht => exact ht ▸ .inl rfl

/-- R16: an instruction leaves the cache as it is, or stores one value of a field of a write-only register. -/
theorem Effect.cache {i : Instr} {s t : State} (h : Effect i s t) :
    t.sv = s.sv ∨ ∃ (f : FieldId) (z : Int) (d : Field), fieldOf s.cfg f = some d ∧ accOf s.cfg d.reg = some .wo ∧
      t.sv = tabPut s.sv f.toNat z := by
  cases h with
  | silent v hc ht => exact ht ▸ .inl rfl
  | read a v hc ha ht => exact ht ▸ .inl rfl
  | write a w hc ha ht => exact ht ▸ .inl rfl
  | writeCached d w f z hc hd ha ht => exact ht ▸ .inr ⟨f, z, d, hd, ha, rfl⟩
  | datagram ab dw hc ht => exact ht ▸ .inl rfl

/-- A step keeps the two files, runs an instruction that has its effect on them, or empties them (a reset of the block). -/
theorem StepEffect.files {s t : State} (h : StepEffect s t) :
    (t.sh = s.sh ∧ t.sv = s.sv) ∨ (∃ i es, Effect i (afterEvent s es) t) ∨ (t.sh = [] ∧ t.sv = []) := by
  cases h with
  | wait es hes ht => exact ht ▸ .inl ⟨rfl, rfl⟩
  | run es hes i hb hf hx he => exact .inr (.inl ⟨i, es, he⟩)
  | hang es bits hes f hb ht => exact ht ▸ .inl ⟨rfl, rfl⟩
  | blockReset es he ht => exact ht ▸ .inr (.inr ⟨rfl, rfl⟩)
  | chipReset es he ht => exact ht ▸ .inl ⟨rfl, rfl⟩
  | disturb es d he ht => exact ht ▸ .inl ⟨rfl, rfl⟩

/-- The shadow file after a step: as it was, one word of a write-capable register written, or empty. -/
theorem StepEffect.shadow {s t : State} (h : StepEffect s t) :
    t.sh = s.sh ∨ (∃ a w, writable s.cfg a = true ∧ t.sh = s.sh.write a w) ∨ t.sh = [] := by
  rcases h.files with ⟨hsh, -⟩ | ⟨i, es, he⟩ | ⟨hsh, -⟩
  · exact .inl hsh
  · exact he.shadow.imp_right .inl
  · exact .inr (.inr hsh)

/-- The cache after a step: as it was, one value of a field of a write-only register stored, or empty. -/
theorem StepEffect.cache {s t : State} (h : StepEffect s t) :
    t.sv = s.sv ∨
      (∃ (f : FieldId) (z : Int) (d : Field), fieldOf s.cfg f = some d ∧ accOf s.cfg d.reg = some .wo ∧
        t.sv = tabPut s.sv f.toNat z) ∨
      t.sv = [] := by
  rcases h.files with ⟨-, hsv⟩ | ⟨i, es, he⟩ | ⟨-, hsv⟩
  · exact .inl hsv
  · exact he.cache.imp_right .inl
  · exact .inr (.inr hsv)

/-- R10: a step writes no shadow word that is not zero to a register which is not write-capable. -/
theorem StepEffect.keeps_shadowOwned {s t : State} (h : StepEffect s t) (hs : ShadowOwned s) : ShadowOwned t := by
  intro b hb
  rw [h.parameters_kept.1] at hb
  have hold : s.sh.read b = 0 := hs b hb
  show t.sh.read b = 0
  rcases h.shadow with hsh | ⟨a, w, ha, hsh⟩ | hsh
  · rw [hsh, hold]
  · have hne : b ≠ a := fun e => by simp [← e, hb] at ha
    rw [hsh, Memory.read_write_ne _ _ _ _ hne, hold]
  · rw [hsh, Memory.read_nil]

/-- R14: a step stores a cached value for no field but those of write-only registers. -/
theorem StepEffect.keeps_cachedOwned {s t : State} (h : StepEffect s t) (hs : CachedOwned s) : CachedOwned t := by
  intro g hg
  rw [h.parameters_kept.1]
  rcases h.cache with hsv | ⟨f, z, d, hd, ha, hsv⟩ | hsv
  · exact hs g (hsv ▸ hg)
  · by_cases hgf : g = f
    · exact ⟨d, hgf ▸ hd, ha⟩
    · have hkey : g.toNat ≠ f.toNat := fun e => hgf (BitVec.eq_of_toNat_eq e)
      rw [hsv, tabFind_put, if_neg hkey] at hg
      exact hs g hg
  · simp [hsv] at hg

/-- Settles O49: the two parts of ownership, each from what a step can do to its file. -/
theorem stepKeepsOwnership : Obligations.StepKeepsOwnership :=
  fun s t hsh hsv h => ⟨(step_effect s t h).keeps_shadowOwned hsh, (step_effect s t h).keeps_cachedOwned hsv⟩

/-! ### The host's index and the result trace (O41) -/

/-- R20, R55: a completed command presents its result, adds it to the trace and advances the index. -/
theorem Effect.command_completes {i : Instr} {s t : State} (h : Effect i s t) (hi : isCommand i = true) :
    t.ci = s.ci + 1 ∧ t.results = s.results ++ [t.res] ∧ t.resValid = true ∧ t.busy = false := by
  cases h with
  | silent v hc ht => exact ht ▸ ⟨rfl, rfl, rfl, rfl⟩
  | read a v hc ha ht => exact ht ▸ ⟨rfl, rfl, rfl, rfl⟩
  | write a w hc ha ht => exact ht ▸ ⟨rfl, rfl, rfl, rfl⟩
  | writeCached d w f z hc hd ha ht => exact ht ▸ ⟨rfl, rfl, rfl, rfl⟩
  | datagram ab dw hc ht => simp [hi] at hc

/-- Everything a datagram of the wire can do: one exchange outside any command (R75). -/
theorem Effect.datagram_next {i : Instr} {s t : State} (h : Effect i s t) (hi : isCommand i = false) :
    ∃ ab dw, t = datagramDone (exchange s ab dw).state := by
  cases h with
  | silent v hc ht => simp [hi] at hc
  | read a v hc ha ht => simp [hi] at hc
  | write a w hc ha ht => simp [hi] at hc
  | writeCached d w f z hc hd ha ht => simp [hi] at hc
  | datagram ab dw hc ht => exact ⟨ab, dw, ht⟩

/-- Settles O41, by the cases of what an instruction can do. -/
theorem commandIndexAdvances : Obligations.CommandIndexAdvances := by
  intro s t i h
  refine ⟨(exec_effect i s t h).command_completes, fun hi => ?_⟩
  obtain ⟨ab, dw, rfl⟩ := (exec_effect i s t h).datagram_next hi
  exact ⟨rfl, rfl, rfl⟩

/-! ### Which instructions write a shadow word or a cached value (O42, O43) -/

theorem filesSame_doneSilent (s : State) (v : Word) : FilesSame s (doneSilent s v) := ⟨fun _ => rfl, fun _ => rfl⟩

theorem filesSame_doneRead (s : State) (a : Addr) (v : Word) : FilesSame s (doneRead s a v) :=
  ⟨fun _ => rfl, fun _ => rfl⟩

theorem filesSame_datagramDone (s : State) (ab : Byte) (dw : Word) :
    FilesSame s (datagramDone (exchange s ab dw).state) :=
  ⟨fun _ => rfl, fun _ => rfl⟩

/-- R83, R84: RDREG writes neither file. -/
theorem execRdreg_filesSame {s t : State} {a : Addr} {x : Word} (h : execRdreg a x s = .next t) : FilesSame s t := by
  rcases execRdreg_next h with ⟨-, rfl⟩ | ⟨-, rfl⟩
  · exact filesSame_doneSilent _ _
  · exact filesSame_doneRead _ _ _

/-- R111: GETF writes neither file. -/
theorem execGetf_filesSame {s t : State} {f : FieldId} {x : Word} (h : execGetf f x s = .next t) : FilesSame s t := by
  obtain ⟨d, -, ⟨-, rfl⟩ | ⟨-, rfl⟩⟩ := execGetf_next h
  · exact filesSame_doneSilent _ _
  · exact filesSame_doneRead _ _ _

/-- The instructions that can write a file: WRREG and SETF; every other one leaves both as they are (R12, R16). -/
theorem exec_writer_or_filesSame {i : Instr} {s t : State} (h : exec i s = .next t) :
    (∃ a v, i = .wrreg a v) ∨ (∃ f z, i = .setf f z) ∨ FilesSame s t := by
  cases i with
  | rdreg a x => exact .inr (.inr (execRdreg_filesSame (x := x) h))
  | wrreg a v => exact .inl ⟨a, v, rfl⟩
  | getf f x => exact .inr (.inr (execGetf_filesSame (x := x) h))
  | setf f z => exact .inr (.inl ⟨f, z, rfl⟩)
  | dgramRd a d => cases h; exact .inr (.inr (filesSame_datagramDone _ _ _))
  | dgramWr a d => cases h; exact .inr (.inr (filesSame_datagramDone _ _ _))

/-- R82: WRREG writes the shadow word of its own register only. -/
theorem execWrreg_readSh_ne {s t : State} {a b : Addr} {v : Word} (h : execWrreg a v s = .next t) (hb : b ≠ a) :
    readSh t b = readSh s b := by
  obtain ⟨-, rfl⟩ := execWrreg_next s t a v h
  rw [readSh_doneWrite, if_neg hb]

/-- R82: WRREG writes no cached value. -/
theorem execWrreg_readSv {s t : State} {a : Addr} {v : Word} (h : execWrreg a v s = .next t) (f : FieldId) :
    readSv t f = readSv s f := by
  obtain ⟨-, rfl⟩ := execWrreg_next s t a v h
  rfl

/-- R110: a SETF after which a shadow word differs is of a field of that register, and found its gate open. -/
theorem execSetf_readSh_ne {s t : State} {f : FieldId} {z : Word} {a : Addr} (h : execSetf f z s = .next t)
    (hne : readSh t a ≠ readSh s a) :
    ∃ d, fieldOf s.cfg f = some d ∧ d.reg = a ∧ gateOpen d (readSh s a) = true := by
  obtain ⟨d, hd, -, ⟨-, rfl⟩ | ⟨hg, hw⟩⟩ := execSetf_next s t f z h
  · exact absurd rfl hne
  have hread : readSh t a = if a = d.reg then setfWord s d (sext32 z) else readSh s a := by
    rcases hw with ⟨-, rfl⟩ | ⟨-, rfl⟩
    · exact readSh_doneWrite _ _ _ _
    · exact readSh_doneWriteCached _ _ _ _ _ _
  have ha : a = d.reg := by
    by_contra hne'
    exact hne (by rw [hread, if_neg hne'])
  subst ha
  exact ⟨d, hd, rfl, hg⟩

/-- R110: a SETF after which a cached value differs is of that field, of a write-only register, and found its gate open. -/
theorem execSetf_readSv_ne {s t : State} {f g : FieldId} {z : Word} (h : execSetf f z s = .next t)
    (hne : readSv t g ≠ readSv s g) :
    f = g ∧ ∃ d, fieldOf s.cfg f = some d ∧ accOf s.cfg d.reg = some .wo ∧ gateOpen d (readSh s d.reg) = true := by
  obtain ⟨d, hd, -, ⟨-, rfl⟩ | ⟨hg, ⟨-, rfl⟩ | ⟨ha, rfl⟩⟩⟩ := execSetf_next s t f z h
  · exact absurd rfl hne
  · exact absurd (readSv_doneWrite _ _ _ _) hne
  · refine ⟨?_, d, hd, ha, hg⟩
    by_contra hfg
    exact hne (by rw [readSv_doneWriteCached, if_neg (Ne.symm hfg)])

/-- Settles O42: only WRREG and SETF can write, and each writes the word of its own register only. -/
theorem onlyMergesWriteShadow : Obligations.OnlyMergesWriteShadow := by
  intro s t i a h hne
  rcases exec_writer_or_filesSame h with ⟨b, v, rfl⟩ | ⟨f, z, rfl⟩ | ⟨hsh, -⟩
  · have hab : a = b := by
      by_contra hab
      exact hne (execWrreg_readSh_ne h hab)
    exact .inl ⟨v, hab ▸ rfl⟩
  · obtain ⟨d, hd, hreg, hg⟩ := execSetf_readSh_ne h hne
    exact .inr ⟨f, z, d, rfl, hd, hreg, hg⟩
  · exact absurd (hsh a) hne

/-- Settles O43: WRREG caches nothing, and SETF the value of its own field only. -/
theorem onlyEffectiveSetfWritesCache : Obligations.OnlyEffectiveSetfWritesCache := by
  intro s t i g h hne
  rcases exec_writer_or_filesSame h with ⟨a, v, rfl⟩ | ⟨f, z, rfl⟩ | ⟨-, hsv⟩
  · exact absurd (execWrreg_readSv h g) hne
  · obtain ⟨rfl, d, hd, ha, hg⟩ := execSetf_readSv_ne h hne
    exact ⟨z, d, rfl, hd, ha, hg⟩
  · exact absurd (hsv g) hne

/-! ### The idle link (O50) -/

/-- R18, R71: an instruction leaves the link as it is, or performs a whole exchange, after which it is idle. -/
theorem Effect.link {i : Instr} {s t : State} (h : Effect i s t) :
    t.link = s.link ∨ (t.link.csn = true ∧ t.link.sck = true) := by
  cases h with
  | silent v hc ht => exact ht ▸ .inl rfl
  | read a v hc ha ht => subst ht; exact .inr (by simp)
  | write a w hc ha ht => subst ht; exact .inr (by simp)
  | writeCached d w f z hc hd ha ht => subst ht; exact .inr (by simp)
  | datagram ab dw hc ht => subst ht; exact .inr (by simp)

/-- A step keeps the idle link: it starts no exchange that it does not end, unless the block stays busy. -/
theorem StepEffect.keeps_linkIdle {s t : State} (h : StepEffect s t) (hs : LinkIdle s) : LinkIdle t := by
  intro ht'
  cases h with
  | wait es hes ht => subst ht; exact hs ht'
  | run es hes i hb hf hx he =>
    rcases he.link with hl | hl
    · rw [hl]
      exact hs hb
    · exact hl
  | hang es bits hes f hb ht => simp [ht] at ht'
  | blockReset es he ht => subst ht; exact ⟨rfl, rfl⟩
  | chipReset es he ht => subst ht; exact hs ht'
  | disturb es d he ht => subst ht; exact hs ht'

/-- Settles O50, by the cases of what a step can do. -/
theorem stepKeepsLinkIdle : Obligations.StepKeepsLinkIdle :=
  fun s t hs h => (step_effect s t h).keeps_linkIdle hs

/-! ### The chip's reply word (O51) -/

/-- R44: time that passes changes no register but those that the chip changes on its own. -/
theorem chipKept_of_moved {s t : State} {n : Nat} (h : t.chip = chipMoved s.cfg s.chip n) : ChipKept s t := by
  intro a ha
  rw [readChip, h, chipMoved_read _ _ _ _ ha]
  rfl

theorem replyFresh_of_unspecified {t : State} (h : t.rpl = .unspecified) : ReplyFresh t := by
  intro a first last hr
  simp [h] at hr

/-- The reply word stays fresh where neither it nor a register that the chip does not change on its own has changed. -/
theorem ReplyFresh.of_kept {s t : State} (hs : ReplyFresh s) (hcfg : t.cfg = s.cfg) (hrpl : t.rpl = s.rpl)
    (hchip : ChipKept s t) : ReplyFresh t := by
  intro a first last hr
  rw [hrpl] at hr
  rw [hcfg]
  obtain ⟨hread, hwords⟩ := hs a first last hr
  refine ⟨hread, fun ha => ?_⟩
  rw [hchip a ha]
  exact hwords ha

/-- R51: an address byte without the write flag is that of a read datagram. -/
theorem eq_readByte_of_read (ab : Byte) (h : byteWrite ab = false) : ab = readByte (byteAddr ab) := by
  revert ab
  decide

/-- R41: a read datagram leaves the word of a register alone that the chip does not change on its own and no read changes. -/
theorem chipAfter_read_kept {c : Config} {ab : Byte} {b : Addr} (m : Memory) (n : Nat) (dw : Word)
    (hab : byteWrite ab = false) (hb : b ∉ c.chipChanges) (hne : noReadEffectOn c b) :
    (chipAfter c m n ab dw).read b = (chipMoved c m n).read b := by
  rw [eq_readByte_of_read ab hab, chipAfter_read_ne _ _ _ _ _ _ hb (fun e he _ => hne e he), chipMoved_read _ _ _ _ hb]

/-- R36, R41: after an exchange, whatever of it reached the chip, the reply word is fresh. -/
theorem replyFresh_of_exchange {u t : State} {d : Datagram} (hcfg : t.cfg = u.cfg) (hchip : t.chip = chipNext u d)
    (hrpl : t.rpl = replyTakes u.cfg u.chip u.moments (arrives u d)) : ReplyFresh t := by
  cases hd : arrives u d with
  | none => exact replyFresh_of_unspecified (by rw [hrpl, hd]; rfl)
  | some r =>
    rw [hd] at hrpl
    rw [chipNext, hd] at hchip
    rcases replyAfter_cases u.cfg u.chip u.moments (r.extractLsb' 32 8) (r.extractLsb' 0 32) with hu | ⟨hread, hwr, hdata⟩
    · exact replyFresh_of_unspecified (hrpl.trans hu)
    · intro a first last hr
      obtain ⟨rfl, rfl, rfl⟩ := Reply.dataOf.inj (hr.symm.trans (hrpl.trans hdata))
      rw [hcfg]
      refine ⟨hread, fun ha => ⟨by rw [readChip, hchip]; rfl, fun hne => ?_⟩⟩
      exact (chipAfter_read_kept _ _ _ hwr ha hne).symm

/-- R26, R44: an instruction keeps the reply word fresh. -/
theorem Effect.keeps_replyFresh {i : Instr} {s t : State} (h : Effect i s t) (hs : ReplyFresh s) : ReplyFresh t := by
  obtain ⟨hcfg, -, -, -⟩ := h.setting
  rcases h.chip with ⟨u, d, hu, hchip, hrpl, -⟩ | ⟨hchip, hrpl, -⟩
  · have hucfg : u.cfg = s.cfg := by rcases hu with rfl | rfl <;> rfl
    exact replyFresh_of_exchange (hcfg.trans hucfg.symm) hchip hrpl
  · exact hs.of_kept hcfg hrpl (chipKept_of_moved hchip)

/-- A reset of the block keeps the reply word fresh: it moves the chip as time does, or leaves no reply word (U9). -/
theorem ReplyFresh.after_blockReset {s : State} (hs : ReplyFresh s) : ReplyFresh (blockReset s) := by
  rcases chipCut_cases s with ⟨hchip, hrpl, -⟩ | ⟨hrpl, -, -⟩
  · exact hs.of_kept (blockReset_cfg s) hrpl (chipKept_of_moved (by rw [blockReset_chip, chipCut_cfg, hchip]))
  · exact replyFresh_of_unspecified hrpl

theorem StepEffect.keeps_replyFresh {s t : State} (h : StepEffect s t) (hs : ReplyFresh s) : ReplyFresh t := by
  cases h with
  | wait es hes ht => subst ht; exact hs.of_kept rfl rfl (chipKept_of_moved rfl)
  | run es hes i hb hf hx he => exact he.keeps_replyFresh hs
  | hang es bits hes f hb ht => subst ht; exact hs.of_kept rfl rfl (chipKept_of_moved rfl)
  | blockReset es he ht => exact ht ▸ ReplyFresh.after_blockReset (s := afterEvent s es) hs
  | chipReset es he ht => exact replyFresh_of_unspecified (ht ▸ rfl)
  | disturb es d he ht => subst ht; exact hs.of_kept rfl rfl (fun _ _ => rfl)

/-- Settles O51: after an exchange the reply word is fresh; every other step keeps it, or leaves none. -/
theorem stepKeepsReplyFresh : Obligations.StepKeepsReplyFresh :=
  fun s t hs h => (step_effect s t h).keeps_replyFresh hs

/-! ### The port that waits (O8) -/

theorem step_busy {s : State} (he : s.events = []) (hb : s.busy = true) : step s = .next (waiting s) := by
  simp [step, he, hb]

/-- R20: with nothing at Transport and the host's list exhausted, nothing is presented. -/
theorem fetch_exhausted {s : State} (hx : s.xfer = none) (hl : s.commands.length ≤ s.ci) : fetch s = .nothing := by
  simp [fetch, presented, cmdPort, hx, List.getElem?_eq_none hl]

theorem step_exhausted {s : State} (he : s.events = []) (hx : s.xfer = none) (hl : s.commands.length ≤ s.ci) :
    step s = .next (waiting s) := by
  cases hb : s.busy with
  | true => exact step_busy he hb
  | false => simp [step, he, hb, runPort, fetch_exhausted hx hl]

/-- R55, R21, R177: the frame of a step in which the port accepts nothing. -/
theorem waiting_frame (s : State) :
    waiting s = { s with resValid := false, res := (waiting s).res, chip := (waiting s).chip,
                         moments := (waiting s).moments } ∧
      ResultForgotten (waiting s) ∧ ChipKept s (waiting s) :=
  ⟨rfl, ⟨rfl, rfl⟩, chipKept_of_moved rfl⟩

/-- Settles O8: a busy port and an exhausted list both make the step `waiting`. -/
theorem portWaits : Obligations.PortWaits := by
  refine ⟨fun s he hb => ⟨_, step_busy he hb, ?_⟩, fun s he hx hl => ⟨_, step_exhausted he hx hl, waiting_frame s⟩⟩
  obtain ⟨hframe, hres, hchip⟩ := waiting_frame s
  exact ⟨hframe, hres, hchip, hb, by simp [cmdReady, hb]⟩

/-! ### Reset (O10, O11) -/

/-- Settles O10: the state after reset is written out in the model, its files empty. -/
theorem resetState : Obligations.ResetState :=
  ⟨Memory.read_nil, rfl, rfl, rfl, rfl, rfl, rfl, Memory.read_nil, rfl, rfl⟩

theorem step_blockReset {s : State} {es : List Event} (h : s.events = .blockReset :: es) :
    step s = .next (blockReset (afterEvent s es)) := by
  simp [step, h]

/-- R161: with no exchange in progress a reset of the block cuts nothing short. -/
theorem chipCut_idle {s : State} (h : s.busy = false ∨ s.link.csn = true) : chipCut s = s := by
  have hm : midFrame s = false := by rcases h with h | h <;> simp [midFrame, h]
  simp [chipCut, hm]

/-- R161, R44: with no exchange in progress a reset of the block leaves the chip to itself. -/
theorem blockReset_idle_chip {s : State} (h : s.busy = false ∨ s.link.csn = true) :
    ChipKept s (blockReset s) ∧ (blockReset s).rpl = s.rpl ∧ (blockReset s).status = s.status ∧
      (blockReset s).disturb = s.disturb := by
  refine ⟨chipKept_of_moved (n := s.moments) ?_, ?_, blockReset_status s, ?_⟩ <;> simp [chipCut_idle h]

/-- R28, R11, R15: after a reset of the block every shadow word is zero and every cached value a fresh free value. -/
theorem blockReset_files (s : State) :
    (∀ a, readSh (blockReset s) a = 0) ∧
      ∀ f, readSv (blockReset s) f = (Config.freeCached (s.draws + 1) f).toInt :=
  ⟨fun _ => rfl, fun _ => rfl⟩

/-- Settles O11: the fields of the state after a reset of the block, and the chip where no frame is cut short. -/
theorem blockResetRestoresResetValues : Obligations.BlockResetRestoresResetValues := by
  intro s es h
  obtain ⟨hsh, hsv⟩ := blockReset_files (afterEvent s es)
  exact ⟨_, step_blockReset h, hsh, hsv, rfl, rfl, rfl, rfl, rfl, rfl, rfl, rfl, blockReset_commands _, blockReset_cfg _,
    blockReset_events _, blockReset_idle_chip (s := afterEvent s es)⟩

end Sys2Proof.Machine
end

section
/-!
PROOFS of the family 20_memory.md: the coherency of chip and shadow (R38 (4), R40, R164), and what an exchange returns: the data
of the read before it (R36, R41), else a free value (R42, R44, R167).
-/
namespace Sys2Proof.Machine

/-! ### The chip's word and the shadow word of one register (R38, R40) -/

/-- R38 (4), for one register: the chip's word is the shadow word. -/
def CoherentAt (s : State) (a : Addr) : Prop := readChip s a = readSh s a

theorem coherent_iff (s : State) : Coherent s ↔ ∀ a, writable s.cfg a = true → CoherentAt s a := Iff.rfl

/-- A register stays coherent where no shadow word changed and the chip kept its word. -/
theorem CoherentAt.of_kept {s t : State} {a : Addr} (hs : CoherentAt s a) (hsh : t.sh = s.sh)
    (hchip : readChip t a = readChip s a) : CoherentAt t a := by
  rw [CoherentAt, hchip, hs, readSh, readSh, hsh]

/-- R40: the chip's words after a command that sent `w` to register `a` through an intact link. -/
theorem readChip_of_sent {s t : State} {a b : Addr} {w : Word}
    (hchip : t.chip = chipNext (accept s) (packDatagram (writeByte a) w)) (hlink : s.disturb = none)
    (ha : writable s.cfg a = true) (hb : b ∉ s.cfg.chipChanges) :
    readChip t b = if b = a then w else readChip s b := by
  rw [readChip, hchip, chipNext_intact (accept s) _ _ hlink, accept_cfg]
  split
  · next heq => rw [heq, chipAfter_write_self _ _ _ _ _ ha]
  · next hne => rw [chipAfter_write_ne _ _ _ _ _ _ hne hb, accept_chip, chipMoved_read _ _ _ _ hb, readChip]

/-- R44: the chip's word after a command that read register `a` through an intact link, where no read changes it. -/
theorem readChip_doneRead {s : State} (a : Addr) (v : Word) {b : Addr} (hlink : s.disturb = none)
    (hb : b ∉ s.cfg.chipChanges) (hne : noReadEffectOn s.cfg b) : readChip (doneRead s a v) b = readChip s b := by
  rw [readChip, doneRead_chip, chipNext_intact (accept s) _ _ hlink, accept_cfg,
    chipAfter_read_ne _ _ _ _ _ _ hb (fun e he _ => hne e he), accept_chip, chipMoved_read _ _ _ _ hb, readChip]

/-- R38, R40: a command that sends a word to `a` and stores it makes `a` coherent, whatever the chip held, and keeps every
other register so. -/
theorem coherentAt_of_sent {s t : State} {a b : Addr} {w : Word}
    (hchip : t.chip = chipNext (accept s) (packDatagram (writeByte a) w)) (hsh : t.sh = s.sh.write a w)
    (hlink : s.disturb = none) (ha : writable s.cfg a = true) (hb : b ∉ s.cfg.chipChanges)
    (hs : b = a ∨ CoherentAt s b) : CoherentAt t b := by
  rw [CoherentAt, readChip_of_sent hchip hlink ha hb, readSh, hsh, Memory.read_write]
  split
  · rfl
  · next hne => exact hs.resolve_left hne

/-! ### Every step keeps the coherency (O54) -/

/-- R56: the decoder of command words reads no datagram of the wire. -/
theorem decodeCommand_isCommand {w : CommandWord} {i : Instr} (h : decodeCommand w = .ok i) : isCommand i = true := by
  unfold decodeCommand at h
  dsimp only at h
  split_ifs at h
  all_goals cases h; rfl

/-- D3: with nothing handed to Transport, what is fetched is a command of the host. -/
theorem isCommand_of_fetch {s : State} {i : Instr} (hx : s.xfer = none) (h : fetch s = .instr i) : isCommand i = true := by
  cases hw : cmdPort s with
  | none => simp [fetch, presented, hx, hw] at h
  | some w =>
    cases hd : decodeCommand w with
    | error e => simp [fetch, presented, hx, hw, decode, hd] at h
    | ok j =>
      obtain rfl : j = i := by simpa [fetch, presented, hx, hw, decode, hd] using h
      exact decodeCommand_isCommand hd

/-- With no outside event pending a step waits or runs the instruction fetched. -/
theorem StepEffect.wait_or_run {s t : State} (h : StepEffect s t) (he : s.events = []) :
    t = waiting s ∨ ∃ i, fetch s = .instr i ∧ Effect i s t := by
  cases h with
  | wait es hes ht =>
    obtain rfl : es = s.events := by simpa [he] using hes
    exact .inl ht
  | run es hes i hb hf hx hi =>
    obtain rfl : es = s.events := by simpa [he] using hes
    exact .inr ⟨i, hf, hi⟩
  | hang es bits hes f hb ht => simp [he] at hes
  | blockReset es hes ht => simp [he] at hes
  | chipReset es hes ht => simp [he] at hes
  | disturb es d hes ht => simp [he] at hes

/-- No instruction hands a datagram to Transport (D3). -/
theorem Effect.xfer_none {i : Instr} {s t : State} (h : Effect i s t) (hs : s.xfer = none) : t.xfer = none := by
  cases h with
  | silent v hc ht => exact ht ▸ hs
  | read a v hc ha ht => exact ht ▸ hs
  | write a w hc ha ht => exact ht ▸ hs
  | writeCached d w f z hc hd ha ht => exact ht ▸ hs
  | datagram ab dw hc ht => exact ht ▸ rfl

/-- R143: an instruction brings no failure of the link. -/
theorem Effect.disturb_none {i : Instr} {s t : State} (h : Effect i s t) (hs : s.disturb = none) : t.disturb = none := by
  rcases h.chip with ⟨u, d, -, -, -, ht⟩ | ⟨-, -, ht⟩
  · exact ht
  · exact ht.trans hs

theorem Effect.keeps_coherencyPremises {i : Instr} {s t : State} (h : Effect i s t) (hp : CoherencyPremises s) :
    CoherencyPremises t := by
  obtain ⟨hevents, hlink, hxfer, hquiet⟩ := hp
  obtain ⟨hcfg, -, hevents', -⟩ := h.setting
  exact ⟨hevents'.trans hevents, h.disturb_none hlink, h.xfer_none hxfer, hcfg ▸ hquiet⟩

/-- R38 (4): under the premises a command keeps every write-capable register coherent. -/
theorem Effect.keeps_coherent {i : Instr} {s t : State} (h : Effect i s t) (hi : isCommand i = true)
    (hp : CoherencyPremises s) (hs : Coherent s) : Coherent t := by
  obtain ⟨-, hlink, -, hquiet⟩ := hp
  obtain ⟨hcfg, -, -, -⟩ := h.setting
  rw [coherent_iff] at hs ⊢
  intro b hb
  rw [hcfg] at hb
  obtain ⟨hown, hread⟩ := hquiet b hb
  have hsb := hs b hb
  cases h with
  | silent v hc ht => subst ht; exact hsb.of_kept rfl (chipKept_of_moved rfl b hown)
  | read a v hc ha ht => subst ht; exact hsb.of_kept rfl (readChip_doneRead a v hlink hown hread)
  | write a w hc ha ht => subst ht; exact coherentAt_of_sent rfl rfl hlink ha hown (.inr hsb)
  | writeCached d w f z hc hd ha ht =>
    subst ht
    exact coherentAt_of_sent rfl rfl hlink ((writable_iff _ _).mpr (.inl ha)) hown (.inr hsb)
  | datagram ab dw hc ht => simp [hi] at hc

/-- Time that passes keeps the coherency under its premises. -/
theorem waiting_keeps_coherent {s : State} (hp : CoherencyPremises s) (hs : Coherent s) : Coherent (waiting s) := by
  obtain ⟨-, -, -, hquiet⟩ := hp
  rw [coherent_iff] at hs ⊢
  intro b hb
  exact (hs b hb).of_kept rfl (chipKept_of_moved (s := s) rfl b (hquiet b hb).1)

/-- Settles O54: with no event pending a step waits or runs a command, and each keeps the premises and the coherency. -/
theorem stepKeepsCoherency : Obligations.StepKeepsCoherency := by
  intro s t hp hs h
  have ⟨hevents, _, hxfer, _⟩ := hp
  rcases (step_effect s t h).wait_or_run hevents with rfl | ⟨i, hf, hi⟩
  · exact ⟨hp, waiting_keeps_coherent hp hs⟩
  · exact ⟨hi.keeps_coherencyPremises hp, hi.keeps_coherent (isCommand_of_fetch hxfer hf) hp hs⟩

/-! ### Writing every write-capable register (O57) -/

theorem exec_wrreg_writable {s : State} {a : Addr} (v : Word) (h : writable s.cfg a = true) :
    exec (.wrreg a v) s = .next (doneWrite s a v) := execWrreg_writable a v s h

theorem execAll_cons {i : Instr} {s t : State} (l : List Instr) (h : exec i s = .next t) :
    execAll (i :: l) s = execAll l t := by
  simp [execAll, h]

/-- R164: a list of WRREG commands runs to its end; each register that it writes, or that was coherent before, is coherent
after it. -/
theorem execAll_wrreg_coherentAt (l : List Instr) (s : State) (hlink : s.disturb = none)
    (hquiet : ∀ a, writable s.cfg a = true → a ∉ s.cfg.chipChanges)
    (hl : ∀ i ∈ l, ∃ a v, i = .wrreg a v ∧ writable s.cfg a = true) :
    ∃ t, execAll l s = .next t ∧ t.cfg = s.cfg ∧
      ∀ b, writable s.cfg b = true → (CoherentAt s b ∨ ∃ v, Instr.wrreg b v ∈ l) → CoherentAt t b := by
  induction l generalizing s with
  | nil => exact ⟨s, rfl, rfl, fun b _ hs => by simpa using hs⟩
  | cons i l ih =>
    obtain ⟨⟨a, v, rfl, ha⟩, hrest⟩ := List.forall_mem_cons.mp hl
    obtain ⟨t, hrun, hcfg, hcoh⟩ := ih (doneWrite s a v) rfl hquiet hrest
    refine ⟨t, (execAll_cons l (exec_wrreg_writable v ha)).trans hrun, hcfg, fun b hb hs => hcoh b hb ?_⟩
    have hstep (h : b = a ∨ CoherentAt s b) : CoherentAt (doneWrite s a v) b :=
      coherentAt_of_sent rfl rfl hlink ha (hquiet b hb) h
    rcases hs with hs | ⟨u, hu⟩
    · exact .inl (hstep (.inr hs))
    · rcases List.mem_cons.mp hu with heq | hmem
      · obtain ⟨rfl, -⟩ := Instr.wrreg.inj heq
        exact .inl (hstep (.inl rfl))
      · exact .inr ⟨u, hmem⟩

/-- Settles O57, by induction on the list: every write-capable register stands in it. -/
theorem writingAllRegistersMakesCoherent : Obligations.WritingAllRegistersMakesCoherent := by
  intro l s hlink hquiet hl hall
  obtain ⟨t, hrun, hcfg, hcoh⟩ := execAll_wrreg_coherentAt l s hlink hquiet hl
  refine ⟨t, hrun, (coherent_iff t).mpr fun b hb => ?_⟩
  rw [hcfg] at hb
  exact hcoh b hb (.inr (hall b hb))

/-! ### The word that an exchange returns is decided by the exchange before it (O19, O20) -/

/-- R26, R36, R42: after an exchange that did not fail, the next one returns what the reply word of the first gives. -/
theorem exchange_exchange_rw {s : State} (ab : Byte) (dw : Word) (ab' : Byte) (dw' : Word) (hlink : s.disturb = none) :
    (exchange (exchange s ab dw).state ab' dw').rw =
      returnedWord s.cfg (replyAfter s.cfg s.chip s.moments ab dw)
        (exchange (exchange s ab dw).state ab' dw').state.chip (s.draws + 1) := by
  rw [exchange_rw_intact _ _ _ (exchange_disturb s ab dw), exchange_rpl, replyTakes_intact _ _ _ hlink]
  rfl

theorem readChip_exchange {s : State} (ab : Byte) (dw : Word) (a : Addr) (hlink : s.disturb = none) :
    readChip (exchange s ab dw).state a = (chipAfter s.cfg s.chip s.moments ab dw).read a := by
  rw [readChip, exchange_chip, chipNext_intact _ _ _ hlink]

/-- R51: an address byte with the write flag is that of a write datagram. -/
theorem eq_writeByte_of_write (ab : Byte) (h : byteWrite ab = true) : ab = writeByte (byteAddr ab) := by
  revert ab
  decide

/-- R40, R41: an exchange that does not write register `a` leaves its word alone, where the chip does not change it on its own
and no read changes it. -/
theorem readChip_exchange_kept {s : State} {ab : Byte} (dw : Word) {a : Addr} (hlink : s.disturb = none)
    (ha : a ∉ s.cfg.chipChanges) (hne : noReadEffectOn s.cfg a) (hab : ab ≠ writeByte a) :
    readChip (exchange s ab dw).state a = readChip s a := by
  rw [readChip_exchange ab dw a hlink]
  cases hw : byteWrite ab with
  | false => rw [chipAfter_read_kept _ _ _ hw ha hne, chipMoved_read _ _ _ _ ha, readChip]
  | true =>
    rw [eq_writeByte_of_write ab hw] at hab ⊢
    have haddr : a ≠ byteAddr ab := fun e => hab (by rw [e])
    rw [chipAfter_write_ne _ _ _ _ _ _ haddr ha, readChip]

/-- R36, R41: after a read of `a` the next exchange returns the word of `a` at one of three instants. -/
theorem exchange_after_read_rw {s : State} {a : Addr} (d : Word) (ab : Byte) (dw : Word) (hlink : s.disturb = none)
    (hread : readable s.cfg a = true) (ha : a ∉ s.cfg.chipChanges) :
    (exchange (exchange s (readByte a) d).state ab dw).rw ∈
      [readChip s a, readChip (exchange s (readByte a) d).state a,
        readChip (exchange (exchange s (readByte a) d).state ab dw).state a] := by
  rw [exchange_exchange_rw _ _ _ _ hlink, replyAfter_readable _ _ _ _ _ hread, chipMoved_read _ _ _ _ ha,
    readChip_exchange (readByte a) d a hlink]
  exact returnedWord_dataOf _ _ _ _ _ _ ha

/-- Settles O19: the three instants of R41; they show one word where neither exchange changes the register. -/
theorem readDataComesOneExchangeLate : Obligations.ReadDataComesOneExchangeLate := by
  intro s a d dw ab hlink hread ha t e
  have hmem : e.rw ∈ [readChip s a, readChip t a, readChip e.state a] := exchange_after_read_rw d ab dw hlink hread ha
  refine ⟨hmem, fun hne hab => ?_⟩
  have ht : readChip t a = readChip s a := readChip_exchange_kept d hlink ha hne (readByte_ne_writeByte a a)
  have he : readChip e.state a = readChip t a :=
    readChip_exchange_kept dw (exchange_disturb s (readByte a) d) ha hne hab
  simpa [he, ht] using hmem

/-- Settles O20: after a write and after a read of no readable register there is no reply word, nor at reset; and the data of a
register that the chip changes on its own is a draw. -/
theorem otherReturnedWordsAreFree : Obligations.OtherReturnedWordsAreFree := by
  refine ⟨fun s a b d dw ab hlink => ⟨?_, fun hb => ?_⟩, fun ab dw => ?_, fun s a d dw ab hlink hread ha => ?_⟩
  · rw [exchange_exchange_rw _ _ _ _ hlink, replyAfter_write, returnedWord_unspecified]
  · rw [exchange_exchange_rw _ _ _ _ hlink, replyAfter_unreadable _ _ _ _ _ hb, returnedWord_unspecified]
  · exact exchange_rw_intact State.reset ab dw rfl
  · rw [exchange_exchange_rw _ _ _ _ hlink, replyAfter_readable _ _ _ _ _ hread, returnedWord_changing _ _ _ _ _ _ ha]

/-! ### A write breaks the pair of reads (O45) -/

/-- R42: a write through an intact link leaves no reply word that the spec gives. -/
theorem doneWrite_rpl_intact {s : State} (b : Addr) (v : Word) (hlink : s.disturb = none) :
    (doneWrite s b v).rpl = .unspecified :=
  (replyTakes_intact (accept s) _ _ hlink).trans (replyAfter_write _ _ _ _ _)

/-- R42: with no reply word a read returns a free value. -/
theorem nextReply_unspecified {s : State} (a : Addr) (hlink : s.disturb = none) (hrpl : s.rpl = .unspecified) :
    nextReply s a = Config.freeReply s.draws := by
  rw [nextReply_intact _ _ hlink, hrpl, returnedWord_unspecified]

theorem exec_rdreg_readable {s : State} {a : Addr} (x : Word) (h : readable s.cfg a = true) :
    exec (.rdreg a x) s = .next (doneRead s a (nextReply s a)) := execRdreg_readable a x s h

/-- Settles O45: the first read ends any failure of the link, so the write is intact and leaves no reply word. -/
theorem writeBreaksThePair : Obligations.WriteBreaksThePair := by
  intro s a b x y v hread hwrite
  have hwrite' : writable (doneRead s a (nextReply s a)).cfg b = true := by rwa [doneRead_cfg]
  have hread' : readable (doneWrite (doneRead s a (nextReply s a)) b v).cfg a = true := by
    rwa [doneWrite_cfg, doneRead_cfg]
  refine ⟨_, _, _, exec_rdreg_readable x hread, exec_wrreg_writable v hwrite', exec_rdreg_readable y hread', ?_⟩
  rw [doneRead_res, resVal_resultWord,
    nextReply_unspecified a (doneWrite_disturb _ b v) (doneWrite_rpl_intact b v (doneRead_disturb s a _)),
    doneWrite_draws, doneRead_draws]

end Sys2Proof.Machine
end

section
/-!
PROOFS of the family 30_encoding.md: decoder and encoder of both formats are inverse (R50, R51, R56, R57), the reserved words
(R59 (a), (b)), the byte order (R33), the step that runs what is decoded (R55), and the datagrams that the block sends (R31, R54).
-/
namespace Sys2Proof

/-! ### The parts of a command word and of a datagram -/

@[simp] theorem cmdOp_packCommand (op sel : Byte) (arg : Word) : cmdOp (packCommand op sel arg) = op := by
  rw [cmdOp, packCommand, BitVec.extractLsb'_append_eq_of_le (by decide)]
  exact BitVec.extractLsb'_append_eq_left

@[simp] theorem cmdSel_packCommand (op sel : Byte) (arg : Word) : cmdSel (packCommand op sel arg) = sel := by
  rw [cmdSel, packCommand, BitVec.extractLsb'_append_eq_of_le (by decide)]
  exact BitVec.extractLsb'_append_eq_right

@[simp] theorem cmdArg_packCommand (op sel : Byte) (arg : Word) : cmdArg (packCommand op sel arg) = arg :=
  BitVec.extractLsb'_append_eq_right

/-- R56: a command word is its three parts, and nothing else. -/
theorem packCommand_parts (w : CommandWord) : packCommand (cmdOp w) (cmdSel w) (cmdArg w) = w := by
  have hhigh : cmdOp w ++ cmdSel w = w.extractLsb' 32 16 :=
    BitVec.extractLsb'_append_extractLsb'_eq_extractLsb' (start₁ := 32) rfl
  rw [packCommand, hhigh]
  exact BitVec.extractLsb'_append_extractLsb'

/-- R50: a datagram is its address byte and its data word, and nothing else. -/
theorem packDatagram_parts (d : Datagram) : packDatagram (d.extractLsb' 32 8) (d.extractLsb' 0 32) = d :=
  BitVec.extractLsb'_append_extractLsb'

@[simp] theorem getElem_regSel_top (a : Addr) : (regSel a)[7] = false := Machine.byteWrite_readByte a

@[simp] theorem selAddr_regSel (a : Addr) : selAddr (regSel a) = a := Machine.byteAddr_readByte a

/-- R57: a `sel` with bit 7 clear is that of its register address. -/
theorem regSel_selAddr {sel : Byte} (h : sel.getLsbD 7 = false) : regSel (selAddr sel) = sel :=
  (Machine.eq_readByte_of_read sel h).symm

/-! ### What the decoders answer, for each operation (R51, R56, R59) -/

theorem decodeCommand_rdreg {w : CommandWord} (h : cmdOp w = 0x01) :
    decodeCommand w =
      if (cmdSel w).getLsbD 7 then .error (.selTopBit (cmdSel w)) else .ok (.rdreg (selAddr (cmdSel w)) (cmdArg w)) := by
  simp [decodeCommand, h]

theorem decodeCommand_wrreg {w : CommandWord} (h : cmdOp w = 0x02) :
    decodeCommand w =
      if (cmdSel w).getLsbD 7 then .error (.selTopBit (cmdSel w)) else .ok (.wrreg (selAddr (cmdSel w)) (cmdArg w)) := by
  simp [decodeCommand, h]

theorem decodeCommand_getf {w : CommandWord} (h : cmdOp w = 0x03) :
    decodeCommand w = .ok (.getf (cmdSel w) (cmdArg w)) := by
  simp [decodeCommand, h]

theorem decodeCommand_setf {w : CommandWord} (h : cmdOp w = 0x04) :
    decodeCommand w = .ok (.setf (cmdSel w) (cmdArg w)) := by
  simp [decodeCommand, h]

theorem decodeCommand_reserved {w : CommandWord} (h : cmdOp w ∉ [0x01, 0x02, 0x03, 0x04]) :
    decodeCommand w = .error (.reservedOp (cmdOp w)) := by
  simp only [List.mem_cons, List.not_mem_nil, or_false, not_or] at h
  obtain ⟨h1, h2, h3, h4⟩ := h
  simp only [decodeCommand, if_neg h1, if_neg h2, if_neg h3, if_neg h4]

/-- R56, R59 (a): the operation of a command word is one of the four, or reserved. -/
theorem cmdOp_cases (w : CommandWord) :
    cmdOp w = 0x01 ∨ cmdOp w = 0x02 ∨ cmdOp w = 0x03 ∨ cmdOp w = 0x04 ∨ cmdOp w ∉ [0x01, 0x02, 0x03, 0x04] := by
  simp only [List.mem_cons, List.not_mem_nil, or_false]
  tauto

/-- R50, R51: a datagram decodes by the write flag and the address of its address byte. -/
theorem decodeDatagram_packDatagram (ab : Byte) (dw : Word) :
    decodeDatagram (packDatagram ab dw) =
      if Machine.byteWrite ab then .dgramWr (Machine.byteAddr ab) dw else .dgramRd (Machine.byteAddr ab) dw := by
  have hflag : (packDatagram ab dw).getLsbD 39 = Machine.byteWrite ab := Machine.getLsbD_packDatagram ab dw 39
  simp only [decodeDatagram, hflag, Machine.packDatagram_addr, Machine.packDatagram_word]

/-! ### Decoder and encoder are inverse (O1, O2) -/

/-- Settles O1: the decoder finds the operation and the operands of each row where the encoder packed them. -/
theorem decodeEncodeAgree : Obligations.DecodeEncodeAgree := by
  intro i
  cases i with
  | rdreg a arg => simp [encode, decode, decodeCommand_rdreg]
  | wrreg a v => simp [encode, decode, decodeCommand_wrreg]
  | getf f arg => simp [encode, decode, decodeCommand_getf]
  | setf f z => simp [encode, decode, decodeCommand_setf]
  | dgramRd a d => simp [encode, decode, decodeDatagram_packDatagram]
  | dgramWr a d => simp [encode, decode, decodeDatagram_packDatagram]

/-- R56, R57: a command word that the decoder accepts is the encoding of its instruction. -/
theorem encode_of_decodeCommand {w : CommandWord} {i : Instr} (h : decodeCommand w = .ok i) : encode i = .command w := by
  rcases cmdOp_cases w with hop | hop | hop | hop | hop
  · rw [decodeCommand_rdreg hop] at h
    split_ifs at h with htop
    cases h
    rw [encode, regSel_selAddr (by simpa using htop), ← hop, packCommand_parts]
  · rw [decodeCommand_wrreg hop] at h
    split_ifs at h with htop
    cases h
    rw [encode, regSel_selAddr (by simpa using htop), ← hop, packCommand_parts]
  · rw [decodeCommand_getf hop] at h
    cases h
    rw [encode, ← hop, packCommand_parts]
  · rw [decodeCommand_setf hop] at h
    cases h
    rw [encode, ← hop, packCommand_parts]
  · rw [decodeCommand_reserved hop] at h
    cases h

/-- R50, R51: every datagram is the encoding of its instruction. -/
theorem encode_decodeDatagram (d : Datagram) : encode (decodeDatagram d) = .datagram d := by
  rw [← packDatagram_parts d, decodeDatagram_packDatagram]
  split_ifs with hwrite
  · rw [encode, ← Machine.eq_writeByte_of_write _ hwrite]
  · rw [encode, ← Machine.eq_readByte_of_read _ (by simpa using hwrite)]

/-- Settles O2, for the two formats one after the other. -/
theorem encodeDecodeAgree : Obligations.EncodeDecodeAgree := by
  intro p i h
  cases p with
  | command w => exact encode_of_decodeCommand h
  | datagram d =>
    cases h
    exact encode_decodeDatagram d

/-! ### The words that the decoder rejects (O3) -/

/-- R59 (b): RDREG and WRREG are rejected exactly where `sel[7]` is 1. -/
theorem registerCommand_error_iff (sel : Byte) (i : Instr) (e : DecodeError) :
    (if sel.getLsbD 7 then Except.error (DecodeError.selTopBit sel) else Except.ok i) = Except.error e ↔
      sel.getLsbD 7 = true ∧ e = .selTopBit sel := by
  split_ifs with htop
  · simpa only [htop, true_and, Except.error.injEq] using eq_comm
  · simp only [htop, false_and, Bool.false_eq_true]

/-- R59 (a), (b): what the decoder rejects, and by which name. -/
theorem decodeCommand_error_iff (w : CommandWord) (e : DecodeError) :
    decodeCommand w = .error e ↔
      ((cmdOp w ∉ [0x01, 0x02, 0x03, 0x04] ∧ e = .reservedOp (cmdOp w)) ∨
        (cmdOp w ∈ [0x01, 0x02] ∧ (cmdSel w).getLsbD 7 = true ∧ e = .selTopBit (cmdSel w))) := by
  rcases cmdOp_cases w with hop | hop | hop | hop | hop
  · rw [decodeCommand_rdreg hop, registerCommand_error_iff]
    simp [hop]
  · rw [decodeCommand_wrreg hop, registerCommand_error_iff]
    simp [hop]
  · simp [decodeCommand_getf hop, hop]
  · simp [decodeCommand_setf hop, hop]
  · have hreg : cmdOp w ∉ [0x01, 0x02] := fun hmem => hop (List.mem_append_left [0x03, 0x04] hmem)
    rw [decodeCommand_reserved hop]
    simpa only [hop, hreg, not_false_eq_true, true_and, false_and, or_false, Except.error.injEq] using eq_comm

/-- Settles O3: the rejected command words by their operation; the decoder of datagrams is total. -/
theorem decoderRejectsReserved : Obligations.DecoderRejectsReserved :=
  ⟨decodeCommand_error_iff, fun d => ⟨decodeDatagram d, rfl⟩⟩

/-! ### The words of the spec's tables and the bytes on the wire (O4, O5) -/

/-- Settles O4: the decoder evaluated at each of the six words. -/
theorem sampleWordsDecode : Obligations.SampleWordsDecode := by
  unfold Obligations.SampleWordsDecode
  decide

/-- R33: a byte below the address byte is a byte of the data word. -/
theorem packDatagram_dataByte (ab : Byte) (dw : Word) {i : Nat} (hi : i + 8 ≤ 32) :
    (packDatagram ab dw).extractLsb' i 8 = dw.extractLsb' i 8 :=
  BitVec.extractLsb'_append_eq_of_add_le hi

/-- R33, R50: the bytes on the wire are the address byte and the data word, most significant byte first. -/
theorem wireBytes_packDatagram (ab : Byte) (dw : Word) :
    wireBytes (packDatagram ab dw) =
      [ab, dw.extractLsb' 24 8, dw.extractLsb' 16 8, dw.extractLsb' 8 8, dw.extractLsb' 0 8] := by
  rw [wireBytes, Machine.packDatagram_byte, packDatagram_dataByte ab dw (i := 24) (by decide),
    packDatagram_dataByte ab dw (i := 16) (by decide), packDatagram_dataByte ab dw (i := 8) (by decide),
    packDatagram_dataByte ab dw (i := 0) (by decide)]

/-- R33, R73: no bit is lost between a datagram and its bytes. -/
theorem ofWireBytes_wireBytes (d : Datagram) : ofWireBytes (wireBytes d) = some d := by
  have h2 : d.extractLsb' 32 8 ++ d.extractLsb' 24 8 = d.extractLsb' 24 16 :=
    BitVec.extractLsb'_append_extractLsb'_eq_extractLsb' rfl
  have h3 : d.extractLsb' 24 16 ++ d.extractLsb' 16 8 = d.extractLsb' 16 24 :=
    BitVec.extractLsb'_append_extractLsb'_eq_extractLsb' rfl
  have h4 : d.extractLsb' 16 24 ++ d.extractLsb' 8 8 = d.extractLsb' 8 32 :=
    BitVec.extractLsb'_append_extractLsb'_eq_extractLsb' rfl
  have h5 : d.extractLsb' 8 32 ++ d.extractLsb' 0 8 = d := BitVec.extractLsb'_append_extractLsb'
  rw [wireBytes, ofWireBytes, h2, h3, h4, h5]

/-- Settles O5: the bytes of a packed datagram, and the bytes put together again. -/
theorem wireByteOrder : Obligations.WireByteOrder :=
  fun ab dw => ⟨wireBytes_packDatagram ab dw, ofWireBytes_wireBytes _⟩

end Sys2Proof

namespace Sys2Proof.Machine

/-! ### The step that runs the decoded instruction (O6) -/

/-- R55: what is fetched is what the packet presented decodes to. -/
theorem fetch_of_decode {s : State} {p : Packet} {i : Instr} (hp : presented s = some p) (hd : decode p = .ok i) :
    fetch s = .instr i := by
  simp [fetch, hp, hd]

/-- Settles O6: in both cases the packet is the one presented, and a free port runs what it decodes to. -/
theorem stepRunsDecodedInstruction : Obligations.StepRunsDecodedInstruction := by
  intro s p i he hb hpacket hd
  have hp : presented s = some p := by
    rcases hpacket with ⟨d, hx, rfl⟩ | ⟨hx, w, hw, rfl⟩
    · simp [presented, hx]
    · simp [presented, hx, cmdPort, hw]
  exact step_of_fetch s i he hb (fetch_of_decode hp hd)

/-! ### The datagrams that the block sends (O52) -/

/-- D3: no step hands a datagram to Transport. -/
theorem StepEffect.xfer_none {s t : State} (h : StepEffect s t) (hs : s.xfer = none) : t.xfer = none := by
  cases h with
  | wait es hes ht => exact ht ▸ hs
  | run es hes i hb hf hx he => exact he.xfer_none hs
  | hang es bits hes f hb ht => exact ht ▸ hs
  | blockReset es he ht => exact ht ▸ rfl
  | chipReset es he ht => exact ht ▸ hs
  | disturb es d he ht => exact ht ▸ hs

/-- R31, R54: what a command adds to the wire trace is a datagram that the block may send. -/
theorem Effect.command_frame {i : Instr} {s t : State} (h : Effect i s t) (hi : isCommand i = true) :
    t.wire = s.wire ∨ ∃ f, f.producible s.cfg ∧ t.wire = s.wire ++ [f] := by
  cases h with
  | silent v hc ht => exact ht ▸ .inl rfl
  | read a v hc ha ht => exact ht ▸ .inr ⟨_, .inr ⟨a, rfl, ha, rfl⟩, doneRead_wire s a v⟩
  | write a w hc ha ht => exact ht ▸ .inr ⟨_, .inl ⟨a, rfl, ha⟩, doneWrite_wire s a w⟩
  | writeCached d w f z hc hd ha ht =>
    exact ht ▸ .inr ⟨_, .inl ⟨d.reg, rfl, (writable_iff _ _).mpr (.inl ha)⟩, doneWriteCached_wire s d.reg w f z⟩
  | datagram ab dw hc ht => simp [hi] at hc

theorem Effect.keeps_wireProducible {i : Instr} {s t : State} (h : Effect i s t) (hi : isCommand i = true)
    (hs : WireProducible s) : WireProducible t := by
  obtain ⟨hcfg, -, -, -⟩ := h.setting
  intro g hg
  rw [hcfg]
  rcases h.command_frame hi with hw | ⟨f, hf, hw⟩ <;> rw [hw] at hg
  · exact hs g hg
  · rcases List.mem_append.mp hg with hold | hnew
    · exact hs g hold
    · exact List.mem_singleton.mp hnew ▸ hf

/-- R31: with nothing at Transport a step runs a command, or leaves the trace as it is, or begins a new one. -/
theorem StepEffect.keeps_wireProducible {s t : State} (h : StepEffect s t) (hx : s.xfer = none) (hs : WireProducible s) :
    WireProducible t := by
  cases h with
  | wait es hes ht => subst ht; exact hs
  | run es hes i hb hf hrun he => exact he.keeps_wireProducible (isCommand_of_fetch hx hf) hs
  | hang es bits hes f hb ht => subst ht; exact hs
  | blockReset es he ht => subst ht; exact List.forall_mem_nil _
  | chipReset es he ht => subst ht; exact hs
  | disturb es d he ht => subst ht; exact hs

/-- Settles O52, by the cases of what a step can do: with nothing at Transport only commands of the host are run. -/
theorem stepKeepsWireProducible : Obligations.StepKeepsWireProducible :=
  fun s t hx hs h => ⟨(step_effect s t h).xfer_none hx, (step_effect s t h).keeps_wireProducible hx hs⟩

end Sys2Proof.Machine
end

section
/-!
PROOFS of the family 40_transport.md: the pin process of a frame (R71, R76, R79), the exchange (R70), the two raw datagrams (R75),
an exchange that never ends (R78, R176), and that the block does not depend on the chip (R74, R148).
-/
namespace Sys2Proof.Machine

/-! ### The pin process of one frame (O15) -/

/-- R76: the segments of the bit periods in which `sck` is high, one for each bit. -/
def highSegments (c : Config) : Link → List Bool → List Segment
  | _, [] => []
  | l, b :: bs => holdPins (bitPeriod l b) (c.clkDiv - c.clkDiv / 2) :: highSegments c (bitPeriod l b) bs

/-- R76: where the clock stands as `x` left it when the bit periods begin, each bit period has one rising edge, and nothing
after the last one has any. -/
theorem risingEdges_bitsWave (c : Config) (x : Segment) (l : Link) (bs : List Bool) (n : Nat) (hx : x.sck = l.sck) :
    risingEdges (x :: (bitsWave c l bs ++ [holdPins (shiftBits l bs) n])) = highSegments c l bs := by
  induction bs generalizing x l with
  | nil => cases hl : l.sck <;> simp [bitsWave, shiftBits, risingEdges, highSegments, holdPins, hx, hl]
  | cons b bs ih =>
    have hrest := ih (holdPins (bitPeriod l b) (c.clkDiv - c.clkDiv / 2)) (bitPeriod l b) rfl
    have hlow : (holdPins (leadingEdge l b) (c.clkDiv / 2)).sck = false := rfl
    have hhigh : (holdPins (bitPeriod l b) (c.clkDiv - c.clkDiv / 2)).sck = true := rfl
    simp [bitsWave, shiftBits, risingEdges, highSegments, hlow, hhigh, hrest]

theorem risingEdges_frameWave (c : Config) (l : Link) (out40 in40 : Datagram) :
    risingEdges (frameWave c l out40 in40) = highSegments c (selectLink l out40) (bitsMsbFirst in40) :=
  risingEdges_bitsWave c _ _ _ _ rfl

/-- R76: what stands on `miso` at the rising edges are the inbound bits, in their order. -/
theorem highSegments_miso (c : Config) (l : Link) (bs : List Bool) :
    (highSegments c l bs).map (fun x => x.miso) = bs := by
  induction bs generalizing l with
  | nil => rfl
  | cons b bs ih => rw [highSegments, List.map_cons, ih]; rfl

/-- R76: after a bit period the next outbound bit stands at the top of `sh_out`. -/
theorem getLsbD_bitPeriod_shOut (l : Link) (b : Bool) {i : Nat} (hi : i < 39) :
    (bitPeriod l b).shOut.getLsbD (39 - i) = l.shOut.getLsbD (39 - (i + 1)) := by
  have hne : 39 - i ≠ 0 := by omega
  exact (getLsbD_shiftIn l.shOut false (39 - i) (by omega)).trans (if_neg hne)

/-- R76: what stands on `mosi` at the rising edges are the bits of `sh_out` from bit 39 down. -/
theorem highSegments_mosi (c : Config) (l : Link) (bs : List Bool) (h : bs.length ≤ 40) :
    (highSegments c l bs).map (fun x => x.mosi) = (List.range bs.length).map (fun i => l.shOut.getLsbD (39 - i)) := by
  induction bs generalizing l with
  | nil => rfl
  | cons b bs ih =>
    rw [List.length_cons] at h
    rw [highSegments, List.map_cons, ih _ (by omega), List.length_cons, List.range_succ_eq_map, List.map_cons, List.map_map]
    refine congrArg (l.shOut.getLsbD 39 :: ·) (List.map_congr_left fun i hi => ?_)
    exact getLsbD_bitPeriod_shOut l b (by have := List.mem_range.mp hi; omega)

theorem sampledMiso_frameWave (c : Config) (l : Link) (out40 in40 : Datagram) :
    sampledMiso (frameWave c l out40 in40) = bitsMsbFirst in40 := by
  rw [sampledMiso, risingEdges_frameWave, highSegments_miso]

theorem sampledMosi_frameWave (c : Config) (l : Link) (out40 in40 : Datagram) :
    sampledMosi (frameWave c l out40 in40) = bitsMsbFirst out40 := by
  rw [sampledMosi, risingEdges_frameWave, highSegments_mosi _ _ _ (by simp), length_bitsMsbFirst]
  rfl

theorem bitsWave_csn (c : Config) (l : Link) (bs : List Bool) : ∀ x ∈ bitsWave c l bs, x.csn = l.csn := by
  induction bs generalizing l with
  | nil => exact List.forall_mem_nil _
  | cons b bs ih => exact List.forall_mem_cons.mpr ⟨rfl, List.forall_mem_cons.mpr ⟨rfl, ih (bitPeriod l b)⟩⟩

/-- R71: chip-select is low from the first segment of a frame to the last. -/
theorem frameWave_csn (c : Config) (l : Link) (out40 in40 : Datagram) : ∀ x ∈ frameWave c l out40 in40, x.csn = false := by
  refine List.forall_mem_cons.mpr ⟨rfl, List.forall_mem_append.mpr ⟨bitsWave_csn c (selectLink l out40) _, ?_⟩⟩
  exact List.forall_mem_singleton.mpr (shiftBits_csn _ _)

/-- Settles O15: one rising edge for each bit period, at which the pins show the next bit of each datagram. -/
theorem pinProcessMovesFortyBits : Obligations.PinProcessMovesFortyBits :=
  fun c l out40 in40 _ _ =>
    ⟨sampledMosi_frameWave c l out40 in40, sampledMiso_frameWave c l out40 in40, frameLink_shIn _ _ _ _ _,
      frameLink_bitcnt _ _ _ _ _, frameWave_csn c l out40 in40, frameLink_csn _ _ _ _ _, frameLink_sck _ _ _ _ _⟩

/-! ### The exchange (O17) -/

/-- R70, R72, R73: the status byte and the returned word are the two parts of the bits sampled. -/
theorem packDatagram_exchange (s : State) (ab : Byte) (dw : Word) :
    packDatagram (exchange s ab dw).st (exchange s ab dw).rw = inbound s ab dw := by
  rw [exchange_st, exchange_rw, packDatagram_parts]

theorem oneExchange_exchange (s : State) (ab : Byte) (dw : Word) :
    OneExchange s (exchange s ab dw).state ab dw (exchange s ab dw).st (exchange s ab dw).rw :=
  ⟨exchange_wire s ab dw, by simp, by simp, by simp, rfl, by simp, fun hlink => (exchange_st_intact s ab dw hlink).symm,
    rfl, rfl⟩

/-- Settles O17: the bytes, the pins, the shifter and the fields of the state, each by its own law. -/
theorem exchangeIsOneFrame : Obligations.ExchangeIsOneFrame := by
  intro s ab dw e
  have hparts : packDatagram e.st e.rw = inbound s ab dw := packDatagram_exchange s ab dw
  exact ⟨wireBytes_packDatagram ab dw, sampledMosi_frameWave _ _ _ _, frameWave_csn _ _ _ _, inbound_intact s ab dw,
    exchange_st s ab dw, exchange_rw s ab dw, fun _ _ => hparts ▸ frameLink_shIn _ _ _ _ _, oneExchange_exchange s ab dw,
    rfl, rfl, rfl, rfl, rfl, rfl, rfl, rfl, rfl, rfl, rfl, rfl⟩

/-! ### The two raw datagrams (O37, O38) -/

theorem exec_dgramRd (a : Addr) (d : Word) (s : State) :
    exec (.dgramRd a d) s = .next (datagramDone (exchange s (readByte a) d).state) := rfl

theorem exec_dgramWr (a : Addr) (d : Word) (s : State) :
    exec (.dgramWr a d) s = .next (datagramDone (exchange s (writeByte a) d).state) := rfl

theorem OneExchange.datagramDone {s t : State} {ab st : Byte} {dw rw : Word} (h : OneExchange s t ab dw st rw) :
    OneExchange s (datagramDone t) ab dw st rw := h

theorem datagramCompleted_exchange (s : State) (ab : Byte) (dw : Word) :
    DatagramCompleted s (datagramDone (exchange s ab dw).state) :=
  ⟨rfl, ⟨rfl, rfl⟩, rfl, rfl, rfl, rfl, rfl, rfl, rfl⟩

theorem readChip_datagramDone (s : State) (a : Addr) : readChip (datagramDone s) a = readChip s a := rfl

/-- R75, R44: the chip reacts to a raw read datagram as to a read. -/
theorem chipAfterRead_datagram (s : State) (a : Addr) (d : Word) :
    ChipAfterRead s (datagramDone (exchange s (readByte a) d).state) a := by
  intro hlink b hb heffect
  rw [readChip_datagramDone, readChip_exchange _ _ _ hlink, chipAfter_read_ne _ _ _ _ _ _ hb heffect, readChip]

/-- R40: a raw write datagram to a write-capable register latches its word. -/
theorem readChip_datagram_write_self {s : State} {a : Addr} (d : Word) (hlink : s.disturb = none)
    (ha : writable s.cfg a = true) : readChip (datagramDone (exchange s (writeByte a) d).state) a = d := by
  rw [readChip_datagramDone, readChip_exchange _ _ _ hlink, chipAfter_write_self _ _ _ _ _ ha]

/-- R40: a raw write datagram to any address leaves the other registers alone. -/
theorem readChip_datagram_write_ne {s : State} {a b : Addr} (d : Word) (hlink : s.disturb = none) (hne : b ≠ a)
    (hb : b ∉ s.cfg.chipChanges) : readChip (datagramDone (exchange s (writeByte a) d).state) b = readChip s b := by
  rw [readChip_datagramDone, readChip_exchange _ _ _ hlink, chipAfter_write_ne _ _ _ _ _ _ hne hb, readChip]

/-- Settles O37: one exchange with the write flag 0, outside any command. -/
theorem dgramRdExchanges : Obligations.DgramRdExchanges :=
  fun s a d =>
    ⟨_, _, _, exec_dgramRd a d s, (oneExchange_exchange s (readByte a) d).datagramDone, datagramCompleted_exchange _ _ _,
      filesSame_datagramDone _ _ _, chipAfterRead_datagram s a d⟩

/-- Settles O38: one exchange with the write flag 1, outside any command; where it is intact the chip takes the word. -/
theorem dgramWrExchanges : Obligations.DgramWrExchanges :=
  fun s a d =>
    ⟨_, _, _, exec_dgramWr a d s, (oneExchange_exchange s (writeByte a) d).datagramDone, datagramCompleted_exchange _ _ _,
      filesSame_datagramDone _ _ _, fun hlink =>
        ⟨readChip_datagram_write_self d hlink, fun _ hne hb => readChip_datagram_write_ne d hlink hne hb⟩⟩

/-! ### An exchange that never ends (O14) -/

theorem newFrame_of_append {s t : State} {f : Frame} (h : t.wire = s.wire ++ [f]) : newFrame s t = some f := by
  simp [newFrame, h]

/-- U7: a step whose next event is a stall hangs in the exchange that the instruction fetched would have performed. -/
theorem step_stall {s u : State} {bits : Nat} {es : List Event} {i : Instr} {f : Frame} (he : s.events = .stall bits :: es)
    (hb : s.busy = false) (hf : fetch s = .instr i) (hx : exec i (afterEvent s es) = .next u)
    (hw : u.wire = s.wire ++ [f]) : step s = .next (stalled (afterEvent s es) bits f) := by
  have hnew : newFrame (afterEvent s es) u = some f := newFrame_of_append hw
  simp [step, he, hb, runPort, hf, hx, stallOutcome, hnew]

/-- Settles O14: an instruction that changes the wire trace adds one tuple, so the step hangs in that exchange. -/
theorem stalledExchangeHangs : Obligations.StalledExchangeHangs := by
  intro s bits es i u he hb hf hx hne
  obtain ⟨f, hw⟩ := (exec_effect _ _ _ hx).wire_grows.resolve_left hne
  exact ⟨_, step_stall he hb hf hx hw, rfl, stalledLink_csn _ _ _ _, ⟨rfl, rfl⟩, ⟨fun _ => rfl, fun _ => rfl⟩, rfl, rfl,
    rfl, chipKept_of_moved rfl, rfl, rfl, rfl⟩

/-! ### The block does not depend on the chip (O47) -/

/-- R74: from `s` to `t` and from `s'` to `t'` the block stored the same files and sent the same datagrams. -/
def SameBlockWork (s s' t t' : State) : Prop :=
  t'.sh = t.sh ∧ t'.sv = t.sv ∧
    ∃ l, sentFrames t.wire = sentFrames s.wire ++ l ∧ sentFrames t'.wire = sentFrames s'.wire ++ l

/-- One more tuple in a wire trace is one more datagram sent. -/
theorem sentFrames_append (w : List Frame) (f : Frame) : sentFrames (w ++ [f]) = sentFrames w ++ [(f.ab, f.dw)] := by
  simp [sentFrames]

section
variable {s s' : State} (hcfg : s'.cfg = s.cfg) (hsh : s'.sh = s.sh) (hsv : s'.sv = s.sv)

include hsh hsv

theorem sameBlockWork_doneSilent (v v' : Word) : SameBlockWork s s' (doneSilent s v) (doneSilent s' v') :=
  ⟨hsh, hsv, [], by simp, by simp⟩

theorem sameBlockWork_doneRead (a : Addr) (v v' : Word) : SameBlockWork s s' (doneRead s a v) (doneRead s' a v') :=
  ⟨hsh, hsv, [(readByte a, 0)], by simp [sentFrames_append], by simp [sentFrames_append]⟩

theorem sameBlockWork_doneWrite (a : Addr) (w : Word) : SameBlockWork s s' (doneWrite s a w) (doneWrite s' a w) :=
  ⟨by simp [hsh], hsv, [(writeByte a, w)], by simp [sentFrames_append], by simp [sentFrames_append]⟩

theorem sameBlockWork_doneWriteCached (a : Addr) (w : Word) (f : FieldId) (z : Int) :
    SameBlockWork s s' (doneWriteCached s a w f z) (doneWriteCached s' a w f z) :=
  ⟨by simp [hsh], by simp [hsv], [(writeByte a, w)], by simp [sentFrames_append], by simp [sentFrames_append]⟩

theorem sameBlockWork_datagram (ab : Byte) (dw : Word) :
    SameBlockWork s s' (datagramDone (exchange s ab dw).state) (datagramDone (exchange s' ab dw).state) :=
  ⟨hsh, hsv, [(ab, dw)], sentFrames_append _ _, sentFrames_append _ _⟩

include hcfg

theorem execRdreg_sameBlockWork {t : State} {a : Addr} {x : Word} (h : execRdreg a x s = .next t) :
    ∃ t', execRdreg a x s' = .next t' ∧ SameBlockWork s s' t t' := by
  rcases execRdreg_next h with ⟨ha, rfl⟩ | ⟨hr, rfl⟩
  · exact ⟨_, execRdreg_wo _ _ _ (hcfg ▸ ha), sameBlockWork_doneSilent hsh hsv _ _⟩
  · exact ⟨_, execRdreg_readable _ _ _ (hcfg ▸ hr), sameBlockWork_doneRead hsh hsv _ _ _⟩

theorem execWrreg_sameBlockWork {t : State} {a : Addr} {v : Word} (h : execWrreg a v s = .next t) :
    ∃ t', execWrreg a v s' = .next t' ∧ SameBlockWork s s' t t' := by
  obtain ⟨hw, rfl⟩ := execWrreg_next s t a v h
  exact ⟨_, execWrreg_writable _ _ _ (hcfg ▸ hw), sameBlockWork_doneWrite hsh hsv _ _⟩

theorem execGetf_sameBlockWork {t : State} {f : FieldId} {x : Word} (h : execGetf f x s = .next t) :
    ∃ t', execGetf f x s' = .next t' ∧ SameBlockWork s s' t t' := by
  obtain ⟨d, hd, ⟨ha, rfl⟩ | ⟨hr, rfl⟩⟩ := execGetf_next h
  · exact ⟨_, execGetf_wo _ _ _ d (hcfg ▸ hd) (hcfg ▸ ha), sameBlockWork_doneSilent hsh hsv _ _⟩
  · exact ⟨_, execGetf_readable _ _ _ d (hcfg ▸ hd) (hcfg ▸ hr), sameBlockWork_doneRead hsh hsv _ _ _⟩

/-- R100, R80: the gate and the merged word of a SETF come from the shadow file alone. -/
theorem execSetf_sameBlockWork {t : State} {f : FieldId} {z : Word} (h : execSetf f z s = .next t) :
    ∃ t', execSetf f z s' = .next t' ∧ SameBlockWork s s' t t' := by
  obtain ⟨d, hd, hw, hcases⟩ := execSetf_next s t f z h
  have hshadow : readSh s' d.reg = readSh s d.reg := by rw [readSh, readSh, hsh]
  have hword : setfWord s' d (sext32 z) = setfWord s d (sext32 z) := by rw [setfWord, setfWord, hshadow]
  rw [← hcfg] at hd hw
  rcases hcases with ⟨hg, rfl⟩ | ⟨hg, ⟨ha, rfl⟩ | ⟨ha, rfl⟩⟩ <;> rw [← hshadow] at hg
  · exact ⟨_, execSetf_closed _ _ _ d hd hw hg, sameBlockWork_doneSilent hsh hsv _ _⟩
  · refine ⟨_, execSetf_rw _ _ _ d hd (hcfg ▸ ha), ?_⟩
    rw [setField_open_rw _ _ _ _ hg, hword]
    exact sameBlockWork_doneWrite hsh hsv _ _
  · refine ⟨_, execSetf_wo _ _ _ d hd (hcfg ▸ ha), ?_⟩
    rw [setField_open_wo _ _ _ _ hg, hword, hcfg]
    exact sameBlockWork_doneWriteCached hsh hsv _ _ _ _

end

/-- Settles O47, instruction by instruction: what each stores and sends is computed from the tables and the two files. -/
theorem blockIgnoresTheChip : Obligations.BlockIgnoresTheChip := by
  intro s s' t i hcfg hsh hsv h
  cases i with
  | rdreg a x => exact execRdreg_sameBlockWork (x := x) hcfg hsh hsv h
  | wrreg a v => exact execWrreg_sameBlockWork hcfg hsh hsv h
  | getf f x => exact execGetf_sameBlockWork (x := x) hcfg hsh hsv h
  | setf f z => exact execSetf_sameBlockWork hcfg hsh hsv h
  | dgramRd a d => cases h; exact ⟨_, exec_dgramRd a d s', sameBlockWork_datagram hsh hsv _ _⟩
  | dgramWr a d => cases h; exact ⟨_, exec_dgramWr a d s', sameBlockWork_datagram hsh hsv _ _⟩

end Sys2Proof.Machine
end

section
/-!
PROOFS of the family 41_register_access.md: the merge (R80), the whole-register commands RDREG (R83, R84) and WRREG (R82), and
what the shadow file holds after every step (R38) and after every sequence of field writes (R112).
-/
namespace Sys2Proof.Machine

/-! ### Every shadow word is the word of the last write (O53) -/

/-- R38: one more tuple in the wire trace is the last write to `a` where it is a write to `a`, and changes nothing where not. -/
theorem lastWrite_append (w : List Frame) (f : Frame) (a : Addr) :
    lastWrite (w ++ [f]) a = if f.ab = writeByte a then some f.dw else lastWrite w a := by
  induction w with
  | nil => rfl
  | cons g w ih =>
    rw [List.cons_append, lastWrite, lastWrite, ih]
    split_ifs <;> rfl

/-- R52: a read datagram is the last write to no register. -/
theorem lastWrite_append_read (w : List Frame) (a b : Addr) (dw : Word) (st : Byte) (rw : Word) :
    lastWrite (w ++ [⟨readByte a, dw, st, rw⟩]) b = lastWrite w b := by
  rw [lastWrite_append, if_neg (readByte_ne_writeByte a b)]

/-- R51: a write datagram to `a` is the last write to `a`, and to no other register. -/
theorem lastWrite_append_write (w : List Frame) (a b : Addr) (dw : Word) (st : Byte) (rw : Word) :
    lastWrite (w ++ [⟨writeByte a, dw, st, rw⟩]) b = if b = a then some dw else lastWrite w b := by
  have heq : writeByte a = writeByte b ↔ b = a := ⟨fun h => (writeByte_inj h).symm, fun h => h ▸ rfl⟩
  simp only [lastWrite_append, heq]

/-- R80: where a command stored in the shadow file the word that it sent, the shadow follows the trace. -/
theorem ShadowIsLastWrite.of_sent {s t : State} {a : Addr} {w : Word} {st : Byte} {rw : Word} (hs : ShadowIsLastWrite s)
    (hsh : ∀ b, readSh t b = if b = a then w else readSh s b) (hwire : t.wire = s.wire ++ [⟨writeByte a, w, st, rw⟩]) :
    ShadowIsLastWrite t := by
  intro b
  rw [hsh, hwire, lastWrite_append_write]
  split_ifs
  · rfl
  · exact hs b

/-- R38 (1), (3): a command sends no write without storing its word, and stores no word without sending it. -/
theorem Effect.keeps_shadowIsLastWrite {i : Instr} {s t : State} (h : Effect i s t) (hi : isCommand i = true)
    (hs : ShadowIsLastWrite s) : ShadowIsLastWrite t := by
  cases h with
  | silent v hc ht => subst ht; exact hs
  | read a v hc ha ht =>
    subst ht
    intro b
    rw [doneRead_wire, lastWrite_append_read]
    exact hs b
  | write a w hc ha ht => subst ht; exact hs.of_sent (readSh_doneWrite s a w) (doneWrite_wire s a w)
  | writeCached d w f z hc hd ha ht =>
    subst ht
    exact hs.of_sent (readSh_doneWriteCached s d.reg w f z) (doneWriteCached_wire s d.reg w f z)
  | datagram ab dw hc ht => simp [hi] at hc

/-- R38 (1) to (3): with nothing at Transport a step runs a command, or keeps shadow and trace, or empties both. -/
theorem StepEffect.keeps_shadowIsLastWrite {s t : State} (h : StepEffect s t) (hx : s.xfer = none)
    (hs : ShadowIsLastWrite s) : ShadowIsLastWrite t := by
  cases h with
  | wait es hes ht => subst ht; exact hs
  | run es hes i hb hf hrun he => exact he.keeps_shadowIsLastWrite (isCommand_of_fetch hx hf) hs
  | hang es bits hes f hb ht => subst ht; exact hs
  | blockReset es he ht => subst ht; exact fun _ => rfl
  | chipReset es he ht => subst ht; exact hs
  | disturb es d he ht => subst ht; exact hs

/-- Settles O53, by the cases of what a step can do: with nothing at Transport only commands of the host are run. -/
theorem stepKeepsShadowLastWrite : Obligations.StepKeepsShadowLastWrite :=
  fun s t hx hs h => ⟨(step_effect s t h).xfer_none hx, (step_effect s t h).keeps_shadowIsLastWrite hx hs⟩

/-! ### The merge (O18) -/

/-- R80: a merge with an empty mask is the old word. -/
theorem mergeWord_zero (old nb : Word) : mergeWord old nb 0 = old := by
  apply BitVec.eq_of_getLsbD_eq
  intro i hi
  have hmask : (0 : Word).getLsbD i = false := BitVec.getLsbD_zero
  rw [getLsbD_mergeWord, hmask, if_neg Bool.false_ne_true]

/-- R80, R75: the exchange of MergeAndWrite is the write exchange of the merged word. -/
theorem oneExchange_mergeAndWrite (s : State) (a : Addr) (nb m : Word) :
    OneExchange s (mergeAndWrite s a nb m).state (writeByte a) (mergeWord (readSh s a) nb m) (mergeAndWrite s a nb m).st
      (mergeAndWrite s a nb m).rw :=
  oneExchange_exchange s (writeByte a) (mergeWord (readSh s a) nb m)

/-- R12: a word stored in the shadow file over the shadow words of `s` changes no other of them. -/
theorem shadowSet_of_readSh {s t : State} {a : Addr} {w : Word}
    (h : ∀ b, readSh t b = if b = a then w else readSh s b) : ShadowSet s t a w :=
  ⟨by rw [h, if_pos rfl], fun b hb => by rw [h, if_neg hb]⟩

theorem shadowSet_mergeAndWrite (s : State) (a : Addr) (nb m : Word) :
    ShadowSet s (mergeAndWrite s a nb m).state a (mergeWord (readSh s a) nb m) :=
  shadowSet_of_readSh (readSh_writeSh (memWrite s a (mergeWord (readSh s a) nb m)).state a · _)

/-- Settles O18: the exchange, the shadow file, and the merge with a full and with an empty mask. -/
theorem mergeAndWriteSendsAndStores : Obligations.MergeAndWriteSendsAndStores := by
  intro s a nb m new e
  refine ⟨oneExchange_mergeAndWrite s a nb m, shadowSet_mergeAndWrite s a nb m, fun _ => rfl, fun hm => ?_, fun hm => ?_, rfl,
    rfl, rfl, rfl⟩
  · subst hm
    exact mergeWord_allOnes _ _
  · subst hm
    exact mergeWord_zero _ _

/-! ### RDREG of a readable register (O29) -/

theorem oneExchange_doneRead (s : State) (a : Addr) (v : Word) :
    OneExchange s (doneRead s a v) (readByte a) 0 (nextStatus s (readByte a) 0) (nextReply s a) := by
  rw [← memRead_st, ← memRead_rw]
  exact oneExchange_exchange (accept s) (readByte a) 0

theorem completed_doneRead (s : State) (a : Addr) (v : Word) :
    Completed s (doneRead s a v) true (nextStatus s (readByte a) 0) v :=
  ⟨rfl, rfl, rfl, rfl, rfl, rfl, rfl, rfl, rfl, rfl⟩

/-- R44: the chip reacts to the exchange of a getter as to a read. -/
theorem chipAfterRead_doneRead (s : State) (a : Addr) (v : Word) : ChipAfterRead s (doneRead s a v) a := by
  intro hlink b hb heffect
  rw [readChip, doneRead_chip, chipNext_intact (accept s) _ _ hlink, accept_cfg,
    chipAfter_read_ne _ _ _ _ _ _ hb heffect, accept_chip, chipMoved_read _ _ _ _ hb, readChip]

/-- Settles O29: the state after a read, clause by clause. -/
theorem rdregReadable : Obligations.RdregReadable :=
  fun s a x ha =>
    ⟨_, _, _, exec_rdreg_readable x ha, oneExchange_doneRead s a _, completed_doneRead s a _, filesSame_doneRead s a _,
      chipAfterRead_doneRead s a _⟩

/-! ### RDREG of a write-only register (O30) -/

theorem exec_rdreg_wo {s : State} {a : Addr} (x : Word) (h : accOf s.cfg a = some .wo) :
    exec (.rdreg a x) s = .next (doneSilent s (readSh s a)) := execRdreg_wo a x s h

theorem noExchange_doneSilent (s : State) (v : Word) : NoExchange s (doneSilent s v) :=
  ⟨rfl, rfl, chipKept_of_moved rfl, rfl, rfl, rfl, rfl⟩

theorem completed_doneSilent (s : State) (v : Word) : Completed s (doneSilent s v) false 0 v :=
  ⟨rfl, rfl, rfl, rfl, rfl, rfl, rfl, rfl, rfl, rfl⟩

/-- Settles O30: the state after a command with no exchange, clause by clause. -/
theorem rdregWriteOnly : Obligations.RdregWriteOnly :=
  fun s _ x ha =>
    ⟨_, exec_rdreg_wo x ha, noExchange_doneSilent s _, completed_doneSilent s _, filesSame_doneSilent s _⟩

/-! ### WRREG (O31) -/

/-- R70: the exchange of a command that wrote; the returned word is dropped (R75). -/
theorem oneExchange_doneWrite (s : State) (a : Addr) (w : Word) :
    OneExchange s (doneWrite s a w) (writeByte a) w (nextStatus s (writeByte a) w) (memWrite (accept s) a w).rw := by
  rw [← memWrite_st]
  exact oneExchange_exchange (accept s) (writeByte a) w

theorem completed_doneWrite (s : State) (a : Addr) (w : Word) :
    Completed s (doneWrite s a w) true (nextStatus s (writeByte a) w) 0 :=
  ⟨rfl, rfl, rfl, rfl, rfl, rfl, rfl, rfl, rfl, rfl⟩

/-- R40: the chip latches the word of a command that sent it through an intact link, also in a register that it changes on its
own. -/
theorem chipAfterWrite_of_sent {s t : State} {a : Addr} {w : Word}
    (hchip : t.chip = chipNext (accept s) (packDatagram (writeByte a) w)) (ha : writable s.cfg a = true) :
    ChipAfterWrite s t a w := by
  refine fun hlink => ⟨?_, fun b hne hb => (readChip_of_sent hchip hlink ha hb).trans (if_neg hne)⟩
  rw [readChip, hchip, chipNext_intact (accept s) _ _ hlink, accept_cfg, chipAfter_write_self _ _ _ _ _ ha]

/-- Settles O31: the state after a write of the whole word, clause by clause. -/
theorem wrregWritesWholeWord : Obligations.WrregWritesWholeWord :=
  fun s a v ha =>
    ⟨_, _, _, exec_wrreg_writable v ha, oneExchange_doneWrite s a v, completed_doneWrite s a v,
      shadowSet_of_readSh (readSh_doneWrite s a v), readSv_doneWrite s a v, chipAfterWrite_of_sent rfl ha⟩

/-! ### The shadow word after a sequence of field writes (O56) -/

/-- R112: each bit that a list of merges leaves is that of the last merge whose mask has it. -/
theorem getLsbD_mergeAll (w : Word) (l : List Encoded) (p : Nat) :
    (mergeAll w l).getLsbD p = lastMerged (w.getLsbD p) p l := by
  induction l generalizing w with
  | nil => rfl
  | cons e l ih => exact (ih (mergeWord w e.bits e.mask)).trans (by rw [getLsbD_mergeWord, lastMerged])

theorem mergeAll_append (w : Word) (l m : List Encoded) : mergeAll w (l ++ m) = mergeAll (mergeAll w l) m :=
  List.foldl_append

@[simp] theorem readSh_doneSilent (s : State) (v : Word) (a : Addr) : readSh (doneSilent s v) a = readSh s a := rfl

/-- What a SETF merges into the shadow word of `a` (R110, R112). -/
theorem mergeOf_setf {s : State} {f : FieldId} {d : Field} (a : Addr) (z : Word) (hd : fieldOf s.cfg f = some d) :
    mergeOf a (.setf f z) s =
      if d.reg = a ∧ gateOpen d (readSh s a) = true then [encodeField d (sext32 z)] else [] := by
  simp only [mergeOf, hd]

/-- R110: after SETF the shadow word of its field's register is the merged word, where the gate is open; every other shadow word
is as it was. -/
theorem execSetf_readSh {s t : State} {f : FieldId} {z : Word} (h : execSetf f z s = .next t) :
    ∃ d, fieldOf s.cfg f = some d ∧ ∀ a, readSh t a =
      if d.reg = a ∧ gateOpen d (readSh s a) = true then setfWord s d (sext32 z) else readSh s a := by
  obtain ⟨d, hd, -, hcases⟩ := execSetf_next s t f z h
  refine ⟨d, hd, fun a => ?_⟩
  by_cases ha : a = d.reg
  · subst ha
    rcases hcases with ⟨hg, rfl⟩ | ⟨hg, ⟨-, rfl⟩ | ⟨-, rfl⟩⟩
    · simp [hg]
    · simp [hg, readSh_doneWrite]
    · simp [hg, readSh_doneWriteCached]
  · rw [if_neg fun hopen => ha hopen.1.symm]
    rcases hcases with ⟨-, rfl⟩ | ⟨-, ⟨-, rfl⟩ | ⟨-, rfl⟩⟩
    · rfl
    · rw [readSh_doneWrite, if_neg ha]
    · rw [readSh_doneWriteCached, if_neg ha]

/-- R110, R80: SETF makes its merge, if it has one, in the shadow word of `a`. -/
theorem execSetf_merges {s t : State} {f : FieldId} {z : Word} (a : Addr) (h : execSetf f z s = .next t) :
    readSh t a = mergeAll (readSh s a) (mergeOf a (.setf f z) s) := by
  obtain ⟨d, hd, hsh⟩ := execSetf_readSh h
  rw [hsh, mergeOf_setf a z hd]
  split_ifs with hopen
  · obtain ⟨rfl, -⟩ := hopen
    rfl
  · rfl

/-- R12, R112: an instruction that is no WRREG to `a` makes its field write, if it is one, in the shadow word of `a`, and does
nothing else to it. -/
theorem exec_merges {i : Instr} {s t : State} {a : Addr} (hi : ∀ v, i ≠ .wrreg a v) (h : exec i s = .next t) :
    readSh t a = mergeAll (readSh s a) (mergeOf a i s) := by
  cases i with
  | rdreg b x => exact (execRdreg_filesSame (x := x) h).1 a
  | wrreg b v => exact execWrreg_readSh_ne h fun hab => hi v (by rw [hab])
  | getf f x => exact (execGetf_filesSame (x := x) h).1 a
  | setf f z => exact execSetf_merges a h
  | dgramRd b d => cases h; rfl
  | dgramWr b d => cases h; rfl

/-- Where a list of instructions runs to its end, its head completes and the others run on from there. -/
theorem execAll_cons_next {i : Instr} {l : List Instr} {s t : State} (h : execAll (i :: l) s = .next t) :
    ∃ u, exec i s = .next u ∧ execAll l u = .next t := by
  cases hx : exec i s with
  | next u => exact ⟨u, rfl, (execAll_cons l hx).symm.trans h⟩
  | fault r => cases r
  | refused r => simp [execAll, hx] at h

theorem fieldMerges_cons {i : Instr} {s u : State} (a : Addr) (l : List Instr) (h : exec i s = .next u) :
    fieldMerges a (i :: l) s = mergeOf a i s ++ fieldMerges a l u := by
  simp only [fieldMerges, h]

/-- R112: a run with no WRREG to `a` makes its field writes in the shadow word of `a`, in their order. -/
theorem execAll_merges {l : List Instr} {s t : State} {a : Addr} (hl : ∀ i ∈ l, ∀ v, i ≠ .wrreg a v)
    (h : execAll l s = .next t) : readSh t a = mergeAll (readSh s a) (fieldMerges a l s) := by
  induction l generalizing s with
  | nil =>
    cases h
    rfl
  | cons i l ih =>
    obtain ⟨hi, hrest⟩ := List.forall_mem_cons.mp hl
    obtain ⟨u, hx, hrun⟩ := execAll_cons_next h
    rw [fieldMerges_cons a l hx, mergeAll_append, ← exec_merges hi hx]
    exact ih hrest hrun

/-- Settles O56: the run makes its merges in order, and the bits of merges made in order are those of the last ones. -/
theorem shadowHoldsLastFieldWrites : Obligations.ShadowHoldsLastFieldWrites := by
  intro l s t a hl h
  have hmerges : readSh t a = mergeAll (readSh s a) (fieldMerges a l s) := execAll_merges hl h
  exact ⟨hmerges, fun p _ => by rw [hmerges, getLsbD_mergeAll]⟩

end Sys2Proof.Machine
end

section
/-!
PROOFS of the family 42_field_codec.md: what Encode returns for each policy (R90 to R96), what Decode gives back (R97 to R99),
the law of clamp (R103), and the mode gate of a field (R100, R101).
-/
namespace Sys2Proof.Machine

/-! ### What well-formedness says of a policy and of a field (R120) -/

theorem policyWf_clamp_iff (w : Nat) (min max : Int) :
    (Policy.clamp min max).wf w = true ↔ 0 ≤ min ∧ min ≤ max ∧ max ≤ onesInt w := by
  simp [Policy.wf]

theorem policyWf_bias_bounds {w : Nat} {min max offset : Int} (h : (Policy.bias min max offset).wf w = true) :
    min ≤ max ∧ 0 ≤ min + offset := by
  simp only [Policy.wf, Bool.and_eq_true, decide_eq_true_eq] at h
  obtain ⟨⟨⟨⟨hle, hlow, -⟩, -⟩, -⟩, -⟩ := h
  exact ⟨hle, hlow⟩

theorem policyWf_quant_length {w : Nat} {l : List Int} {dir : Dir} (h : (Policy.quant l dir).wf w = true) :
    1 ≤ l.length := by
  simp only [Policy.wf, Bool.and_eq_true, decide_eq_true_eq] at h
  exact h.2.1

theorem fieldWf_fits {c : Config} {d : Field} (h : d.wf c = true) :
    d.off + d.width ≤ 32 ∧ d.policy.wf d.width = true := by
  simp only [Field.wf, Bool.and_eq_true, decide_eq_true_eq] at h
  obtain ⟨⟨⟨-, -, hfit⟩, hpol⟩, -⟩ := h
  exact ⟨hfit, hpol⟩

/-! ### Decode by the policy (O28) -/

theorem decodeField_clamp {d : Field} {min max : Int} (h : d.policy = .clamp min max) (w : Word) (free : Int) :
    decodeField d w free = fieldCode d w := by
  rw [decodeField, h]

theorem decodeField_bias {d : Field} {min max offset : Int} (h : d.policy = .bias min max offset) (w : Word) (free : Int) :
    decodeField d w free = fieldCode d w - offset := by
  rw [decodeField, h]

theorem decodeField_quant {d : Field} {l : List Int} {dir : Dir} (h : d.policy = .quant l dir) (w : Word) (free : Int) :
    decodeField d w free = l.getD (fieldCode d w) free := by
  simp only [decodeField, h, List.getD_eq_getElem?_getD]
  cases l[fieldCode d w]? <;> rfl

/-- Settles O28: the code's bits, and the answer of Decode for each policy. -/
theorem decodeByPolicy : Obligations.DecodeByPolicy := by
  intro d w free _ hfit
  refine ⟨fun i => testBit_fieldCode d w i hfit, fun _ _ h => decodeField_clamp h w free,
    fun _ _ _ h => decodeField_bias h w free, fun l dir h => ?_⟩
  rw [decodeField_quant h]
  exact ⟨fun hlt => by rw [List.getD_eq_getElem _ _ hlt, List.getD_eq_getElem _ _ hlt],
    fun hge => List.getD_eq_default _ _ hge⟩

/-! ### The clamp -/

theorem clampInt_below {z lo : Int} (hi : Int) (h : z < lo) : clampInt z lo hi = lo := if_pos h

theorem clampInt_above {z lo hi : Int} (hle : lo ≤ hi) (h : hi < z) : clampInt z lo hi = hi := by
  rw [clampInt, if_neg (by omega), if_pos h]

/-! ### Encode for CLAMP and BIAS (O21, O22) -/

/-- R91: the code of CLAMP is the clamp. -/
theorem policyCode_clamp {w : Nat} {min max : Int} (z : Int) (h : (Policy.clamp min max).wf w = true) :
    (policyCode (.clamp min max) z : Int) = clampInt z min max := by
  obtain ⟨hmin, hle, -⟩ := (policyWf_clamp_iff w min max).mp h
  have hlow : min ≤ clampInt z min max := (clampInt_bounds z min max hle).1
  exact Int.toNat_of_nonneg (hmin.trans hlow)

/-- R92: the code of BIAS is the clamp plus the bias. -/
theorem policyCode_bias {w : Nat} {min max offset : Int} (z : Int) (h : (Policy.bias min max offset).wf w = true) :
    (policyCode (.bias min max offset) z : Int) = clampInt z min max + offset := by
  obtain ⟨hle, hlow⟩ := policyWf_bias_bounds h
  have hclamp : min ≤ clampInt z min max := (clampInt_bounds z min max hle).1
  exact Int.toNat_of_nonneg (by omega)

/-- R90: the bits are the code shifted into place. -/
theorem encode_bits (d : Field) (z : Int) :
    (encodeField d z).bits = BitVec.ofNat 32 (policyCode d.policy z) <<< d.off := rfl

theorem encode_bits_of_code {d : Field} {z code : Int} (h : (policyCode d.policy z : Int) = code) :
    (encodeField d z).bits = BitVec.ofInt 32 code <<< d.off := by
  rw [encode_bits, ← h, BitVec.ofInt_natCast]

/-- R91, R92: the canonical value of CLAMP and of BIAS is the clamp. -/
theorem encode_canon_clamp {d : Field} {min max : Int} (z : Int)
    (h : d.policy = .clamp min max ∨ ∃ offset, d.policy = .bias min max offset) :
    (encodeField d z).canon = clampInt z min max := by
  rcases h with h | ⟨offset, h⟩ <;> rw [encode_canon, h, policyCanon]

/-- Settles O21: the clamp lies at or above `min`, so not below zero, and is its own code. -/
theorem encodeClamp : Obligations.EncodeClamp := by
  intro d z min max hpol hwf
  rw [hpol] at hwf
  obtain ⟨hmin, hle, -⟩ := (policyWf_clamp_iff _ _ _).mp hwf
  have hcanon : (encodeField d z).canon = clampInt z min max := encode_canon_clamp z (.inl hpol)
  have hcode : (policyCode d.policy z : Int) = clampInt z min max := hpol ▸ policyCode_clamp z hwf
  rw [hcanon]
  exact ⟨rfl, hcode, encode_bits_of_code hcode, rfl, clampInt_below max, clampInt_above hle,
    fun hz => clampInt_below max (hz.trans_le hmin), clampInt_self z min max⟩

/-- R92: with a bias of zero, BIAS encodes as CLAMP. -/
theorem encodeField_bias_zero {d : Field} {min max : Int} (z : Int) (h : d.policy = .bias min max 0) :
    encodeField { d with policy := .clamp min max } z = encodeField d z := by
  simp only [encodeField, h, policyCode, policyCanon, Int.add_zero]

/-- Settles O22: the clamp plus the bias lies at or above `min + offset`, so not below zero, and is the code. -/
theorem encodeBias : Obligations.EncodeBias := by
  intro d z min max offset hpol hwf
  rw [hpol] at hwf
  obtain ⟨hle, -⟩ := policyWf_bias_bounds hwf
  have hcanon : (encodeField d z).canon = clampInt z min max := encode_canon_clamp z (.inr ⟨offset, hpol⟩)
  have hcode : (policyCode d.policy z : Int) = clampInt z min max + offset := hpol ▸ policyCode_bias z hwf
  rw [hcanon]
  exact ⟨rfl, hcode, encode_bits_of_code hcode, rfl, clampInt_below max, clampInt_above hle, clampInt_self z min max,
    decodeField_bias hpol, fun hzero => encodeField_bias_zero z (hzero ▸ hpol)⟩

/-! ### The index of a quantized field (O23) -/

theorem greatestIdx_none (p : Int → Bool) (l : List Int) (i : Nat) :
    greatestIdx p l i = none ↔ ∀ x ∈ l, p x = false := by
  induction l generalizing i with
  | nil => simp [greatestIdx]
  | cons x xs ih =>
    have hrest := ih (i + 1)
    cases hg : greatestIdx p xs (i + 1) <;> simp [greatestIdx, hg, ← hrest]

/-- R93, D17: rounding down takes the least index whose member is not above `z`, else the last one. -/
theorem quantIdx_down (l : List Int) (z : Int) :
    ((∃ x ∈ l, x ≤ z) → l.getD (quantIdx l .down z) 0 ≤ z ∧ ∀ j, j < quantIdx l .down z → z < l.getD j 0) ∧
      ((∀ x ∈ l, z < x) → quantIdx l .down z = l.length - 1) := by
  have hnone := leastIdx_none (fun x => decide (x ≤ z)) l 0
  cases hi : leastIdx (fun x => decide (x ≤ z)) l 0 with
  | none =>
    have hidx : quantIdx l .down z = l.length - 1 := by simp [quantIdx, hi]
    have habove : ∀ x ∈ l, z < x := by simpa using hnone.mp hi
    exact ⟨fun ⟨x, hx, hle⟩ => absurd hle (habove x hx).not_ge, fun _ => hidx⟩
  | some k =>
    have hidx : quantIdx l .down z = k := by simp [quantIdx, hi]
    obtain ⟨-, -, hk, hbefore⟩ := leastIdx_some _ _ _ _ hi
    rw [hidx]
    refine ⟨fun _ => ⟨by simpa using hk, fun j hj => by simpa using hbefore j hj⟩, fun habove => ?_⟩
    simp [hnone.mpr (by simpa using habove)] at hi

/-- R94, D17: rounding up takes the greatest index whose member is not below `z`, else the first one. -/
theorem quantIdx_up (l : List Int) (z : Int) :
    ((∃ x ∈ l, z ≤ x) →
        z ≤ l.getD (quantIdx l .up z) 0 ∧ ∀ j, quantIdx l .up z < j → j < l.length → l.getD j 0 < z) ∧
      ((∀ x ∈ l, x < z) → quantIdx l .up z = 0) := by
  have hnone := greatestIdx_none (fun x => decide (z ≤ x)) l 0
  cases hi : greatestIdx (fun x => decide (z ≤ x)) l 0 with
  | none =>
    have hidx : quantIdx l .up z = 0 := by simp [quantIdx, hi]
    have hbelow : ∀ x ∈ l, x < z := by simpa using hnone.mp hi
    exact ⟨fun ⟨x, hx, hle⟩ => absurd hle (hbelow x hx).not_ge, fun _ => hidx⟩
  | some k =>
    have hidx : quantIdx l .up z = k := by simp [quantIdx, hi]
    obtain ⟨-, -, hk, hafter⟩ := greatestIdx_some _ _ _ _ hi
    rw [hidx]
    refine ⟨fun _ => ⟨by simpa using hk, fun j hj hl => not_le.mp (of_decide_eq_false (hafter j hj hl))⟩, fun hbelow => ?_⟩
    simp [hnone.mpr (by simpa using hbelow)] at hi

/-- Settles O23: the index is what each rounding direction selects, and it is a position of the set. -/
theorem quantizedCodeIsTheIndex : Obligations.QuantizedCodeIsTheIndex := by
  intro d z l dir hpol hwf
  rw [hpol] at hwf
  refine ⟨quantIdx l dir z, quantIdx_lt l dir z (policyWf_quant_length hwf), ?_, ?_, ?_, ?_, ?_⟩
  · rw [hpol, policyCode]
  · rw [encode_canon, hpol, policyCanon]
  · rw [encode_bits, hpol, policyCode]
  · rintro rfl
    exact quantIdx_down l z
  · rintro rfl
    exact quantIdx_up l z

/-! ### The bits of an encoded field stay inside its mask (O24) -/

theorem getLsbD_fieldMask_outside {off w i : Nat} (h : i < off ∨ off + w ≤ i) : (fieldMask off w).getLsbD i = false := by
  by_cases hi : i < 32
  · rw [getLsbD_fieldMask _ _ _ hi, decide_eq_false_iff_not]
    omega
  · exact BitVec.getLsbD_of_ge _ _ (not_lt.mp hi)

theorem getLsbD_encode_bits_outside {d : Field} {z : Int} {i : Nat} (hcode : policyCode d.policy z < 2 ^ d.width)
    (h : i < d.off ∨ d.off + d.width ≤ i) : (encodeField d z).bits.getLsbD i = false := by
  by_cases hi : i < 32
  · rw [getLsbD_encode_bits _ _ _ hi]
    rcases h with h | h
    · simp [h]
    · have hpow : 2 ^ d.width ≤ 2 ^ (i - d.off) := Nat.pow_le_pow_right (by decide) (by omega)
      rw [Nat.testBit_lt_two_pow (hcode.trans_le hpow), Bool.and_false]
  · exact BitVec.getLsbD_of_ge _ _ (not_lt.mp hi)

/-- R96: a code that fits the field sets no bit outside the field's mask. -/
theorem encode_bits_inside_mask {d : Field} {z : Int} (hcode : policyCode d.policy z < 2 ^ d.width) :
    (encodeField d z).bits &&& ~~~(encodeField d z).mask = 0 := by
  apply BitVec.eq_of_getLsbD_eq
  intro i hi
  rw [BitVec.getLsbD_and, BitVec.getLsbD_not, encode_mask]
  by_cases hin : d.off ≤ i ∧ i < d.off + d.width
  · simp [getLsbD_fieldMask _ _ _ hi, hin]
  · simp [getLsbD_encode_bits_outside hcode (by omega : i < d.off ∨ d.off + d.width ≤ i)]

/-- R80, R96: a merge of an encoded field keeps every bit outside the field. -/
theorem getLsbD_mergeWord_outside (d : Field) (z : Int) (w : Word) {i : Nat} (h : i < d.off ∨ d.off + d.width ≤ i) :
    (mergeWord w (encodeField d z).bits (encodeField d z).mask).getLsbD i = w.getLsbD i := by
  rw [getLsbD_mergeWord, encode_mask, getLsbD_fieldMask_outside h, if_neg Bool.false_ne_true]

/-- Settles O24: the code of a well-formed descriptor fits the field, and the rest follows from that. -/
theorem encodeFitsTheField : Obligations.EncodeFitsTheField := by
  intro c d z hwf
  have hcode : policyCode d.policy z < 2 ^ d.width := policyCode_lt _ _ z (fieldWf_fits hwf).2
  exact ⟨hcode, encode_bits_inside_mask hcode, fun w _ => getLsbD_mergeWord_outside d z w⟩

/-! ### Decode of encode (O25) -/

/-- R97: the code that stands in the encoded bits is the code that was encoded. -/
theorem fieldCode_encode {c : Config} {d : Field} (z : Int) (hwf : d.wf c = true) :
    fieldCode d (encodeField d z).bits = policyCode d.policy z := by
  obtain ⟨hfit, hpol⟩ := fieldWf_fits hwf
  refine fieldCode_eq d _ _ hfit (policyCode_lt _ _ z hpol) fun i hi => ?_
  rw [getLsbD_encode_bits _ _ _ (by omega)]
  simp

/-- R103: decode of encode is the clamp; for BIAS the added bias is subtracted again. -/
theorem decode_encode_clamp {c : Config} {d : Field} {min max : Int} (z free : Int) (hwf : d.wf c = true)
    (h : d.policy = .clamp min max ∨ ∃ offset, d.policy = .bias min max offset) :
    decodeField d (encodeField d z).bits free = clampInt z min max := by
  have hpol : d.policy.wf d.width = true := (fieldWf_fits hwf).2
  rcases h with h | ⟨offset, h⟩
  · rw [decodeField_clamp h, fieldCode_encode z hwf, h, policyCode_clamp z (h ▸ hpol)]
  · rw [decodeField_bias h, fieldCode_encode z hwf, h, policyCode_bias z (h ▸ hpol), Int.add_sub_cancel]

/-- Settles O25: in the legal range the clamp is the value itself. -/
theorem clampLaw : Obligations.ClampLaw := by
  intro c d z free min max hwf hpol
  have hdecode := decode_encode_clamp z free hwf hpol
  exact ⟨hdecode, encode_canon_clamp z hpol, fun hmin hmax => hdecode.trans (clampInt_self z min max hmin hmax)⟩

/-! ### The mode gate (O36, O46) -/

theorem gateOpen_of_none {d : Field} (h : d.gate = none) (w : Word) : gateOpen d w = true := by
  rw [gateOpen, h]

theorem gateOpen_of_some {d : Field} {g : Gate} (h : d.gate = some g) (w : Word) :
    gateOpen d w = (w.getLsbD g.gbit == g.gval) := by
  rw [gateOpen, h]

/-- R110: a SETF that completes has an exchange exactly where the gate is open on the shadow word. -/
theorem execSetf_exchanges_iff {s t : State} {f : FieldId} {z : Word} {d : Field} (hd : fieldOf s.cfg f = some d)
    (h : execSetf f z s = .next t) : t.wire ≠ s.wire ↔ gateOpen d (readSh s d.reg) = true := by
  simp [execSetf_silent_iff h, hd]

/-- Settles O36: without a gate the gate is open in every word, with one it is open by its bit. -/
theorem gateFollowsShadowBit : Obligations.GateFollowsShadowBit := by
  intro s t f z d hd h
  have hexch : t.wire ≠ s.wire ↔ gateOpen d (readSh s d.reg) = true := execSetf_exchanges_iff (z := z) hd h
  refine ⟨fun hnone => ?_, fun g hg => ?_⟩
  · have hopen := gateOpen_of_none hnone (readSh s d.reg)
    exact ⟨hopen, hexch.mpr hopen⟩
  · have hbit : gateOpen d (readSh s d.reg) = true ↔ (readSh s d.reg).getLsbD g.gbit = g.gval := by
      rw [gateOpen_of_some hg, beq_iff_eq]
    exact ⟨hbit, hexch.trans hbit⟩

/-- R101: the two of a mode-gated pair are gated on the same bit, with opposite values. -/
theorem gates_of_gatedPair {d e : Field} (h : d.gatedPair e = true) :
    ∃ g k, d.gate = some g ∧ e.gate = some k ∧ k.gbit = g.gbit ∧ k.gval = !g.gval := by
  rcases hd : d.gate with _ | g
  · simp [Field.gatedPair, hd] at h
  rcases he : e.gate with _ | k
  · simp [Field.gatedPair, hd, he] at h
  simp only [Field.gatedPair, hd, he, Bool.and_eq_true, beq_iff_eq, bne_iff_ne] at h
  obtain ⟨⟨-, hbit⟩, hval⟩ := h
  exact ⟨g, k, rfl, rfl, hbit.symm, Bool.eq_not_of_ne hval.symm⟩

/-- Settles O46: one bit of the word cannot have both of two opposite values, and has one of them. -/
theorem gatedPairHasOneOpenGate : Obligations.GatedPairHasOneOpenGate := by
  intro d e w h
  obtain ⟨g, k, hd, he, hbit, hval⟩ := gates_of_gatedPair h
  rw [gateOpen_of_some hd, gateOpen_of_some he, hbit, hval]
  cases w.getLsbD g.gbit <;> cases g.gval <;> rfl

end Sys2Proof.Machine
end

section
/-!
PROOFS of the family 43_field_access.md: the field commands GETF (R111) and SETF (R110), each from the closed form of the state
that it answers.
-/
namespace Sys2Proof.Machine

/-! ### GETF (O32, O33) -/

theorem exec_getf_readable {s : State} {f : FieldId} {d : Field} (x : Word) (hd : fieldOf s.cfg f = some d)
    (h : readable s.cfg d.reg = true) : exec (.getf f x) s = .next (doneRead s d.reg (getfVal s d)) :=
  execGetf_readable f x s d hd h

theorem exec_getf_wo {s : State} {f : FieldId} {d : Field} (x : Word) (hd : fieldOf s.cfg f = some d)
    (h : accOf s.cfg d.reg = some .wo) : exec (.getf f x) s = .next (doneSilent s (trunc32 (readSv s f))) :=
  execGetf_wo f x s d hd h

/-- Settles O32: the state after a read, whose result is the decode of the word that its own exchange returned. -/
theorem getfReadable : Obligations.GetfReadable :=
  fun s _ x d hd ha =>
    ⟨_, _, _, exec_getf_readable x hd ha, oneExchange_doneRead s d.reg _, completed_doneRead s d.reg (getfVal s d),
      filesSame_doneRead s d.reg _, chipAfterRead_doneRead s d.reg _⟩

/-- Settles O33: the state after a command with no exchange, whose result is the cached value. -/
theorem getfWriteOnly : Obligations.GetfWriteOnly :=
  fun s _ x _ hd ha =>
    ⟨_, exec_getf_wo x hd ha, noExchange_doneSilent s _, completed_doneSilent s _, filesSame_doneSilent s _⟩

/-! ### SETF (O34, O35) -/

theorem exec_setf_closed {s : State} {f : FieldId} {d : Field} (z : Word) (hd : fieldOf s.cfg f = some d)
    (h : writable s.cfg d.reg = true) (hg : gateOpen d (readSh s d.reg) = false) :
    exec (.setf f z) s = .next (doneSilent s 0) :=
  execSetf_closed f z s d hd h hg

theorem exec_setf_open_wo {s : State} {f : FieldId} {d : Field} (z : Word) (hd : fieldOf s.cfg f = some d)
    (h : accOf s.cfg d.reg = some .wo) (hg : gateOpen d (readSh s d.reg) = true) :
    exec (.setf f z) s =
      .next (doneWriteCached s d.reg (setfWord s d (sext32 z)) f (cachedValue s.cfg d (sext32 z))) :=
  (execSetf_wo f z s d hd h).trans (congrArg _ (setField_open_wo f d _ s hg))

theorem exec_setf_open_rw {s : State} {f : FieldId} {d : Field} (z : Word) (hd : fieldOf s.cfg f = some d)
    (h : accOf s.cfg d.reg = some .rw) (hg : gateOpen d (readSh s d.reg) = true) :
    exec (.setf f z) s = .next (doneWrite s d.reg (setfWord s d (sext32 z))) :=
  (execSetf_rw f z s d hd h).trans (congrArg _ (setField_open_rw f d _ s hg))

/-- R16: the store in the semantic cache moves no bit on the link: the exchange is that of the write. -/
theorem oneExchange_doneWriteCached (s : State) (a : Addr) (w : Word) (f : FieldId) (v : Int) :
    OneExchange s (doneWriteCached s a w f v) (writeByte a) w (nextStatus s (writeByte a) w)
      (memWrite (accept s) a w).rw :=
  oneExchange_doneWrite s a w

theorem completed_doneWriteCached (s : State) (a : Addr) (w : Word) (f : FieldId) (v : Int) :
    Completed s (doneWriteCached s a w f v) true (nextStatus s (writeByte a) w) 0 :=
  completed_doneWrite s a w

/-- Settles O34, by the two access kinds of a write-capable register: the same write, and a cached value for a write-only
register alone. -/
theorem setfEffective : Obligations.SetfEffective := by
  intro s f z d hd hw hg
  rcases (writable_iff _ _).mp hw with ha | ha
  · have hsv := readSv_doneWriteCached s d.reg (setfWord s d (sext32 z)) f (cachedValue s.cfg d (sext32 z))
    refine ⟨_, _, _, _, exec_setf_open_wo z hd ha hg, rfl, oneExchange_doneWriteCached s d.reg _ f _,
      completed_doneWriteCached s d.reg _ f _, shadowSet_of_readSh (readSh_doneWriteCached s d.reg _ f _),
      chipAfterWrite_of_sent rfl hw, fun g hne => ?_, fun _ => ?_, fun hrw => ?_⟩
    · rw [hsv, if_neg hne]
    · exact (hsv f).trans (if_pos rfl)
    · simp [ha] at hrw
  · have hsv := readSv_doneWrite s d.reg (setfWord s d (sext32 z))
    refine ⟨_, _, _, _, exec_setf_open_rw z hd ha hg, rfl, oneExchange_doneWrite s d.reg _,
      completed_doneWrite s d.reg _, shadowSet_of_readSh (readSh_doneWrite s d.reg _),
      chipAfterWrite_of_sent rfl hw, fun g _ => hsv g, fun hwo => ?_, fun _ => hsv f⟩
    simp [ha] at hwo

/-- Settles O35: the state after a command with no exchange, whatever the value. -/
theorem setfDroppedByClosedGate : Obligations.SetfDroppedByClosedGate :=
  fun s _ z _ hd hw hg =>
    ⟨_, exec_setf_closed z hd hw hg, noExchange_doneSilent s _, completed_doneSilent s _, filesSame_doneSilent s _⟩

end Sys2Proof.Machine
end

section
/-!
PROOFS of the family 44_tables.md: the default tables (R121 to R124) against the conditions of R120. Ids are keys of a
well-formed table, so a row of the table is what its id looks up.
-/
namespace Sys2Proof.Machine

/-! ### Look-up of a row by its id -/

/-- R120 part 2 makes the id a key: a descriptor of the table is the one that its id selects. -/
theorem fieldOf_of_mem {c : Config} {f : FieldId} {d : Field} (hids : FieldTable.idsWf c.fieldTable = true)
    (hd : d ∈ c.fieldTable) (hid : d.id = f) : fieldOf c f = some d := by
  subst hid
  have hpair : c.fieldTable.Pairwise (fun d e => d.id ≠ e.id) := of_decide_eq_true hids
  obtain ⟨before, after, heq⟩ := List.append_of_mem hd
  rw [heq, List.pairwise_append] at hpair
  obtain ⟨-, -, hbefore⟩ := hpair
  refine List.find?_eq_some_iff_append.mpr ⟨beq_self_eq_true _, before, after, heq, fun e he => ?_⟩
  have hne : e.id ≠ d.id := hbefore e he d (List.mem_cons_self ..)
  simp [hne]

/-! ### The default tables (O58) -/

/-- The default ids are consecutive from zero (R121, R124). -/
theorem fieldTableDefault_ids : fieldTableDefault.map Field.id = (List.range 77).map (BitVec.ofNat 8) := rfl

theorem fieldTableDefault_length : fieldTableDefault.length = 77 := by
  simpa using congrArg List.length fieldTableDefault_ids

/-- R120 part 2: consecutive ids below 2^8 are distinct. -/
theorem fieldTableDefault_idsWf : FieldTable.idsWf fieldTableDefault = true := by
  have hnodup : ((List.range 77).map (BitVec.ofNat 8)).Nodup := by
    refine List.Nodup.map_on (fun m hm n hn h => ?_) List.nodup_range
    rw [List.mem_range] at hm hn
    have := congrArg BitVec.toNat h
    simp only [BitVec.toNat_ofNat] at this
    omega
  rw [← fieldTableDefault_ids] at hnodup
  exact decide_eq_true (List.pairwise_map.mp hnodup)

/-- R120 part 1. -/
theorem regTableDefault_wf : RegTable.wf regTableDefault = true := by decide

/-- R120 parts 3 to 7. -/
theorem fieldTableDefault_all_wf : fieldTableDefault.all (Field.wf configDefault) = true := by decide

/-- R120 part 8: the one overlap is the mode-gated pair of CHOPCONF. -/
theorem fieldTableDefault_overlapsWf : FieldTable.overlapsWf fieldTableDefault = true := by decide

theorem configDefault_wf : configDefault.wf = true := by
  have hclk : decide (2 ≤ configDefault.clkDiv) = true := rfl
  simp only [Config.wf, Bool.and_eq_true]
  exact ⟨⟨⟨⟨regTableDefault_wf, fieldTableDefault_idsWf⟩, fieldTableDefault_all_wf⟩, fieldTableDefault_overlapsWf⟩, hclk⟩

/-- A row of the default tables is found by its id. -/
theorem fieldOf_configDefault {f : FieldId} {d : Field} (hd : d ∈ fieldTableDefault) (hid : d.id = f) :
    fieldOf configDefault f = some d :=
  fieldOf_of_mem fieldTableDefault_idsWf hd hid

/-- Settles O58: the conditions of R120 one by one, and the rows of T-CORE by their ids. -/
theorem defaultTablesWellFormed : Obligations.DefaultTablesWellFormed :=
  ⟨configDefault_wf, rfl, rfl, rfl, rfl, fieldTableDefault_length,
    fieldOf_configDefault (by simp [fieldTableDefault, fieldsIholdIrun]) rfl,
    fieldOf_configDefault (by simp [fieldTableDefault, fieldsIholdIrun]) rfl,
    fieldOf_configDefault (by simp [fieldTableDefault, fieldsChopconf]) rfl⟩

end Sys2Proof.Machine
end

section
/-!
PROOFS of the family 60_exceptions.md: nothing detects a failure of the link (R143, R147), so a command completes whatever was
sampled and delivered (R175); and a word that the decoder rejects is refused by its name (R146).
-/
namespace Sys2Proof.Machine

/-! ### The reserved command words (O7) -/

/-- R55: with nothing at Transport, the word on the port is what the decoder sees; its rejection is what is fetched. -/
theorem fetch_of_decodeError {s : State} {w : CommandWord} {e : DecodeError} (hx : s.xfer = none)
    (hw : s.commands[s.ci]? = some w) (hd : decodeCommand w = .error e) : fetch s = .rejected (refusalOf e) := by
  simp [fetch, presented, hx, cmdPort, hw, decode, hd]

/-- R59, R146: with the port free and no event, a step refuses what the fetch rejects. -/
theorem step_of_rejected {s : State} {r : Refusal} (he : s.events = []) (hb : s.busy = false)
    (hf : fetch s = .rejected r) : step s = .refused r := by
  simp [step, he, hb, runPort, hf]

/-- Settles O7: both names are those of the decoder's error, which the fetch hands to the step. -/
theorem stepRefusesReservedWord : Obligations.StepRefusesReservedWord :=
  fun _ _ he hb hx hw =>
    ⟨fun _ hd => step_of_rejected he hb (fetch_of_decodeError hx hw hd),
      fun _ hd => step_of_rejected he hb (fetch_of_decodeError hx hw hd)⟩

/-! ### A failure of the link (O60) -/

section
variable {s : State} {g : Disturbance} (hlink : s.disturb = some g)
include hlink

/-- R143: the status byte of a command is the first byte sampled, whatever it is. -/
theorem nextStatus_sampled {d : Datagram} (ab : Byte) (dw : Word) (hd : g.sampled = some d) :
    nextStatus s ab dw = d.extractLsb' 32 8 := by
  rw [nextStatus, inbound_sampled (accept s) ab dw g d hlink hd]

/-- R143: a read returns the last 32 bits sampled, whatever they are. -/
theorem nextReply_sampled {d : Datagram} (a : Addr) (hd : g.sampled = some d) : nextReply s a = d.extractLsb' 0 32 := by
  rw [nextReply, inbound_sampled (accept s) (readByte a) 0 g d hlink hd]

/-- R143, R175: a write whose datagram is lost changes no register of the chip; before and in its exchange the chip changes
only what it changes on its own. -/
theorem chipKept_doneWrite_lost (a : Addr) (w : Word) (hlost : g.delivery = .lost) : ChipKept s (doneWrite s a w) := by
  intro b hb
  rw [readChip, doneWrite_chip, chipNext_lost (accept s) _ g hlink hlost, accept_cfg, chipMoved_read _ _ _ _ hb, accept_chip,
    chipMoved_read _ _ _ _ hb, readChip]

end

/-- R175: a failure ends with its exchange, so a write that follows brings its word to the shadow file and to the chip. -/
theorem doneWrite_repairs {t : State} {a : Addr} (w : Word) (hlink : t.disturb = none) (ha : writable t.cfg a = true) :
    readSh (doneWrite t a w) a = w ∧ readChip (doneWrite t a w) a = w := by
  have hafter : ChipAfterWrite t (doneWrite t a w) a w := chipAfterWrite_of_sent rfl ha
  exact ⟨(readSh_doneWrite t a w a).trans (if_pos rfl), (hafter hlink).1⟩

/-- Settles O60: the states after the two writes and after the read, with the bits of the failed exchange. -/
theorem linkFailureGoesUnnoticed : Obligations.LinkFailureGoesUnnoticed := by
  intro s g hlink
  refine ⟨fun a v w ha => ?_, fun a x d ha hd => ?_⟩
  · have ha' : writable (doneWrite s a v).cfg a = true := by rwa [doneWrite_cfg]
    exact ⟨doneWrite s a v, doneWrite (doneWrite s a v) a w, _, _, exec_wrreg_writable v ha, oneExchange_doneWrite s a v,
      completed_doneWrite s a v, fun _ hd => nextStatus_sampled hlink _ _ hd, shadowSet_of_readSh (readSh_doneWrite s a v),
      chipKept_doneWrite_lost hlink a v, exec_wrreg_writable w ha', doneWrite_repairs w (doneWrite_disturb s a v) ha'⟩
  · rw [← nextStatus_sampled hlink (readByte a) 0 hd, ← nextReply_sampled hlink a hd]
    exact ⟨_, exec_rdreg_readable x ha, completed_doneRead s a _, filesSame_doneRead s a _⟩

end Sys2Proof.Machine
end

section
/-!
PROOFS of the family 70_reset_and_hazards.md: the length of an exchange (R180), the read that primes the next one (R166), a frame
that a reset of the block cuts short (R160, U9), and a reset of the chip (R161, R170).
-/
namespace Sys2Proof.Machine

/-! ### The length of an exchange (O16) -/

@[simp] theorem waveLength_nil : waveLength [] = 0 := rfl

@[simp] theorem waveLength_cons (x : Segment) (w : List Segment) : waveLength (x :: w) = x.len + waveLength w := by
  simp [waveLength]

@[simp] theorem waveLength_append (v w : List Segment) : waveLength (v ++ w) = waveLength v + waveLength w := by
  simp [waveLength]

@[simp] theorem holdPins_len (l : Link) (n : Nat) : (holdPins l n).len = n := rfl

/-- R76: the low and the high part of a bit period are together `CLKDIV` long, whether that is even or odd. -/
theorem waveLength_bitsWave (c : Config) (l : Link) (bs : List Bool) :
    waveLength (bitsWave c l bs) = bs.length * c.clkDiv := by
  induction bs generalizing l with
  | nil => simp [bitsWave]
  | cons b bs ih =>
    have hperiod : c.clkDiv / 2 + (c.clkDiv - c.clkDiv / 2) = c.clkDiv := Nat.add_sub_of_le (Nat.div_le_self _ _)
    rw [bitsWave, waveLength_cons, waveLength_cons, holdPins_len, holdPins_len, ih, ← Nat.add_assoc, hperiod,
      List.length_cons, Nat.succ_mul, Nat.add_comm]

/-- Settles O16: the set-up, the 40 bit periods and the hold, one after the other. -/
theorem exchangeLength : Obligations.ExchangeLength := by
  intro c l out40 in40
  simp only [frameWave, waveLength_cons, waveLength_append, waveLength_nil, holdPins_len, waveLength_bitsWave,
    length_bitsMsbFirst]
  omega

/-! ### The read that primes the next one (O44) -/

/-- R36, R41: after a command that read register `a`, which neither the chip on its own nor a read changes, the reply word is
the word of `a` from before the read to after it. -/
theorem doneRead_rpl_intact {s : State} {a : Addr} (v : Word) (hlink : s.disturb = none) (hread : readable s.cfg a = true)
    (ha : a ∉ s.cfg.chipChanges) (hne : noReadEffectOn s.cfg a) :
    (doneRead s a v).rpl = .dataOf a (readChip s a) (readChip s a) := by
  have hmoved : (chipMoved s.cfg s.chip s.moments).read a = readChip s a := chipMoved_read _ _ _ _ ha
  rw [doneRead_rpl]
  refine (replyTakes_intact (accept s) _ _ hlink).trans ?_
  rw [accept_cfg, replyAfter_readable _ _ _ _ _ hread, chipAfter_read_kept _ _ _ (byteWrite_readByte a) ha hne,
    chipMoved_read _ _ _ _ ha, accept_chip, hmoved]

/-- R41: data that is the same at all three instants is returned, whichever instant is drawn. -/
theorem returnedWord_same {c : Config} {a : Addr} {w : Word} {after : Memory} (n : Nat) (ha : a ∉ c.chipChanges)
    (hafter : after.read a = w) : returnedWord c (.dataOf a w w) after n = w := by
  simpa [hafter] using returnedWord_dataOf c a w w after n ha

/-- R36, R41: where the reply word is the data of a register whose word is the same at all three instants, the next read
returns that word, whatever it addresses. -/
theorem nextReply_of_data {s : State} {a : Addr} {w : Word} (b : Addr) (hlink : s.disturb = none)
    (hrpl : s.rpl = .dataOf a w w) (hchip : readChip s a = w) (ha : a ∉ s.cfg.chipChanges)
    (hne : noReadEffectOn s.cfg a) : nextReply s b = w := by
  have hmoved : (chipMoved s.cfg s.chip s.moments).read a = w := (chipMoved_read _ _ _ _ ha).trans hchip
  have hafter : (chipAfter s.cfg (chipMoved s.cfg s.chip s.moments) (s.moments + 1) (readByte b) 0).read a = w := by
    rw [chipAfter_read_kept _ _ _ (byteWrite_readByte b) ha hne, chipMoved_read _ _ _ _ ha, hmoved]
  rw [nextReply_intact s b hlink, hrpl, returnedWord_same s.draws ha hafter]

/-- R166: after a command that read register `a`, the next read returns the data of `a`. -/
theorem nextReply_doneRead {s : State} {a : Addr} (v : Word) (b : Addr) (hlink : s.disturb = none)
    (hread : readable s.cfg a = true) (ha : a ∉ s.cfg.chipChanges) (hne : noReadEffectOn s.cfg a) :
    nextReply (doneRead s a v) b = readChip s a :=
  nextReply_of_data b (doneRead_disturb s a v) (doneRead_rpl_intact v hlink hread ha hne)
    (readChip_doneRead a v hlink ha hne) ha hne

/-- R166, R97: a GETF decodes with its own descriptor whatever word its exchange returns. -/
theorem getfVal_of_nextReply {s : State} {d : Field} {w : Word} (h : nextReply s d.reg = w) :
    getfVal s d = trunc32 (decodeField d w (Config.freeDecode s.draws).toInt) := by
  rw [getfVal, h]

theorem resTxn_doneRead (s : State) (a : Addr) (v : Word) : resTxn (doneRead s a v).res = true := resTxn_resultWord _ _ _

theorem resVal_doneRead (s : State) (a : Addr) (v : Word) : resVal (doneRead s a v).res = v := resVal_resultWord _ _ _

/-- Settles O44: the first read leaves the data of `a` as the reply word, which the second command returns or decodes. -/
theorem primedReadReturnsData : Obligations.PrimedReadReturnsData := by
  intro s a x y hlink hread ha hne
  have hreply (b : Addr) : nextReply (doneRead s a (nextReply s a)) b = readChip s a :=
    nextReply_doneRead _ b hlink hread ha hne
  exact ⟨⟨_, _, exec_rdreg_readable x hread, exec_rdreg_readable y hread, resTxn_doneRead _ _ _,
      (resVal_doneRead _ _ _).trans (hreply a)⟩, fun f d hd hdread =>
    ⟨_, _, exec_rdreg_readable x hread, exec_getf_readable y hd hdread, resTxn_doneRead _ _ _,
      (resVal_doneRead _ _ _).trans (getfVal_of_nextReply (hreply d.reg))⟩⟩

/-! ### A frame that a reset of the block cuts short (O12) -/

/-- R160, U9: a reset of the block that finds a frame in progress leaves the chip's cut words, no reply word and no failure. -/
theorem chipCut_midFrame {s : State} (hbusy : s.busy = true) (hcsn : s.link.csn = false) :
    chipCut s = { s with chip := cutWords s, rpl := .unspecified, disturb := none } := by
  have hmid : midFrame s = true := by simp [midFrame, hbusy, hcsn]
  rw [chipCut, if_pos hmid]

/-- U9: the cut leaves every register alone but the one that the datagram which reached the chip addresses. -/
theorem cutWords_read {s : State} {b : Addr} (h : ∀ d, midDatagram s = some d → b ≠ d.extractLsb' 32 7) :
    (cutWords s).read b = readChip s b := by
  unfold cutWords
  split
  · rfl
  · next d hd => exact Memory.read_write_ne _ _ _ _ (h d hd)

/-- R143: where the exchange does not fail, what has reached the chip is the datagram in progress. -/
theorem midDatagram_intact {s : State} (hlink : s.disturb = none) : midDatagram s = some s.link.out40 := by
  simp [midDatagram, arrives, hlink]

/-- U9, R44: the chip's word of a register that the cut datagram does not address, after the reset. -/
theorem readChip_blockReset_midFrame {s : State} {b : Addr} (hbusy : s.busy = true) (hcsn : s.link.csn = false)
    (hb : b ∉ s.cfg.chipChanges) (h : ∀ d, midDatagram s = some d → b ≠ d.extractLsb' 32 7) :
    readChip (blockReset s) b = readChip s b := by
  rw [readChip, blockReset_chip, chipCut_midFrame hbusy hcsn, chipMoved_read _ _ _ _ hb, cutWords_read h]

/-- Settles O12: the reset of a block in the middle of a frame, field by field, and the chip's words that the cut leaves. -/
theorem blockResetCutsFrameShort : Obligations.BlockResetCutsFrameShort := by
  intro s es he hbusy hcsn
  have hcut := chipCut_midFrame (s := afterEvent s es) hbusy hcsn
  refine ⟨midDatagram_intact, _, step_blockReset he, rfl, rfl, ?_, ?_, fun b hb h =>
    readChip_blockReset_midFrame (s := afterEvent s es) hbusy hcsn hb h⟩
  · rw [blockReset_rpl, hcut]
  · rw [blockReset_disturb, hcut]

/-! ### A reset of the chip (O13) -/

theorem step_chipReset {s : State} {es : List Event} (h : s.events = .chipReset :: es) :
    step s = .next (chipReset (afterEvent s es)) := by
  simp [step, h]

/-- R161: after a reset of the chip its registers hold the configured power-on words. -/
theorem readChip_chipReset (s : State) (a : Addr) : readChip (chipReset s) a = Memory.read s.cfg.chipPor a := rfl

/-- R170: a reset of the chip writes neither file of the block. -/
theorem filesSame_chipReset (s : State) : FilesSame s (chipReset s) := ⟨fun _ => rfl, fun _ => rfl⟩

/-- Settles O13: the chip at its power-on words, and the block's fields as the event left them. -/
theorem chipResetLeavesTheBlock : Obligations.ChipResetLeavesTheBlock :=
  fun s es h =>
    ⟨_, step_chipReset h, readChip_chipReset (afterEvent s es), rfl, filesSame_chipReset (afterEvent s es), rfl, rfl, rfl,
      rfl, rfl, rfl, rfl⟩

end Sys2Proof.Machine
end

section
/-!
PROOFS of the family other: the canonical form of the files (log 7), the law of quantization and the locality of the codec (R104,
R105), what an instruction is refused for (R59, R146), the invariants at reset (R28), and the worked examples of R113.
-/
namespace Sys2Proof.Machine

/-! ### Every step keeps the files canonical (O48) -/

/-- Accepting a command moves the chip as time does, so its file stays canonical. -/
theorem accept_chip_wf {s : State} (h : s.chip.wf = true) : (accept s).chip.wf = true :=
  chipMoved_wf _ _ _ h

theorem Effect.keeps_chip_wf {i : Instr} {s t : State} (h : Effect i s t) (hs : s.chip.wf = true) : t.chip.wf = true := by
  rcases h.chip with ⟨u, d, hu, hchip, -, -⟩ | ⟨hchip, -, -⟩
  · have hwf : u.chip.wf = true := by
      rcases hu with rfl | rfl
      · exact hs
      · exact accept_chip_wf hs
    rw [hchip]
    exact chipNext_wf u d hwf
  · rw [hchip]
    exact chipMoved_wf _ _ _ hs

/-- U9: a frame cut short writes at most one word of the chip. -/
theorem chipCut_chip_wf {s : State} (h : s.chip.wf = true) : (chipCut s).chip.wf = true := by
  rcases chipCut_cases s with ⟨hchip, -, -⟩ | ⟨-, -, hchip | ⟨a, v, hchip⟩⟩
  · rwa [hchip]
  · rwa [hchip]
  · rw [hchip]
    exact Memory.wf_write _ _ _ h

theorem StepEffect.keeps_chip_wf {s t : State} (h : StepEffect s t) (hs : s.chip.wf = true)
    (hpor : Memory.wf s.cfg.chipPor = true) : t.chip.wf = true := by
  cases h with
  | wait es hes ht => exact ht ▸ chipMoved_wf _ _ _ hs
  | run es hes i hb hf hx he => exact he.keeps_chip_wf hs
  | hang es bits hes f hb ht => exact ht ▸ accept_chip_wf (s := afterEvent s es) hs
  | blockReset es he ht => exact ht ▸ chipMoved_wf _ _ _ (chipCut_chip_wf (s := afterEvent s es) hs)
  | chipReset es he ht => exact ht ▸ hpor
  | disturb es d he ht => exact ht ▸ hs

theorem StepEffect.keeps_shadow_wf {s t : State} (h : StepEffect s t) (hs : s.sh.wf = true) : t.sh.wf = true := by
  rcases h.shadow with hsh | ⟨a, w, -, hsh⟩ | hsh
  · rwa [hsh]
  · rw [hsh]
    exact Memory.wf_write _ _ _ hs
  · rw [hsh]
    exact Memory.wf_nil

theorem StepEffect.keeps_cache_sorted {s t : State} (h : StepEffect s t) (hs : tabSorted s.sv = true) :
    tabSorted t.sv = true := by
  rcases h.cache with hsv | ⟨f, z, d, -, -, hsv⟩ | hsv
  · rwa [hsv]
  · rw [hsv]
    exact tabSorted_put _ _ _ hs
  · rw [hsv]
    exact tabSorted_nil

/-- Settles O48: each file from what a step can do to it; the power-on words are configuration. -/
theorem stepKeepsCanonicalFiles : Obligations.StepKeepsCanonicalFiles := by
  intro s t ⟨hsh, hchip, hpor, hsv⟩ hstep
  have h : StepEffect s t := step_effect s t hstep
  refine ⟨h.keeps_shadow_wf hsh, h.keeps_chip_wf hchip hpor, ?_, h.keeps_cache_sorted hsv⟩
  rwa [h.parameters_kept.1]

/-! ### The law of quantization (O26) -/

/-- R120 part 6: the members of a well-formed set fall strictly. -/
theorem policyWf_quant_pairwise {w : Nat} {l : List Int} {dir : Dir} (h : (Policy.quant l dir).wf w = true) :
    l.Pairwise (fun x y => x > y) := by
  simp only [Policy.wf, Bool.and_eq_true, decide_eq_true_eq] at h
  obtain ⟨⟨hpair, -⟩, -⟩ := h
  exact hpair

/-- In a falling list a later member is not above an earlier one. -/
theorem getD_le_getD_of_pairwise {l : List Int} (hpair : l.Pairwise (fun x y => x > y)) {i j : Nat} (hij : i ≤ j)
    (hj : j < l.length) : l.getD j 0 ≤ l.getD i 0 := by
  rw [List.getD_eq_getElem _ _ hj, List.getD_eq_getElem _ _ (hij.trans_lt hj)]
  rcases hij.eq_or_lt with rfl | hlt
  · exact le_rfl
  · exact (List.pairwise_iff_getElem.mp hpair i j (hlt.trans hj) hj hlt).le

/-- A member of a list is the member at some index. -/
theorem exists_getD_of_mem {l : List Int} {y : Int} (hy : y ∈ l) : ∃ j, j < l.length ∧ l.getD j 0 = y := by
  obtain ⟨j, hj, hjy⟩ := List.getElem_of_mem hy
  exact ⟨j, hj, (List.getD_eq_getElem _ _ hj).trans hjy⟩

section
variable {w : Nat} {l : List Int} {dir : Dir} (hwf : (Policy.quant l dir).wf w = true)
include hwf

theorem quantCanon_mem (z : Int) : policyCanon (.quant l dir) z ∈ l := by
  have hlt : quantIdx l dir z < l.length := quantIdx_lt l dir z (policyWf_quant_length hwf)
  rw [policyCanon, List.getD_eq_getElem _ _ hlt]
  exact List.getElem_mem hlt

/-- R93: rounding down gives the largest member not above `z`, the last of the falling set where all lie above. -/
theorem quantCanon_down (z : Int) (hdir : dir = .down) :
    ((∃ y ∈ l, y ≤ z) → policyCanon (.quant l dir) z ≤ z ∧ ∀ y ∈ l, y ≤ z → y ≤ policyCanon (.quant l dir) z) ∧
      ((∀ y ∈ l, z < y) → ∀ y ∈ l, policyCanon (.quant l dir) z ≤ y) := by
  subst hdir
  have hpair := policyWf_quant_pairwise hwf
  obtain ⟨hsome, hnone⟩ := quantIdx_down l z
  refine ⟨fun hex => ?_, fun habove y hy => ?_⟩
  · obtain ⟨hle, hbefore⟩ := hsome hex
    refine ⟨hle, fun y hy hyz => ?_⟩
    obtain ⟨j, hj, rfl⟩ := exists_getD_of_mem hy
    have hidx : quantIdx l .down z ≤ j := not_lt.mp fun hlt => (hbefore j hlt).not_ge hyz
    exact getD_le_getD_of_pairwise hpair hidx hj
  · obtain ⟨j, hj, rfl⟩ := exists_getD_of_mem hy
    rw [policyCanon, hnone habove]
    exact getD_le_getD_of_pairwise hpair (by omega) (by omega)

/-- R94: rounding up gives the smallest member not below `z`, the first of the falling set where all lie below. -/
theorem quantCanon_up (z : Int) (hdir : dir = .up) :
    ((∃ y ∈ l, z ≤ y) → z ≤ policyCanon (.quant l dir) z ∧ ∀ y ∈ l, z ≤ y → policyCanon (.quant l dir) z ≤ y) ∧
      ((∀ y ∈ l, y < z) → ∀ y ∈ l, y ≤ policyCanon (.quant l dir) z) := by
  subst hdir
  have hpair := policyWf_quant_pairwise hwf
  have hlt : quantIdx l .up z < l.length := quantIdx_lt l .up z (policyWf_quant_length hwf)
  obtain ⟨hsome, hnone⟩ := quantIdx_up l z
  refine ⟨fun hex => ?_, fun hbelow y hy => ?_⟩
  · obtain ⟨hle, hafter⟩ := hsome hex
    refine ⟨hle, fun y hy hzy => ?_⟩
    obtain ⟨j, hj, rfl⟩ := exists_getD_of_mem hy
    have hidx : j ≤ quantIdx l .up z := not_lt.mp fun h => (hafter j h hj).not_ge hzy
    exact getD_le_getD_of_pairwise hpair hidx hlt
  · obtain ⟨j, hj, rfl⟩ := exists_getD_of_mem hy
    rw [policyCanon, hnone hbelow]
    exact getD_le_getD_of_pairwise hpair (Nat.zero_le j) hj

/-- R104: a member is its own canonical value in both directions. -/
theorem quantCanon_of_mem {z : Int} (hz : z ∈ l) : policyCanon (.quant l dir) z = z := by
  cases hdir : dir with
  | down =>
    obtain ⟨hle, hmax⟩ := (quantCanon_down hwf z hdir).1 ⟨z, hz, le_rfl⟩
    exact hdir ▸ le_antisymm hle (hmax z hz le_rfl)
  | up =>
    obtain ⟨hle, hmin⟩ := (quantCanon_up hwf z hdir).1 ⟨z, hz, le_rfl⟩
    exact hdir ▸ le_antisymm (hmin z hz le_rfl) hle

end

/-- R98: decode of encode looks up the member at the index that was encoded. -/
theorem decode_encode_quant {c : Config} {d : Field} {l : List Int} {dir : Dir} (z free : Int) (hwf : d.wf c = true)
    (h : d.policy = .quant l dir) : decodeField d (encodeField d z).bits free = (encodeField d z).canon := by
  have hpol : (Policy.quant l dir).wf d.width = true := h ▸ (fieldWf_fits hwf).2
  have hlt : quantIdx l dir z < l.length := quantIdx_lt l dir z (policyWf_quant_length hpol)
  rw [decodeField_quant h, fieldCode_encode z hwf, encode_canon, h, policyCode, policyCanon, List.getD_eq_getElem _ _ hlt,
    List.getD_eq_getElem _ _ hlt]

/-- Settles O26: the canonical value is the member that each direction selects, and decode gives it back. -/
theorem quantizationLaw : Obligations.QuantizationLaw := by
  intro c d z free l dir hwf hpol
  have hquant : (Policy.quant l dir).wf d.width = true := hpol ▸ (fieldWf_fits hwf).2
  have hdecode := decode_encode_quant z free hwf hpol
  rw [encode_canon, hpol] at hdecode ⊢
  exact ⟨hdecode, quantCanon_mem hquant z, quantCanon_of_mem hquant, fun h => (quantCanon_down hquant z h).1,
    fun h => (quantCanon_down hquant z h).2, fun h => (quantCanon_up hquant z h).1, fun h => (quantCanon_up hquant z h).2⟩

/-! ### Encode is idempotent, and the codec is local to the field's bits (O27) -/

/-- No two indices of a falling set hold the same member. -/
theorem getD_inj_of_pairwise {l : List Int} (hpair : l.Pairwise (fun x y => x > y)) {i j : Nat} (hi : i < l.length)
    (hj : j < l.length) (h : l.getD i 0 = l.getD j 0) : i = j := by
  have hnodup : l.Nodup := hpair.imp fun hgt => hgt.ne'
  rw [List.getD_eq_getElem _ _ hi, List.getD_eq_getElem _ _ hj] at h
  exact (hnodup.getElem_inj_iff).mp h

theorem clampInt_idem (z : Int) {lo hi : Int} (h : lo ≤ hi) : clampInt (clampInt z lo hi) lo hi = clampInt z lo hi := by
  obtain ⟨hlo, hhi⟩ := clampInt_bounds z lo hi h
  exact clampInt_self _ _ _ hlo hhi

/-- R105: the canonical value has the code of the value that it stands for. -/
theorem policyCode_canon {p : Policy} {w : Nat} (z : Int) (h : p.wf w = true) :
    policyCode p (policyCanon p z) = policyCode p z := by
  cases p with
  | clamp min max =>
    obtain ⟨-, hle, -⟩ := (policyWf_clamp_iff _ _ _).mp h
    simp only [policyCode, policyCanon, clampInt_idem z hle]
  | bias min max offset =>
    simp only [policyCode, policyCanon, clampInt_idem z (policyWf_bias_bounds h).1]
  | quant l dir =>
    have hlt : ∀ x, quantIdx l dir x < l.length := fun x => quantIdx_lt l dir x (policyWf_quant_length h)
    exact getD_inj_of_pairwise (policyWf_quant_pairwise h) (hlt _) (hlt _) (quantCanon_of_mem h (quantCanon_mem h z))

/-- R105: the canonical value is its own canonical value. -/
theorem policyCanon_canon {p : Policy} {w : Nat} (z : Int) (h : p.wf w = true) :
    policyCanon p (policyCanon p z) = policyCanon p z := by
  cases p with
  | clamp min max =>
    obtain ⟨-, hle, -⟩ := (policyWf_clamp_iff _ _ _).mp h
    exact clampInt_idem z hle
  | bias min max offset => exact clampInt_idem z (policyWf_bias_bounds h).1
  | quant l dir => exact quantCanon_of_mem h (quantCanon_mem h z)

theorem encodeField_canon {d : Field} (z : Int) (h : d.policy.wf d.width = true) :
    encodeField d (encodeField d z).canon = encodeField d z := by
  simp only [encodeField, policyCode_canon z h, policyCanon_canon z h]

/-- R97: decode reads a word through its code alone. -/
theorem decodeField_of_fieldCode {d : Field} {w v : Word} (h : fieldCode d w = fieldCode d v) (free : Int) :
    decodeField d w free = decodeField d v free := by
  simp only [decodeField, h]

/-- R105: words that agree under the field's mask agree in each of the field's bits. -/
theorem getLsbD_eq_of_and_fieldMask {w v : Word} {off width : Nat}
    (h : w &&& fieldMask off width = v &&& fieldMask off width) {i : Nat} (hi : i < 32) (hin : off ≤ i ∧ i < off + width) :
    w.getLsbD i = v.getLsbD i := by
  have hbit := congrArg (fun x => x.getLsbD i) h
  simpa [BitVec.getLsbD_and, getLsbD_fieldMask _ _ _ hi, hin] using hbit

/-- Settles O27: the four parts of the law, each from the codes or the bits of the field. -/
theorem codecIdempotentAndLocal : Obligations.CodecIdempotentAndLocal := by
  intro c d e z free w v hd he
  obtain ⟨hdfit, hdpol⟩ := fieldWf_fits hd
  obtain ⟨hefit, -⟩ := fieldWf_fits he
  refine ⟨encodeField_canon z hdpol, encode_bits_inside_mask (policyCode_lt _ _ z hdpol), fun hmask => ?_, fun hdisj => ?_⟩
  · exact decodeField_of_fieldCode
      (fieldCode_congr d w v hdfit fun i hlow hhigh => getLsbD_eq_of_and_fieldMask hmask (by omega) ⟨hlow, hhigh⟩) free
  · have hapart : d.off + d.width ≤ e.off ∨ e.off + e.width ≤ d.off := of_decide_eq_true hdisj
    exact decodeField_of_fieldCode
      (fieldCode_congr e _ w hefit fun i _ _ => getLsbD_mergeWord_outside d z w (by omega)) free

/-! ### What an instruction is refused for (O39) -/

/-- A register is in the table exactly where it is write-only or readable (R23). -/
theorem accOf_isSome_iff (c : Config) (a : Addr) :
    (accOf c a).isSome = true ↔ accOf c a = some .wo ∨ readable c a = true := by
  rcases ha : accOf c a with _ | (_ | _ | _) <;> simp [readable, ha]

theorem exec_rdreg_next_iff (s : State) (a : Addr) (x : Word) :
    (∃ t, exec (.rdreg a x) s = .next t) ↔ (accOf s.cfg a).isSome = true := by
  rw [accOf_isSome_iff]
  constructor
  · rintro ⟨t, h⟩
    exact (execRdreg_next (x := x) h).imp And.left And.left
  · rintro (ha | hr)
    · exact ⟨_, exec_rdreg_wo x ha⟩
    · exact ⟨_, exec_rdreg_readable x hr⟩

theorem exec_wrreg_next_iff (s : State) (a : Addr) (v : Word) :
    (∃ t, exec (.wrreg a v) s = .next t) ↔ writable s.cfg a = true :=
  ⟨fun ⟨t, h⟩ => (execWrreg_next s t a v h).1, fun hw => ⟨_, exec_wrreg_writable v hw⟩⟩

theorem exec_getf_next_iff (s : State) (f : FieldId) (x : Word) :
    (∃ t, exec (.getf f x) s = .next t) ↔ ∃ d, fieldOf s.cfg f = some d ∧ (accOf s.cfg d.reg).isSome = true := by
  constructor
  · rintro ⟨t, h⟩
    obtain ⟨d, hd, hcases⟩ := execGetf_next (x := x) h
    exact ⟨d, hd, (accOf_isSome_iff _ _).mpr (hcases.imp And.left And.left)⟩
  · rintro ⟨d, hd, hacc⟩
    rcases (accOf_isSome_iff _ _).mp hacc with ha | hr
    · exact ⟨_, exec_getf_wo x hd ha⟩
    · exact ⟨_, exec_getf_readable x hd hr⟩

/-- A SETF of a field of a write-capable register completes, whether its gate is open or closed (R110). -/
theorem exec_setf_next_iff (s : State) (f : FieldId) (z : Word) :
    (∃ t, exec (.setf f z) s = .next t) ↔ ∃ d, fieldOf s.cfg f = some d ∧ writable s.cfg d.reg = true := by
  constructor
  · rintro ⟨t, h⟩
    obtain ⟨d, hd, hw, -⟩ := execSetf_next s t f z h
    exact ⟨d, hd, hw⟩
  · rintro ⟨d, hd, hw⟩
    rcases (writable_iff _ _).mp hw with ha | ha
    · exact ⟨_, execSetf_wo f z s d hd ha⟩
    · exact ⟨_, execSetf_rw f z s d hd ha⟩

theorem wf_getf_iff (c : Config) (f : FieldId) (x : Word) :
    (Instr.getf f x).wf c = true ↔ ∃ d, fieldOf c f = some d ∧ (accOf c d.reg).isSome = true := by
  cases hd : fieldOf c f <;> simp [Instr.wf, hd]

theorem wf_setf_iff (c : Config) (f : FieldId) (z : Word) :
    (Instr.setf f z).wf c = true ↔ ∃ d, fieldOf c f = some d ∧ writable c d.reg = true := by
  cases hd : fieldOf c f <;> simp [Instr.wf, hd]

/-- R146: `exec` answers a next state exactly for the instructions that the tables allow. -/
theorem exec_next_iff_wf (s : State) (i : Instr) : (∃ t, exec i s = .next t) ↔ i.wf s.cfg = true := by
  cases i with
  | rdreg a x => exact exec_rdreg_next_iff s a x
  | wrreg a v => exact exec_wrreg_next_iff s a v
  | getf f x => exact (exec_getf_next_iff s f x).trans (wf_getf_iff s.cfg f x).symm
  | setf f z => exact (exec_setf_next_iff s f z).trans (wf_setf_iff s.cfg f z).symm
  | dgramRd a d => exact ⟨fun _ => rfl, fun _ => ⟨_, exec_dgramRd a d s⟩⟩
  | dgramWr a d => exact ⟨fun _ => rfl, fun _ => ⟨_, exec_dgramWr a d s⟩⟩

/-- R59 (c). -/
theorem exec_register_unknown {s : State} {a : Addr} (x : Word) (h : accOf s.cfg a = none) :
    exec (.rdreg a x) s = .refused (.unknownRegister a) ∧ exec (.wrreg a x) s = .refused (.unknownRegister a) := by
  simp [exec, execRdreg, execWrreg, h]

/-- R59 (d). -/
theorem exec_wrreg_readOnly {s : State} {a : Addr} (x : Word) (h : accOf s.cfg a = some .ro) :
    exec (.wrreg a x) s = .refused (.readOnlyRegister a) := by
  simp [exec, execWrreg, h]

/-- R59 (e). -/
theorem exec_field_unknown {s : State} {f : FieldId} (x : Word) (h : fieldOf s.cfg f = none) :
    exec (.getf f x) s = .refused (.unknownField f) ∧ exec (.setf f x) s = .refused (.unknownField f) := by
  simp [exec, execGetf, execSetf, h]

/-- R59 (f). -/
theorem exec_setf_readOnly {s : State} {f : FieldId} {d : Field} (x : Word) (hd : fieldOf s.cfg f = some d)
    (h : accOf s.cfg d.reg = some .ro) : exec (.setf f x) s = .refused (.readOnlyField f) := by
  simp [exec, execSetf, hd, h]

/-- Settles O39: the instructions one by one, and the four refusals by the check that raises each. -/
theorem refusesExactlyTheIllFormed : Obligations.RefusesExactlyTheIllFormed :=
  fun s =>
    ⟨exec_next_iff_wf s, fun _ x h => exec_register_unknown x h, fun _ x h => exec_wrreg_readOnly x h,
      fun _ x h => exec_field_unknown x h, fun _ x _ hd h => exec_setf_readOnly x hd h⟩

/-! ### The invariants at reset (O55) -/

@[simp] theorem readSh_reset (a : Addr) : readSh State.reset a = 0 := rfl

/-- R27: the chip's power-on words are zero (the premise CHIP_POR_ZERO, log 7). -/
@[simp] theorem readChip_reset (a : Addr) : readChip State.reset a = 0 := rfl

theorem canonicalFiles_reset : CanonicalFiles State.reset :=
  ⟨Memory.wf_nil, Memory.wf_nil, Memory.wf_nil, tabSorted_nil⟩

/-- R44: by default the chip changes no write-capable register on its own (log 11). -/
theorem not_writable_of_chipChanges : ∀ a ∈ configDefault.chipChanges, writable configDefault a = false := by decide

/-- R44, D26: by default no read has a side effect. -/
theorem noReadEffectOn_configDefault (a : Addr) : noReadEffectOn configDefault a :=
  fun _ he => absurd he List.not_mem_nil

theorem coherencyPremises_reset : CoherencyPremises State.reset := by
  refine ⟨rfl, rfl, rfl, fun a ha => ⟨fun hmem => ?_, noReadEffectOn_configDefault a⟩⟩
  exact Bool.false_ne_true ((not_writable_of_chipChanges a hmem).symm.trans ha)

/-- Settles O55: the files and the traces are empty, the link is idle and there is no reply word. -/
theorem invariantsHoldAtReset : Obligations.InvariantsHoldAtReset :=
  ⟨canonicalFiles_reset, fun a _ => readSh_reset a, fun _ h => absurd h Bool.false_ne_true, fun _ => ⟨rfl, rfl⟩,
    replyFresh_of_unspecified rfl, rfl, fun _ hf => absurd hf List.not_mem_nil, readSh_reset, coherencyPremises_reset,
    fun a _ => (readChip_reset a).trans (readSh_reset a).symm⟩

/-! ### The worked examples (O59) -/

/-- R110: SETF of a field without a gate puts the merged word into the shadow file; the configuration stays. -/
theorem exec_setf_ungated {s : State} {f : FieldId} {d : Field} (z : Word) (hd : fieldOf s.cfg f = some d)
    (hw : writable s.cfg d.reg = true) (hgate : d.gate = none) :
    ∃ t, exec (.setf f z) s = .next t ∧ t.cfg = s.cfg ∧ readSh t d.reg = setfWord s d (sext32 z) := by
  have hopen : gateOpen d (readSh s d.reg) = true := gateOpen_of_none hgate _
  rcases (writable_iff _ _).mp hw with ha | ha
  · exact ⟨_, exec_setf_open_wo z hd ha hopen, rfl, (readSh_doneWriteCached _ _ _ _ _ _).trans (if_pos rfl)⟩
  · exact ⟨_, exec_setf_open_rw z hd ha hopen, rfl, (readSh_doneWrite _ _ _ _).trans (if_pos rfl)⟩

/-- R113 (a): 16 is the fifth member of the microstep set, so its code is 0b0100. -/
theorem setfWord_mres (s : State) :
    setfWord s ⟨0x31, "MRES", 0x6C, 24, 4, .quant [256, 128, 64, 32, 16, 8, 4, 2, 0] .down, none⟩ (sext32 16) =
      (readSh s 0x6C &&& 0xF0FFFFFF) ||| 0x04000000 := rfl

/-- R113 (b): the run current goes to bits 12:8 of the zero word. -/
theorem setfWord_irun {s : State} (h : readSh s 0x10 = 0) :
    setfWord s ⟨0x1D, "IRUN", 0x10, 8, 5, .clamp 0 31, none⟩ (sext32 31) = 0x00001F00 := by
  rw [setfWord, h]
  decide

/-- R113 (b): the hold current goes to bits 4:0 and leaves the run current. -/
theorem setfWord_ihold {s : State} (h : readSh s 0x10 = 0x00001F00) :
    setfWord s ⟨0x1C, "IHOLD", 0x10, 0, 5, .clamp 0 31, none⟩ (sext32 31) = 0x00001F1F := by
  rw [setfWord, h]
  decide

/-- Settles O59: the three fields have no gate, so each SETF leaves the merge of its encoded value. -/
theorem workedExamples : Obligations.WorkedExamples := by
  obtain ⟨-, -, -, -, -, -, hihold, hirun, hmres⟩ := defaultTablesWellFormed
  have hchop : writable configDefault 0x6C = true := by decide
  have hcurrent : writable configDefault 0x10 = true := by decide
  refine ⟨fun s hs => ?_, fun s hs hzero => ?_⟩
  · obtain ⟨t, ht, -, hsh⟩ := exec_setf_ungated 16 (hs ▸ hmres) (hs ▸ hchop) rfl
    exact ⟨t, ht, hsh.trans (setfWord_mres s)⟩
  · obtain ⟨t, ht, hcfg, htsh⟩ := exec_setf_ungated 31 (hs ▸ hirun) (hs ▸ hcurrent) rfl
    have htcfg : t.cfg = configDefault := hcfg.trans hs
    obtain ⟨u, hu, -, hush⟩ := exec_setf_ungated 31 (htcfg ▸ hihold) (htcfg ▸ hcurrent) rfl
    exact ⟨t, u, ht, hu, hush.trans (setfWord_ihold (htsh.trans (setfWord_irun hzero)))⟩

end Sys2Proof.Machine
end
